-- ==== Sys2Proof/Word.lean ====
section
/-! DEFINITION. Word.lean: the widths of the block's registers, bytes and raster pixels. -/

namespace Sys2Proof

/-- A 32-bit register or bus address (00_scope.md R8: `ADDR_W` = `REG_W` = 32). -/
abbrev Word := BitVec 32

/-- One byte of memory, the smallest unit the engine reads or writes (20_memory.md R57). -/
abbrev Byte := BitVec 8

/-- A raster pixel (00_scope.md R17: RGB565 is a 16-bit colour packing). -/
abbrev Pixel := BitVec 16

/-- The size of the bus address space in bytes, `2^ADDR_W` (20_memory.md R50). -/
abbrev spaceSize : Nat := 4294967296

end Sys2Proof
end

