-- ==== Sys2Proof/Syntax.lean ====
section
/-! DEFINITION. Syntax.lean: the block's instructions, one constructor per row of spec/opcode_table.json. -/

namespace Sys2Proof

/-- The block's "instructions" in the sense of 00_scope.md R2: the four job commands, the tokens of the LZB, RLE8 and
RLE16 streams, and the five pixel formats of the converter. The table gives KLIT three rows, one per value of the key's
top two bits; each is a constructor of its own. -/
inductive Instr where
  /-- `CMD.LZB` (R70, R71, R95); `ie` is bit 1 of the CTRL start word. -/
  | cmdLzb (ie : Bool)
  /-- `CMD.RLE8` (R96). -/
  | cmdRle8 (ie : Bool)
  /-- `CMD.RLE16` (R97). -/
  | cmdRle16 (ie : Bool)
  /-- `CMD.CONVERT` (R98). -/
  | cmdConvert (ie : Bool)
  /-- `LIT L`: LZB literal with the field L as it stands in the stream (R74, R114). -/
  | lit (l : Byte)
  /-- `REF o, m`: LZB back-reference, both fields zero-extended to 32 bits (R75, R115). -/
  | ref (offset len : Word)
  /-- `RUN c, D`: RLE8 run (R77, R142). -/
  | run (count : BitVec 6) (data : Byte)
  /-- `KLIT K` with K = `00LLLLLL` (R77, R141). -/
  | klit00 (l : BitVec 6)
  /-- `KLIT K` with K = `01LLLLLL`. -/
  | klit01 (l : BitVec 6)
  /-- `KLIT K` with K = `10LLLLLL`. -/
  | klit10 (l : BitVec 6)
  /-- `UNIT K, B0, B1`: RLE16 unit (R78, R146). -/
  | unit (k b0 b1 : Byte)
  /-- `CONV.BPP1`: one pixel of a CONVERT job with GEOM1.BPP = 1 (R80, R167). -/
  | convBpp1
  /-- `CONV.BPP2` (R168). -/
  | convBpp2
  /-- `CONV.BPP4` (R169). -/
  | convBpp4
  /-- `CONV.BPP8` (R171). -/
  | convBpp8
  /-- `CONV.BPP16` (R172). -/
  | convBpp16
  deriving DecidableEq, Repr

/-- The widths of the two back-reference fields, fixed per LZB stream by its sub-header (30_encoding.md R73). -/
structure Widths where
  obits : Nat
  mbits : Nat
  deriving DecidableEq, Repr

/-- An encoded text in one of the block's encoding spaces (30_encoding.md, head and R70 to R80): a CTRL word, a GEOM1
word, the bits of an LZB stream in stream order (R72), the bytes of an RLE8 or an RLE16 stream. -/
inductive Code where
  | ctrl (w : Word)
  | geom1 (w : Word)
  | lzb (bits : List Bool)
  | rle8 (bytes : List Byte)
  | rle16 (bytes : List Byte)
  deriving DecidableEq, Repr

end Sys2Proof
end

