-- ==== Sys2Proof/WellFormed.lean ====
section
/-! DEFINITION. WellFormed.lean: which instructions an encoding can hold, given the LZB field widths. -/

namespace Sys2Proof

/-- The legal widths of a field the bit reader delivers, `LZB_WIDTH_LEGAL` = 1..32 (00_scope.md R8, 41_lzb.md R112). -/
def widthLegal (n : Nat) : Bool := decide (1 ≤ n) && decide (n ≤ 32)

/-- Both widths legal (41_lzb.md R112). -/
def Widths.legal (w : Widths) : Bool := widthLegal w.obits && widthLegal w.mbits

/-- A back-reference is well formed when the widths are legal and each field fits its width (30_encoding.md R75).
Every other instruction's fields have the width of their type, so nothing is left to check. -/
def Instr.wellFormed (w : Widths) : Instr → Bool
  | .cmdLzb _ => true
  | .cmdRle8 _ => true
  | .cmdRle16 _ => true
  | .cmdConvert _ => true
  | .lit _ => w.legal
  | .ref o m => w.legal && decide (o.toNat < 2 ^ w.obits) && decide (m.toNat < 2 ^ w.mbits)
  | .run _ _ => true
  | .klit00 _ => true
  | .klit01 _ => true
  | .klit10 _ => true
  | .unit _ _ _ => true
  | .convBpp1 => true
  | .convBpp2 => true
  | .convBpp4 => true
  | .convBpp8 => true
  | .convBpp16 => true

end Sys2Proof
end

