-- ==== Sys2Proof/Decode.lean ====
section
/-! DEFINITION. Decode.lean: the decoder of each encoding space, total and rejecting by name, and after it the encoder.
Rules: 30_encoding.md R70 to R80. A stream decoder answers the instruction and how many units (bits of an LZB stream,
bytes of an RLE stream, words otherwise) it takes. -/

namespace Sys2Proof

/-- Why a text decodes to no instruction. -/
inductive Reject where
  /-- A CTRL word with bit 0 = 0 starts no job (10_state.md R22). -/
  | notStart
  /-- OP 0, 5, 6 or 7 (30_encoding.md R70). -/
  | reservedOp (op : BitVec 3)
  /-- BPP other than 1, 2, 4, 8, 16 (30_encoding.md R80). -/
  | reservedBpp (bpp : BitVec 5)
  /-- LZB field widths outside 1..32 (41_lzb.md R112). -/
  | illegalWidths
  /-- The stream ends inside the token, after `consumed` units of it were taken. -/
  | streamEnd (consumed : Nat)
  deriving DecidableEq, Repr

/-! ### Bits, MSB first (00_scope.md R11, R12) -/

/-- The low `n` bits of `v`, most significant first. -/
def bitsOf : Nat → Nat → List Bool
  | 0, _ => []
  | n + 1, v => v.testBit n :: bitsOf n v

/-- The number a list of bits is, its first bit the most significant. -/
def ofBits (bits : List Bool) : Nat := bits.foldl (fun acc b => acc * 2 + b.toNat) 0

/-! ### The decoders -/

/-- CTRL start words (30_encoding.md R70, R71): START is bit 0, IE bit 1, OP bits 6:4; the reserved bits are ignored. -/
def decodeCtrl (w : Word) : Except Reject Instr :=
  if w.getLsbD 0 = false then .error .notStart
  else if w.extractLsb' 4 3 = 1 then .ok (.cmdLzb (w.getLsbD 1))
  else if w.extractLsb' 4 3 = 2 then .ok (.cmdRle8 (w.getLsbD 1))
  else if w.extractLsb' 4 3 = 3 then .ok (.cmdRle16 (w.getLsbD 1))
  else if w.extractLsb' 4 3 = 4 then .ok (.cmdConvert (w.getLsbD 1))
  else .error (.reservedOp (w.extractLsb' 4 3))

/-- The pixel format GEOM1.BPP (bits 20:16) selects (30_encoding.md R80). -/
def decodeGeom1 (w : Word) : Except Reject Instr :=
  if w.extractLsb' 16 5 = 1 then .ok .convBpp1
  else if w.extractLsb' 16 5 = 2 then .ok .convBpp2
  else if w.extractLsb' 16 5 = 4 then .ok .convBpp4
  else if w.extractLsb' 16 5 = 8 then .ok .convBpp8
  else if w.extractLsb' 16 5 = 16 then .ok .convBpp16
  else .error (.reservedBpp (w.extractLsb' 16 5))

/-- LZB tokens (30_encoding.md R73 to R76): control bit 1, then 8 bits of L; control bit 0, then offset, then length. -/
def decodeLzb (w : Widths) (bits : List Bool) : Except Reject (Instr × Nat) :=
  if w.legal = false then .error .illegalWidths
  else match bits with
    | [] => .error (.streamEnd 0)
    | true :: t =>
      if t.length < 8 then .error (.streamEnd 1)
      else .ok (.lit (BitVec.ofNat 8 (ofBits (t.take 8))), 9)
    | false :: t =>
      if t.length < w.obits then .error (.streamEnd 1)
      else if t.length < w.obits + w.mbits then .error (.streamEnd (1 + w.obits))
      else .ok (.ref (BitVec.ofNat 32 (ofBits (t.take w.obits)))
        (BitVec.ofNat 32 (ofBits ((t.drop w.obits).take w.mbits))), 1 + w.obits + w.mbits)

/-- RLE8 tokens (30_encoding.md R77): the key's top two bits tell the token. A run whose data byte is missing is
rejected with the key taken (42_rle.md R142). -/
def decodeRle8 : List Byte → Except Reject (Instr × Nat)
  | [] => .error (.streamEnd 0)
  | k :: t =>
    if k.extractLsb' 6 2 = 0 then .ok (.klit00 (k.extractLsb' 0 6), 1)
    else if k.extractLsb' 6 2 = 1 then .ok (.klit01 (k.extractLsb' 0 6), 1)
    else if k.extractLsb' 6 2 = 2 then .ok (.klit10 (k.extractLsb' 0 6), 1)
    else match t with
      | [] => .error (.streamEnd 1)
      | d :: _ => .ok (.run (k.extractLsb' 0 6) d, 2)

/-- RLE16 tokens (30_encoding.md R78): key, then two data bytes; with fewer than two, only the key was taken
(42_rle.md R146). -/
def decodeRle16 : List Byte → Except Reject (Instr × Nat)
  | [] => .error (.streamEnd 0)
  | [_] => .error (.streamEnd 1)
  | [_, _] => .error (.streamEnd 1)
  | k :: b0 :: b1 :: _ => .ok (.unit k b0 b1, 3)

/-- The instruction a decoder of single words answers, which takes the one word. -/
def oneWord (r : Except Reject Instr) : Except Reject (Instr × Nat) :=
  match r with
  | .ok i => .ok (i, 1)
  | .error e => .error e

/-- The decoder: every text of every encoding space, to an instruction and its size, or to a rejection by name. -/
def decode (w : Widths) : Code → Except Reject (Instr × Nat)
  | .ctrl c => oneWord (decodeCtrl c)
  | .geom1 g => oneWord (decodeGeom1 g)
  | .lzb bits => decodeLzb w bits
  | .rle8 bytes => decodeRle8 bytes
  | .rle16 bytes => decodeRle16 bytes

/-! ### The encoder -/

/-- The CTRL word that starts command `op`: `0x01 | OP << 4 | IE << 1` (30_encoding.md R71, 70_reset_and_hazards.md
R223 step 4). -/
def startWord (op : BitVec 3) (ie : Bool) : Word :=
  (0 : BitVec 25) ++ op ++ (0 : BitVec 2) ++ BitVec.ofBool ie ++ (1 : BitVec 1)

/-- A GEOM1 word with the given BPP and WIDTH, reserved bits 0 (10_state.md R29). -/
def geom1Of (bpp : BitVec 5) (width : BitVec 16) : Word := (0 : BitVec 11) ++ bpp ++ width

/-- The encoding of an instruction, written from the patterns of R71, R74, R75, R77, R78 and R80. The WIDTH field that
shares GEOM1 with BPP is no part of a pixel format; it is encoded as 0. -/
def encode (w : Widths) : Instr → Code
  | .cmdLzb ie => .ctrl (startWord 1 ie)
  | .cmdRle8 ie => .ctrl (startWord 2 ie)
  | .cmdRle16 ie => .ctrl (startWord 3 ie)
  | .cmdConvert ie => .ctrl (startWord 4 ie)
  | .lit l => .lzb (true :: bitsOf 8 l.toNat)
  | .ref o m => .lzb (false :: (bitsOf w.obits o.toNat ++ bitsOf w.mbits m.toNat))
  | .run c d => .rle8 [(3 : BitVec 2) ++ c, d]
  | .klit00 l => .rle8 [(0 : BitVec 2) ++ l]
  | .klit01 l => .rle8 [(1 : BitVec 2) ++ l]
  | .klit10 l => .rle8 [(2 : BitVec 2) ++ l]
  | .unit k b0 b1 => .rle16 [k, b0, b1]
  | .convBpp1 => .geom1 (geom1Of 1 0)
  | .convBpp2 => .geom1 (geom1Of 2 0)
  | .convBpp4 => .geom1 (geom1Of 4 0)
  | .convBpp8 => .geom1 (geom1Of 8 0)
  | .convBpp16 => .geom1 (geom1Of 16 0)

/-- How many units of its space an instruction takes (30_encoding.md R73, R79). -/
def Instr.size (w : Widths) : Instr → Nat
  | .cmdLzb _ => 1
  | .cmdRle8 _ => 1
  | .cmdRle16 _ => 1
  | .cmdConvert _ => 1
  | .lit _ => 9
  | .ref _ _ => 1 + w.obits + w.mbits
  | .run _ _ => 2
  | .klit00 _ => 1
  | .klit01 _ => 1
  | .klit10 _ => 1
  | .unit _ _ _ => 3
  | .convBpp1 => 1
  | .convBpp2 => 1
  | .convBpp4 => 1
  | .convBpp8 => 1
  | .convBpp16 => 1

/-- How many units a text holds. -/
def Code.units : Code → Nat
  | .ctrl _ => 1
  | .geom1 _ => 1
  | .lzb bits => bits.length
  | .rle8 bytes => bytes.length
  | .rle16 bytes => bytes.length

/-- A text with more of its stream after it; a word has nothing after it. -/
def Code.followedBy (c : Code) (bits : List Bool) (bytes : List Byte) : Code :=
  match c with
  | .ctrl w => .ctrl w
  | .geom1 w => .geom1 w
  | .lzb b => .lzb (b ++ bits)
  | .rle8 b => .rle8 (b ++ bytes)
  | .rle16 b => .rle16 (b ++ bytes)

/-! ### The opcode table's numbering of a word's bits

The table's rows stand in five encoding spaces that share bit patterns (0x00 is an LZB back-reference, an RLE8 literal
key and the start of an RLE16 unit), and the machine always knows which space it reads. `tableCode` fixes, for the
host's probe alone, the space in which a bare (number of bits, word) pair is read; log entry 10. -/

/-- A CTRL start word with reserved bits 0 and a legal OP. -/
def isPlainStart (w : Nat) : Bool :=
  decide (w ∈ [0x11, 0x13, 0x21, 0x23, 0x31, 0x33, 0x41, 0x43])

/-- The widths the table's REF row is shown for (offsetBits = matchBits = 4). -/
def tableWidths : Widths := ⟨4, 4⟩

/-- Byte `n` of a word, byte 0 the first in memory. -/
def byteOfWord (w n : Nat) : Byte := BitVec.ofNat 8 (w / 256 ^ n)

/-- The space and text of a table word: a start word with reserved bits 0 is a CTRL word whatever `nbits`; a word of 8
or 16 bits is the first bits of an LZB token when its byte 0 is 0 or 1 (bit 0 the control bit, zeros after it), else an
RLE8 token; a word of up to 24 bits with a legal BPP alone is a GEOM1 word, and otherwise an RLE16 token, as is a row
to which the table gives no bits; a longer word is a CTRL word when bit 0 is set, else a GEOM1 word. -/
def tableCode (nbits w : Nat) : Code :=
  if isPlainStart w then .ctrl (BitVec.ofNat 32 w)
  else if nbits = 0 then .rle16 [byteOfWord w 0, byteOfWord w 1, byteOfWord w 2]
  else if nbits ≤ 16 then
    if w % 256 ≤ 1 then .lzb ((List.range 16).map fun n => w.testBit n)
    else .rle8 [byteOfWord w 0, byteOfWord w 1]
  else if nbits ≤ 24 then
    if w ∈ [0x010000, 0x020000, 0x040000, 0x080000, 0x100000] then .geom1 (BitVec.ofNat 32 w)
    else .rle16 [byteOfWord w 0, byteOfWord w 1, byteOfWord w 2]
  else if w % 2 = 1 then .ctrl (BitVec.ofNat 32 w)
  else .geom1 (BitVec.ofNat 32 w)

/-- The instruction the decoder reads from a table word (the host's probe). -/
def decodeTableWord (nbits w : Nat) : Option Instr :=
  match decode tableWidths (tableCode nbits w) with
  | .ok (i, _) => some i
  | .error _ => none

end Sys2Proof
end

