-- ==== Sys2Proof/Machine/Constants.lean ====
section
/-! DEFINITION. Machine/Constants.lean: the codec's constants and the converter's fixed tables (00_scope.md R8, 10_state.md
R37, 43_convert.md R160 to R162). They are constants of the block, not state; the spec decides or
supplies several of them itself (log entry 18). -/

namespace Sys2Proof.Machine

/-- `RLE16_CLAMP`: the most times an RLE16 unit repeats (42_rle.md R146). -/
def rle16Clamp : Nat := 128

/-- `LZB_HDR_BYTES` (41_lzb.md R112). -/
def lzbHeaderBytes : Nat := 8

/-- `LZB_LIT_BITS` (41_lzb.md R114). -/
def lzbLiteralBits : Nat := 8

/-- `PAL1`: white, black (43_convert.md R160). -/
def pal1 : List Pixel := [0xFFFF, 0x0000]

/-- `PAL2`: black, 50% gray, 75% gray, white (43_convert.md R160). -/
def pal2 : List Pixel := [0x0000, 0x8410, 0xC618, 0xFFFF]

/-- `PAL4`: the 16 entries of 43_convert.md R160, index 7 the darker grey (90_conflicts.md C10). -/
def pal4 : List Pixel :=
  [0x0000, 0x0015, 0x0540, 0x0555, 0xA800, 0xA815, 0xAAA0, 0x52AA] ++
  [0xAD55, 0x52BF, 0x57EA, 0x57FF, 0xFAAA, 0xFABF, 0xFFEA, 0xFFFF]

/-- `R332(P)`: each channel in the top bits of its RGB565 field, zeros below (43_convert.md R161). -/
def r332 (p : Byte) : Pixel :=
  p.extractLsb' 5 3 ++ (0 : BitVec 2) ++ p.extractLsb' 2 3 ++ (0 : BitVec 3) ++ p.extractLsb' 0 2 ++ (0 : BitVec 3)

/-- `BG`: the value of a skipped pixel, black (43_convert.md R162). -/
def background : Pixel := 0x0000

end Sys2Proof.Machine
end

