-- ==== Sys2Proof/Config.lean ====
section
/-! DEFINITION. Config.lean: what the spec leaves free (opaque, so that no proof can see a value) and the one byte an
unlisted memory address reads as. The codec's numeric constants and the palettes are in Machine/Constants.lean. -/

namespace Sys2Proof

/-- The value a host read of SRC_POS, DST_POS, LZB_OSIZE or LZB_WIDTHS returns while BUSY (10_state.md R30,
93_implementation_defined.md S7: any 32-bit value). Free; log entry 3. -/
opaque Config.freeWord : Nat → Word

/-- Whether a destination byte the host reads while BUSY (20_memory.md R64, S10), or one left by a reset during a job
(70_reset_and_hazards.md R221, S13), is the value the job writes there rather than the old one. Free; log entries 4 and
5. -/
opaque Config.freeChoice : Nat → Bool

/-- The same byte of a job the spec leaves undefined (20_memory.md R58): any byte. Free; log entries 4 and 5. -/
opaque Config.freeByte : Nat → Byte

/-- What an address of ordinary memory that nothing has written reads as. DESIGN CHOICE, unsafe: the spec gives the
system memory no contents (10_state.md R20: the memory is not part of the block). Log entry 1. -/
abbrev Config.blankByte : Byte := 0

end Sys2Proof
end

