-- ==== Sys2Proof/Machine/State.lean ====
section
/-! DEFINITION. Machine/State.lean: everything the spec gives the machine, as plain data, and its value at reset.
10_state.md R20: (a) the register window, (b) the interrupt output (computed from IE and DONE, Machine/Flags.lean),
(c) the engine's internal job state; and the system memory of 20_memory.md R50, the platform's OPEN parameters, the
reset input, and the model's own fields (`before`, `inbox`, `replies`, `draws`; log entry 13). -/

namespace Sys2Proof.Machine

/-- STATUS.ERRCODE (60_exceptions.md R190; codes 6 and 7 do not exist). -/
inductive ErrCode where
  | noError
  | truncatedStream
  | outOfBounds
  | invalidBackReference
  | configInvalid
  | capacity
  deriving DecidableEq, Repr

/-- `phase` (10_state.md R35), IDLE or BUSY, with BUSY split by where the engine stands in the job's pseudocode
(40_jobs.md R90): `starting`, the START was accepted and the start checks have not run; `running`, the start checks,
the initialisation, the command checks and (LZB) the sub-header are done, and the token or pixel loop runs (DESIGN
CHOICE, log entry 9). -/
inductive Phase where
  | idle
  | starting
  | running
  deriving DecidableEq, Repr

/-- The storage of the register window, field by field (10_state.md R21, R22, R26, R28 to R30). START, BUSY and the
reserved bits have no storage here: START reads 0, BUSY reads `phase`, reserved bits read 0. -/
structure Window where
  /-- CTRL bit 1. -/
  ie : Bool
  /-- CTRL bits 6:4, write-any-read-back. -/
  op : BitVec 3
  /-- STATUS bit 1. -/
  done : Bool
  /-- STATUS bit 2. -/
  err : Bool
  /-- STATUS bits 10:8. -/
  errCode : ErrCode
  srcAddr : Word
  srcLen : Word
  dstAddr : Word
  dstLen : Word
  /-- GEOM0 bits 15:0. -/
  stride : BitVec 16
  /-- GEOM0 bits 31:16. -/
  height : BitVec 16
  /-- GEOM1 bits 15:0. -/
  width : BitVec 16
  /-- GEOM1 bits 20:16, write-any-read-back. -/
  bpp : BitVec 5
  srcPos : Word
  dstPos : Word
  lzbOsize : Word
  lzbWidths : Word
  deriving DecidableEq, Repr

/-- The engine's internal job state (10_state.md R35), with the widths given there. -/
structure Job where
  /-- `in`, the source cursor. -/
  inPos : Word
  /-- `pos`, the output position: bytes (LZB, RLE8) or units (RLE16). -/
  pos : Word
  bitbuf : Word
  /-- 0..32. -/
  bitcnt : BitVec 6
  osize : Word
  mbits : BitVec 16
  obits : BitVec 16
  x : BitVec 16
  y : BitVec 16
  deriving DecidableEq, Repr

/-- The system memory: (address, byte) pairs, addresses strictly rising, no byte equal to what an unlisted address
reads as. -/
abbrev Memory := List Host.Cell

/-- A range of bus addresses that is not ordinary memory (20_memory.md R58). -/
structure Region where
  base : Word
  size : Word
  deriving DecidableEq, Repr

/-- The OPEN parameters of 00_scope.md R8 a single block can see: REG_BASE, and which addresses are devices. No step
changes them. -/
structure Platform where
  regBase : Word
  devices : List Region
  deriving DecidableEq, Repr

/-- What the outside world does at the block's bus port and reset input, in the order it happens; the last three say
when the engine moves. -/
inductive BusEvent where
  /-- A write of `size` bytes to the register window at byte offset `off` (R21, R55; legal only as an aligned word). -/
  | regWrite (off : BitVec 6) (size : Nat) (v : Word)
  /-- A read of `size` bytes of the register window. -/
  | regRead (off : BitVec 6) (size : Nat)
  /-- The host or another agent writes one byte of memory (20_memory.md R57, R64). -/
  | memWrite (a : Word) (b : Byte)
  /-- The host reads one byte of memory. -/
  | memRead (a : Word)
  /-- Reset is asserted (70_reset_and_hazards.md R220, R221). -/
  | resetAssert
  /-- Reset is released. -/
  | resetRelease
  /-- No access: the engine makes its next move (R232: a job takes any finite time). -/
  | engineTurn
  /-- `WAITDONE` by polling (30_encoding.md R83): engine moves until STATUS.DONE = 1. -/
  | waitDone
  /-- `WAITDONE` by interrupt: engine moves until IRQ is asserted. -/
  | waitIrq
  deriving DecidableEq, Repr

/-- What a bus read returned. -/
inductive Reply where
  | word (w : Word)
  | byte (b : Byte)
  deriving DecidableEq, Repr

/-- Why the machine stops. No state a run from reset reaches raises one; both are safe (log entry 8). -/
inductive Fault where
  /-- The engine would read or write outside the job's ranges or the address space (20_memory.md R50: it never does).
  Raised by the token, pixel and fetch operations. Safe. -/
  | strayAccess
  /-- A job runs in a configuration its start checks reject (reserved OP or BPP, LZB widths outside 1..32). Raised by
  the fetch. Safe. -/
  | corruptJob
  deriving DecidableEq, Repr

/-- Why a step has no meaning in the spec. -/
inductive Refusal where
  /-- An instruction with no meaning yet; raised by exec alone. Safe. -/
  | notModelled (mnemonic : String)
  /-- A register access that is not an aligned 32-bit word (20_memory.md R55, S5). Raised by the bus events. Safe. -/
  | registerAccess
  /-- A register access while reset is asserted (70_reset_and_hazards.md R220, S6). Safe. -/
  | windowInReset
  /-- A write of a source or destination byte while BUSY (20_memory.md R64, S9). Safe. -/
  | writeDuringJob
  /-- A job whose ranges cover an address that is not ordinary memory (20_memory.md R58, S11). Raised by the four
  commands. Safe. -/
  | deviceRange
  /-- A host access to a device of the platform, whose behaviour the spec does not give. Raised by the bus events.
  Safe. -/
  | deviceAccess
  deriving DecidableEq, Repr

/-- The machine. -/
structure State where
  /-- (a) the register window. -/
  win : Window
  /-- (c) `phase`; STATUS.BUSY reads it. -/
  phase : Phase
  /-- (c) the rest of the internal job state. -/
  job : Job
  /-- The system memory. -/
  mem : Memory
  /-- The platform's OPEN parameters. -/
  platform : Platform
  /-- The reset input: true while reset is asserted (R220). -/
  inReset : Bool
  /-- The model's own: the memory at the last START, for the old values of a BUSY job's destination (20_memory.md R64,
  70_reset_and_hazards.md R221). -/
  before : Memory
  /-- The model's own: what the outside world does next, oldest first. -/
  inbox : List BusEvent
  /-- The model's own: what bus reads returned, newest first. -/
  replies : List Reply
  /-- The model's own: how many free values were drawn. -/
  draws : Nat
  deriving DecidableEq, Repr

/-- Every register of the window is 0 at reset (10_state.md R38). -/
def Window.reset : Window where
  ie := false
  op := 0
  done := false
  err := false
  errCode := .noError
  srcAddr := 0
  srcLen := 0
  dstAddr := 0
  dstLen := 0
  stride := 0
  height := 0
  width := 0
  bpp := 0
  srcPos := 0
  dstPos := 0
  lzbOsize := 0
  lzbWidths := 0

/-- The values rule R92 of 40_jobs.md initialises the internal job state to; also its value at reset, where the spec
gives none (R38; DESIGN CHOICE, log entry 2). -/
def Job.initial : Job where
  inPos := 0
  pos := 0
  bitbuf := 0
  bitcnt := 0
  osize := 0
  mbits := 0
  obits := 0
  x := 0
  y := 0

/-- The OPEN parameters' values in `State.reset` (DESIGN CHOICE, log entry 6). -/
def Platform.default : Platform where
  regBase := 0x40000000
  devices := []

/-- The machine right after reset (10_state.md R38, 70_reset_and_hazards.md R220). -/
def State.reset : State where
  win := Window.reset
  phase := .idle
  job := Job.initial
  mem := []
  platform := Platform.default
  inReset := false
  before := []
  inbox := []
  replies := []
  draws := 0

end Sys2Proof.Machine
end

