-- ==== Sys2Proof/Machine/Ops.lean ====
section
/-! DEFINITION. Machine/Ops.lean: the operations over memory and registers the meanings share: memory, the job's ranges,
named updates, starting a job, completing one (the block's only analogue of taking an exception, 60_exceptions.md R196)
and acknowledging the completion (its only analogue of a return, R197). -/

namespace Sys2Proof.Machine

/-! ### Memory (20_memory.md R50, R57) -/

/-- The byte at an address. -/
def Memory.read : Memory → Nat → Byte
  | [], _ => Config.blankByte
  | (k, v) :: t, a => if k = a then v else Memory.read t a

/-- Write one byte, keeping the canonical form: writing the blank byte removes the entry. -/
def Memory.write : Memory → Nat → Byte → Memory
  | [], a, v => if v = Config.blankByte then [] else [(a, v)]
  | (k, w) :: t, a, v =>
    if a < k then (if v = Config.blankByte then (k, w) :: t else (a, v) :: (k, w) :: t)
    else if a = k then (if v = Config.blankByte then t else (a, v) :: t)
    else (k, w) :: Memory.write t a v

/-- From address `lo` on: addresses strictly rising and inside the space, no blank byte listed. -/
def Memory.wfFrom : Nat → Memory → Bool
  | _, [] => true
  | lo, (k, v) :: t =>
    decide (lo ≤ k) && decide (k < spaceSize) && decide (v ≠ Config.blankByte) && Memory.wfFrom (k + 1) t

/-- The canonical form. -/
def Memory.wf (m : Memory) : Bool := Memory.wfFrom 0 m

/-- `n` consecutive bytes from `a`, each given by its index. -/
def Memory.fill (m : Memory) (a : Nat) (f : Nat → Byte) : Nat → Memory
  | 0 => m
  | n + 1 => (Memory.fill m a f n).write (a + n) (f n)

/-- `MemRead(addr, 4)`: four byte reads, little-endian (00_scope.md R13, R14; 20_memory.md R52). -/
def Memory.readWord (m : Memory) (a : Nat) : Word :=
  m.read (a + 3) ++ m.read (a + 2) ++ m.read (a + 1) ++ m.read a

/-- `LE16` of two bytes (00_scope.md R13). -/
def Memory.readHalf (m : Memory) (a : Nat) : BitVec 16 := m.read (a + 1) ++ m.read a

/-! ### Named updates: one field each -/

def State.withWin (s : State) (w : Window) : State := { s with win := w }
def State.withPhase (s : State) (p : Phase) : State := { s with phase := p }
def State.withJob (s : State) (j : Job) : State := { s with job := j }
def State.withMem (s : State) (m : Memory) : State := { s with mem := m }
def State.withBefore (s : State) (m : Memory) : State := { s with before := m }
def State.withInbox (s : State) (l : List BusEvent) : State := { s with inbox := l }
def State.withReplies (s : State) (l : List Reply) : State := { s with replies := l }
def State.withDraws (s : State) (n : Nat) : State := { s with draws := n }
def State.withInReset (s : State) (b : Bool) : State := { s with inReset := b }

/-- `in <- v` (10_state.md R35). -/
def State.setIn (s : State) (v : Nat) : State := s.withJob { s.job with inPos := BitVec.ofNat 32 v }
/-- `pos <- v`. -/
def State.setPos (s : State) (v : Nat) : State := s.withJob { s.job with pos := BitVec.ofNat 32 v }

/-! ### The job's operands, as naturals (00_scope.md R10) -/

@[simp] abbrev State.op (s : State) : Nat := s.win.op.toNat
@[simp] abbrev State.srcAddr (s : State) : Nat := s.win.srcAddr.toNat
@[simp] abbrev State.srcLen (s : State) : Nat := s.win.srcLen.toNat
@[simp] abbrev State.dstAddr (s : State) : Nat := s.win.dstAddr.toNat
@[simp] abbrev State.dstLen (s : State) : Nat := s.win.dstLen.toNat
@[simp] abbrev State.stride (s : State) : Nat := s.win.stride.toNat
@[simp] abbrev State.height (s : State) : Nat := s.win.height.toNat
@[simp] abbrev State.width (s : State) : Nat := s.win.width.toNat
@[simp] abbrev State.bpp (s : State) : Nat := s.win.bpp.toNat
@[simp] abbrev State.inPos (s : State) : Nat := s.job.inPos.toNat
@[simp] abbrev State.pos (s : State) : Nat := s.job.pos.toNat
@[simp] abbrev State.osize (s : State) : Nat := s.job.osize.toNat
@[simp] abbrev State.x (s : State) : Nat := s.job.x.toNat
@[simp] abbrev State.y (s : State) : Nat := s.job.y.toNat

/-- The LZB field widths as the sub-header gave them (41_lzb.md R112). -/
def State.widths (s : State) : Widths := ⟨s.job.obits.toNat, s.job.mbits.toNat⟩

/-- `units`: the 16-bit units an RLE16 job produces (42_rle.md R145). -/
def State.units (s : State) : Nat := s.dstLen / 2

/-- `Src(i)` (00_scope.md R14). -/
def State.src (s : State) (i : Nat) : Byte := s.mem.read (s.srcAddr + i)

/-- `Dst(i)`, read (00_scope.md R14). -/
def State.dst (s : State) (i : Nat) : Byte := s.mem.read (s.dstAddr + i)

/-- The source range lies in the address space (40_jobs.md R91, second check). -/
def State.srcInSpace (s : State) : Bool := decide (s.srcAddr + s.srcLen ≤ spaceSize)

/-- The destination range lies in the address space (40_jobs.md R91, third check). -/
def State.dstInSpace (s : State) : Bool := decide (s.dstAddr + s.dstLen ≤ spaceSize)

/-- Destination bytes `i .. i+n-1` are inside the destination range (00_scope.md R14: every rule writes only there)
and the range inside the address space. -/
def State.dstHolds (s : State) (i n : Nat) : Bool := s.dstInSpace && decide (i + n ≤ s.dstLen)

/-- Two ranges have an address in common; an empty range has none. -/
def rangesMeet (a n b m : Nat) : Bool := decide (0 < n) && decide (0 < m) && decide (a < b + m) && decide (b < a + n)

/-- Address `a` is one of the `n` bytes from `b`. -/
def inRange (a b n : Nat) : Bool := decide (b ≤ a) && decide (a < b + n)

/-- The bytes of the register window (10_state.md R21: 0x40 bytes at REG_BASE). -/
def windowBytes : Nat := 64

/-- A range covers the block's own window or a device of the platform (20_memory.md R58). -/
def Platform.covers (p : Platform) (a n : Nat) : Bool :=
  rangesMeet a n p.regBase.toNat windowBytes ||
    p.devices.any fun r => rangesMeet a n r.base.toNat r.size.toNat

/-- The job's ranges cover an address that is not ordinary memory (20_memory.md R58). -/
def State.coversDevice (s : State) : Bool :=
  s.platform.covers s.srcAddr s.srcLen || s.platform.covers s.dstAddr s.dstLen

/-! ### Starting a job (40_jobs.md R90 to R92) -/

/-- R90 with the IE and OP of the START write (10_state.md R23): the phase becomes BUSY, STATUS is cleared. -/
def State.latchStart (op : BitVec 3) (ie : Bool) (s : State) : State :=
  { s with
    win := { s.win with ie := ie, op := op, done := false, err := false, errCode := .noError }
    phase := .starting }

/-- The start checks of R91, in their order; true when one of them raises CONFIG_INVALID. -/
def State.startCheckFails (s : State) : Bool :=
  !(s.op == 1 || s.op == 2 || s.op == 3 || s.op == 4) ||
  !s.srcInSpace || !s.dstInSpace || rangesMeet s.srcAddr s.srcLen s.dstAddr s.dstLen

/-- R92. -/
def State.initJob (s : State) : State := s.withJob Job.initial

/-- The token or pixel loop begins. -/
def State.enterLoop (s : State) : State := s.withPhase .running

/-! ### Completing a job: `raise` and `finish` (40_jobs.md R94, 60_exceptions.md R191, R196) -/

/-- How far a job had come when it ended, which decides what R94 reports. -/
inductive Progress where
  /-- A start check of R91 failed: R92 has not run. -/
  | checked
  /-- R92 has run; for LZB the sub-header was not read. -/
  | initialised
  /-- R92 has run, and for LZB the sub-header was read. -/
  | headerRead
  deriving DecidableEq, Repr

/-- The number of destination bytes the job has written (40_jobs.md R94, R100). -/
def State.written (s : State) : Nat :=
  if s.op = 1 ∨ s.op = 2 then s.pos
  else if s.op = 3 then 2 * s.pos
  else if s.op = 4 then 2 * (s.y * s.width + s.x)
  else 0

/-- Completion with a code, R94: the result registers, then STATUS, then IDLE. -/
def State.complete (e : ErrCode) (p : Progress) (s : State) : State :=
  let streams : Bool := decide (s.op = 1 ∨ s.op = 2 ∨ s.op = 3)
  let header : Bool := decide (s.op = 1) && decide (p = .headerRead)
  { s with
    win := { s.win with
      srcPos := if streams && decide (p ≠ .checked) then s.job.inPos else 0
      dstPos := if p = .checked then 0 else BitVec.ofNat 32 s.written
      lzbOsize := if header then s.job.osize else 0
      lzbWidths := if header then s.job.obits ++ s.job.mbits else 0
      errCode := e
      err := decide (e ≠ .noError)
      done := true }
    phase := .idle }

/-- `raise E` inside the token loop (R191). -/
def State.raise (e : ErrCode) (s : State) : State := s.complete e .headerRead

/-- The host's acknowledgement (10_state.md R27, 60_exceptions.md R197): DONE and ERR become 0, ERRCODE stays. -/
def State.acknowledge (s : State) : State := s.withWin { s.win with done := false, err := false }

/-! ### The bit reader (41_lzb.md R110, 10_state.md R36) -/

/-- `takeBits(n)`: the next `n` bits as a number, the first delivered its most significant bit; `none` when the refill
would pass the end of the source (TRUNCATED_STREAM; no part of the request is delivered). -/
def State.takeBits (n : Nat) (s : State) : Option (Nat × State) :=
  let cnt := s.job.bitcnt.toNat
  if n ≤ cnt then
    some (s.job.bitbuf.toNat / 2 ^ (cnt - n) % 2 ^ n,
      s.withJob { s.job with bitcnt := BitVec.ofNat 6 (cnt - n) })
  else if s.inPos + 4 > s.srcLen then none
  else
    let hi := s.job.bitbuf.toNat % 2 ^ cnt
    let w := s.mem.readWord (s.srcAddr + s.inPos)
    let k := n - cnt
    some (hi * 2 ^ k + w.toNat / 2 ^ (32 - k),
      s.withJob { s.job with
        inPos := BitVec.ofNat 32 (s.inPos + 4)
        bitbuf := w
        bitcnt := BitVec.ofNat 6 (32 - k) })

/-- Up to `n` source bytes from the cursor on (fewer when the source ends). -/
def State.nextBytes (s : State) (n : Nat) : List Byte :=
  (List.range (min n (s.srcLen - s.inPos))).map fun j => s.src (s.inPos + j)

end Sys2Proof.Machine
end

