-- ==== Sys2Proof/Machine/Operands.lean ====
section
/-! DEFINITION. Machine/Operands.lean: how each operand form is found: repeat counts cut at the space left, the
back-reference copy, the packed pixel index, the skip rule, and the raster write. -/

namespace Sys2Proof.Machine

/-! ### LZB and RLE -/

/-- The bytes a back-reference copies: `match`, stopped early at osize (41_lzb.md R115). -/
def State.refCount (s : State) (len : Word) : Nat := min len.toNat (s.osize - s.pos)

/-- The bytes an RLE8 run writes: the count, cut at DST_LEN (42_rle.md R142). -/
def State.runCount (s : State) (count : BitVec 6) : Nat := min count.toNat (s.dstLen - s.pos)

/-- The units an RLE16 token writes: the key clamped to 128 (keys 129 to 255 are aliases of 128, 30_encoding.md R78),
cut at `units` (42_rle.md R146). -/
def State.unitCount (s : State) (k : Byte) : Nat := min (min k.toNat rle16Clamp) (s.units - s.pos)

/-- The copy of 41_lzb.md R115, R116: byte by byte in increasing order, each read seeing the bytes just written. -/
def Memory.copyBytes (m : Memory) (dst src : Nat) : Nat → Memory
  | 0 => m
  | n + 1 =>
    (Memory.copyBytes m dst src n).write (dst + n) ((Memory.copyBytes m dst src n).read (src + n))

/-- The two bytes of an RLE16 unit alternate, B0 at the lower address (20_memory.md R53). -/
def unitByte (b0 b1 : Byte) (i : Nat) : Byte := if i % 2 = 0 then b0 else b1

/-! ### The pixel converter -/

/-- `rowBytes` (43_convert.md R164). -/
def State.rowBytes (s : State) (bpp : Nat) : Nat := s.stride * bpp / 8

/-- The bit offset of pixel (x, y) in its source row (43_convert.md R164). -/
def State.pixelBit (s : State) (bpp : Nat) : Nat := s.x * bpp

/-- The source byte index of pixel (x, y) (43_convert.md R164). -/
def State.pixelByte (s : State) (bpp : Nat) : Nat := s.y * s.rowBytes bpp + s.pixelBit bpp / 8

/-- `index(i, bit)`: `bpp` bits of a source byte, MSB-first (43_convert.md R164). -/
def packedIndex (b : Byte) (bpp bit : Nat) : Nat := b.toNat / 2 ^ (8 - bpp - bit % 8) % 2 ^ bpp

/-- The skip rule: the source does not supply pixel (x, y) (43_convert.md R166). A 16 bpp pixel needs both its bytes. -/
def State.pixelSkipped (s : State) (bpp : Nat) : Bool :=
  decide (s.stride ≤ s.x) ||
  (if bpp = 16 then decide (s.srcLen ≤ s.pixelByte bpp + 1) else decide (s.srcLen ≤ s.pixelByte bpp))

/-- The destination index of pixel (x, y) (43_convert.md R163). -/
def State.rasterIndex (s : State) : Nat := 2 * (s.y * s.width + s.x)

/-- The byte of a raster pixel at offset 0 or 1: high byte first (20_memory.md R53, 43_convert.md R163). -/
def pixelHalf (v : Pixel) (i : Nat) : Byte := if i = 0 then v.extractLsb' 8 8 else v.extractLsb' 0 8

/-- The loop of 43_convert.md R165 moves on to the next pixel in row-major order. -/
def State.nextPixel (s : State) : Job :=
  if s.x + 1 < s.width then { s.job with x := BitVec.ofNat 16 (s.x + 1) }
  else { s.job with x := 0, y := BitVec.ofNat 16 (s.y + 1) }

/-- One pass of the conversion loop (43_convert.md R165) for a given depth: the pixel is the background when skipped,
else `value`; its two bytes are written and the loop moves on. -/
def State.convertPixel (s : State) (bpp : Nat) (value : Pixel) : Host.Outcome State Fault Refusal :=
  if s.srcInSpace && s.dstHolds s.rasterIndex 2 then
    .next ((s.withMem (s.mem.fill (s.dstAddr + s.rasterIndex)
      (pixelHalf (if s.pixelSkipped bpp then background else value)) 2)).withJob s.nextPixel)
  else .fault .strayAccess

end Sys2Proof.Machine
end

