-- ==== Sys2Proof/Machine/Commands.lean ====
section
/-! DEFINITION. Machine/Commands.lean: the four job commands (40_jobs.md R90 to R98). A command's meaning starts with its
START (the fields of the CTRL start word, R23 and R90; DEDUCED, log entry 17) and runs R91, R92, R93 and, for LZB, the
sub-header (41_lzb.md R112); the body of the job is then the token or pixel loop, whose every pass is an instruction of
its own (Machine/Engine.lean). -/

namespace Sys2Proof.Machine

/-- R91, then R92, then the command's own part. -/
def beginJob (s : State) (body : State → Host.Outcome State Fault Refusal) : Host.Outcome State Fault Refusal :=
  if s.startCheckFails then .next (s.complete .configInvalid .checked)
  else body s.initJob

/-- The first access to memory is next: a job over non-ordinary memory is refused (20_memory.md R58; DESIGN CHOICE of
the point, log entry 11). -/
def unlessDevice (s : State) (body : State → Host.Outcome State Fault Refusal) : Host.Outcome State Fault Refusal :=
  if s.coversDevice then .refused .deviceRange else body s

/-- R93 for a failing command check: R92 has run, nothing was read. -/
def State.rejectCommand (e : ErrCode) (s : State) : State := s.complete e .initialised

/-- The sub-header read into the internal state (41_lzb.md R112; fields little-endian, 20_memory.md R52). -/
def State.readHeader (s : State) : State :=
  s.withJob { s.job with
    osize := s.mem.readWord s.srcAddr
    mbits := s.mem.readHalf (s.srcAddr + 4)
    obits := s.mem.readHalf (s.srcAddr + 6)
    inPos := BitVec.ofNat 32 lzbHeaderBytes }

/-- The LZB sub-header and its three checks (41_lzb.md R112), on a state after R92. -/
def lzbHeader (s : State) : Host.Outcome State Fault Refusal :=
  if s.srcLen < lzbHeaderBytes then .next (s.complete .truncatedStream .initialised)
  else if s.readHeader.widths.legal = false then .next (s.readHeader.complete .configInvalid .headerRead)
  else if s.readHeader.dstLen < s.readHeader.osize then .next (s.readHeader.complete .capacity .headerRead)
  else .next s.readHeader.enterLoop

/-- The depth is one of `BPP_SET` (00_scope.md R8, 40_jobs.md R93). -/
def bppLegal (b : Nat) : Bool := b == 1 || b == 2 || b == 4 || b == 8 || b == 16

/-- The row of `BPP < 8` is not a whole number of bytes (40_jobs.md R93). -/
def State.rowUnaligned (s : State) : Bool := decide (s.bpp < 8) && decide (s.stride * s.bpp % 8 ≠ 0)

/-- `CMD.LZB` (R95). -/
def execCmdLzb (ie : Bool) (s : State) : Host.Outcome State Fault Refusal :=
  beginJob (s.latchStart 1 ie) fun s => unlessDevice s lzbHeader

/-- `CMD.RLE8` (R96): no command check. -/
def execCmdRle8 (ie : Bool) (s : State) : Host.Outcome State Fault Refusal :=
  beginJob (s.latchStart 2 ie) fun s => unlessDevice s fun s => .next s.enterLoop

/-- `CMD.RLE16` (R97): DST_LEN must be even (R93). -/
def execCmdRle16 (ie : Bool) (s : State) : Host.Outcome State Fault Refusal :=
  beginJob (s.latchStart 3 ie) fun s =>
    if s.dstLen % 2 = 1 then .next (s.rejectCommand .configInvalid)
    else unlessDevice s fun s => .next s.enterLoop

/-- `CMD.CONVERT` (R98): depth, row alignment, capacity, in this order (R93, R195). -/
def execCmdConvert (ie : Bool) (s : State) : Host.Outcome State Fault Refusal :=
  beginJob (s.latchStart 4 ie) fun s =>
    if bppLegal s.bpp = false then .next (s.rejectCommand .configInvalid)
    else if s.rowUnaligned then .next (s.rejectCommand .configInvalid)
    else if s.dstLen < s.width * s.height * 2 then .next (s.rejectCommand .capacity)
    else unlessDevice s fun s => .next s.enterLoop

end Sys2Proof.Machine
end

