-- ==== Sys2Proof/Machine/Convert.lean ====
section
/-! DEFINITION. Machine/Convert.lean: the five pixel formats (43_convert.md R167 to R172), each one pass of the loop of
R165: the skip rule of R166, the format's value, the raster write, the next pixel. -/

namespace Sys2Proof.Machine

/-- The palette entry of an indexed pixel (43_convert.md R164, R170). -/
def State.indexedPixel (s : State) (palette : List Pixel) (bpp : Nat) : Pixel :=
  palette.getD (packedIndex (s.src (s.pixelByte bpp)) bpp (s.pixelBit bpp)) background

/-- `CONV.BPP1` (R167). -/
def execConvBpp1 (s : State) : Host.Outcome State Fault Refusal := s.convertPixel 1 (s.indexedPixel pal1 1)

/-- `CONV.BPP2` (R168). -/
def execConvBpp2 (s : State) : Host.Outcome State Fault Refusal := s.convertPixel 2 (s.indexedPixel pal2 2)

/-- `CONV.BPP4` (R169). -/
def execConvBpp4 (s : State) : Host.Outcome State Fault Refusal := s.convertPixel 4 (s.indexedPixel pal4 4)

/-- `CONV.BPP8` (R171). -/
def execConvBpp8 (s : State) : Host.Outcome State Fault Refusal := s.convertPixel 8 (r332 (s.src (s.pixelByte 8)))

/-- `CONV.BPP16` (R172): the two bytes, the first the high byte. -/
def execConvBpp16 (s : State) : Host.Outcome State Fault Refusal :=
  s.convertPixel 16 (s.src (s.pixelByte 16) ++ s.src (s.pixelByte 16 + 1))

end Sys2Proof.Machine
end

