-- ==== Sys2Proof/Machine/Lzb.lean ====
section
/-! DEFINITION. Machine/Lzb.lean: the two LZB tokens (41_lzb.md R114 to R117). Their fields were read from the stream by
the fetch (Machine/Engine.lean), which raises TRUNCATED_STREAM; what is left is the token's effect. -/

namespace Sys2Proof.Machine

/-- `LIT L`: `Dst(pos) <- ~L; pos <- pos + 1` (41_lzb.md R114). -/
def execLit (l : Byte) (s : State) : Host.Outcome State Fault Refusal :=
  if s.dstHolds s.pos 1 then
    .next ((s.withMem (s.mem.write (s.dstAddr + s.pos) (~~~l))).setPos (s.pos + 1))
  else .fault .strayAccess

/-- `REF offset, match` (41_lzb.md R115): both fields are read before the offset is checked, whatever the length; the
copy then reads the bytes this job has written (R116, R117). -/
def execRef (offset len : Word) (s : State) : Host.Outcome State Fault Refusal :=
  if offset = 0 ∨ s.pos < offset.toNat then .next (s.raise .invalidBackReference)
  else if s.dstHolds s.pos (s.refCount len) then
    .next ((s.withMem (s.mem.copyBytes (s.dstAddr + s.pos) (s.dstAddr + (s.pos - offset.toNat)) (s.refCount len))).setPos
      (s.pos + s.refCount len))
  else .fault .strayAccess

end Sys2Proof.Machine
end

