-- ==== Sys2Proof/Machine/Rle.lean ====
section
/-! DEFINITION. Machine/Rle.lean: the RLE8 and RLE16 tokens (42_rle.md R141, R142, R146). Key and data bytes were read by
the fetch, which raises OUT_OF_BOUNDS. -/

namespace Sys2Proof.Machine

/-- A literal key writes its complement once (42_rle.md R141). -/
def State.putKey (s : State) (k : Byte) : Host.Outcome State Fault Refusal :=
  if s.dstHolds s.pos 1 then
    .next ((s.withMem (s.mem.write (s.dstAddr + s.pos) (~~~k))).setPos (s.pos + 1))
  else .fault .strayAccess

/-- `KLIT K`, K = `00LLLLLL`. -/
def execKlit00 (l : BitVec 6) (s : State) : Host.Outcome State Fault Refusal := s.putKey ((0 : BitVec 2) ++ l)

/-- `KLIT K`, K = `01LLLLLL`. -/
def execKlit01 (l : BitVec 6) (s : State) : Host.Outcome State Fault Refusal := s.putKey ((1 : BitVec 2) ++ l)

/-- `KLIT K`, K = `10LLLLLL`. -/
def execKlit10 (l : BitVec 6) (s : State) : Host.Outcome State Fault Refusal := s.putKey ((2 : BitVec 2) ++ l)

/-- `RUN c, D`: `~D` c times, cut at DST_LEN (42_rle.md R142). -/
def execRun (count : BitVec 6) (data : Byte) (s : State) : Host.Outcome State Fault Refusal :=
  if s.dstHolds s.pos (s.runCount count) then
    .next ((s.withMem (s.mem.fill (s.dstAddr + s.pos) (fun _ => ~~~data) (s.runCount count))).setPos
      (s.pos + s.runCount count))
  else .fault .strayAccess

/-- `UNIT K, B0, B1`: the unit B0 B1, unchanged, min(K, 128) times, cut at `units` (42_rle.md R146). -/
def execUnit (k b0 b1 : Byte) (s : State) : Host.Outcome State Fault Refusal :=
  if s.dstHolds (2 * s.pos) (2 * s.unitCount k) then
    .next ((s.withMem (s.mem.fill (s.dstAddr + 2 * s.pos) (unitByte b0 b1) (2 * s.unitCount k))).setPos
      (s.pos + s.unitCount k))
  else .fault .strayAccess

end Sys2Proof.Machine
end

