-- ==== Sys2Proof/Machine/Dispatch.lean ====
section
/-! DEFINITION. Machine/Dispatch.lean: one arm per constructor of Instr. -/

namespace Sys2Proof.Machine

def exec (i : Instr) (s : State) : Host.Outcome State Fault Refusal :=
  match i with
  -- the commands
  | .cmdLzb ie => Sys2Proof.Machine.execCmdLzb ie s
  | .cmdRle8 ie => Sys2Proof.Machine.execCmdRle8 ie s
  | .cmdRle16 ie => Sys2Proof.Machine.execCmdRle16 ie s
  | .cmdConvert ie => Sys2Proof.Machine.execCmdConvert ie s
  -- LZB tokens
  | .lit l => Sys2Proof.Machine.execLit l s
  | .ref offset len => Sys2Proof.Machine.execRef offset len s
  -- RLE8 and RLE16 tokens
  | .run count data => Sys2Proof.Machine.execRun count data s
  | .klit00 l => Sys2Proof.Machine.execKlit00 l s
  | .klit01 l => Sys2Proof.Machine.execKlit01 l s
  | .klit10 l => Sys2Proof.Machine.execKlit10 l s
  | .unit k b0 b1 => Sys2Proof.Machine.execUnit k b0 b1 s
  -- pixel formats
  | .convBpp1 => Sys2Proof.Machine.execConvBpp1 s
  | .convBpp2 => Sys2Proof.Machine.execConvBpp2 s
  | .convBpp4 => Sys2Proof.Machine.execConvBpp4 s
  | .convBpp8 => Sys2Proof.Machine.execConvBpp8 s
  | .convBpp16 => Sys2Proof.Machine.execConvBpp16 s

end Sys2Proof.Machine
end

