-- ==== Sys2Proof/Machine/Flags.lean ====
section
/-! DEFINITION. Machine/Flags.lean: the block's status bits and interrupt output, and the words the registers read as.
The block has no arithmetic flags (10_state.md R34). -/

namespace Sys2Proof.Machine

/-- The three-bit code ERRCODE holds (60_exceptions.md R190). -/
def ErrCode.code : ErrCode → BitVec 3
  | .noError => 0
  | .truncatedStream => 1
  | .outOfBounds => 2
  | .invalidBackReference => 3
  | .configInvalid => 4
  | .capacity => 5

/-- STATUS.BUSY (10_state.md R26). -/
def State.busy (s : State) : Bool := decide (s.phase ≠ .idle)

/-- `IRQ = CTRL.IE AND STATUS.DONE`, level-sensitive (10_state.md R39, 60_exceptions.md R194). -/
def State.irq (s : State) : Bool := s.win.ie && s.win.done

/-- CTRL as it reads: START and the reserved bits 0 (10_state.md R22). -/
def State.ctrlWord (s : State) : Word :=
  (0 : BitVec 25) ++ s.win.op ++ (0 : BitVec 2) ++ BitVec.ofBool s.win.ie ++ (0 : BitVec 1)

/-- STATUS as it reads (10_state.md R26). -/
def State.statusWord (s : State) : Word :=
  (0 : BitVec 21) ++ s.win.errCode.code ++ (0 : BitVec 5) ++ BitVec.ofBool s.win.err ++ BitVec.ofBool s.win.done ++
    BitVec.ofBool s.busy

/-- GEOM0: HEIGHT, STRIDE (10_state.md R29). -/
def State.geom0Word (s : State) : Word := s.win.height ++ s.win.stride

/-- GEOM1: BPP, WIDTH; bits 31:21 read 0 (10_state.md R29). -/
def State.geom1Word (s : State) : Word := (0 : BitVec 11) ++ s.win.bpp ++ s.win.width

/-- What the register at a window offset holds (10_state.md R21, R31: offsets 0x30 to 0x3C read 0). -/
def State.register (s : State) (off : BitVec 6) : Word :=
  if off = 0x00 then s.ctrlWord
  else if off = 0x04 then s.statusWord
  else if off = 0x08 then s.win.srcAddr
  else if off = 0x0C then s.win.srcLen
  else if off = 0x10 then s.win.dstAddr
  else if off = 0x14 then s.win.dstLen
  else if off = 0x18 then s.geom0Word
  else if off = 0x1C then s.geom1Word
  else if off = 0x20 then s.win.srcPos
  else if off = 0x24 then s.win.dstPos
  else if off = 0x28 then s.win.lzbOsize
  else if off = 0x2C then s.win.lzbWidths
  else 0

/-- SRC_POS, DST_POS, LZB_OSIZE and LZB_WIDTHS, which read as unspecified while BUSY (10_state.md R30). -/
def isResultOffset (off : BitVec 6) : Bool := decide (off = 0x20 ∨ off = 0x24 ∨ off = 0x28 ∨ off = 0x2C)

end Sys2Proof.Machine
end

