-- ==== Sys2Proof/Machine/Engine.lean ====
section
/-! DEFINITION. Machine/Engine.lean: the engine's moves: fetching the next instruction (the command at START, then a
token or a pixel for each pass of the job's loop), running it, ending the job; and the state a job in progress ends
in. -/

namespace Sys2Proof.Machine

/-- What a fetch finds. -/
inductive Fetched where
  /-- No job: the block waits for a START (70_reset_and_hazards.md R220). -/
  | wait
  /-- The next instruction, and the state with the stream position moved past it. -/
  | run (i : Instr) (s : State)
  /-- The job ends: `finish` (code NONE) or an error the stream or the command raises. -/
  | ended (e : ErrCode) (p : Progress) (s : State)
  /-- Only in states no run reaches. -/
  | broken (f : Fault)

/-- The command of a just accepted START: the CTRL start word it was written with. A reserved OP is the first start
check's CONFIG_INVALID (40_jobs.md R91). -/
def State.fetchCommand (s : State) : Fetched :=
  match decodeCtrl (startWord s.win.op s.win.ie) with
  | .ok i => .run i s
  | .error _ => .ended .configInvalid .checked s

/-- The next LZB token (41_lzb.md R113 to R115): the control bit, then the token's fields; a request that fails raises
TRUNCATED_STREAM with the cursor where the requests before it left it. -/
def State.fetchLzb (s : State) : Fetched :=
  if s.widths.legal = false then .broken .corruptJob
  else match s.takeBits 1 with
    | none => .ended .truncatedStream .headerRead s
    | some (c, s1) =>
      if c = 1 then
        match s1.takeBits lzbLiteralBits with
        | none => .ended .truncatedStream .headerRead s1
        | some (l, s2) => .run (.lit (BitVec.ofNat 8 l)) s2
      else
        match s1.takeBits s.widths.obits with
        | none => .ended .truncatedStream .headerRead s1
        | some (o, s2) =>
          match s2.takeBits s.widths.mbits with
          | none => .ended .truncatedStream .headerRead s2
          | some (m, s3) => .run (.ref (BitVec.ofNat 32 o) (BitVec.ofNat 32 m)) s3

/-- What an RLE decoder's answer means to the engine: a whole token moves the cursor past it; a stream that ends inside
one raises OUT_OF_BOUNDS with the cursor past what was read (42_rle.md R140, R142, R145, R146). -/
def State.fetchedBytes (s : State) (r : Except Reject (Instr × Nat)) : Fetched :=
  match r with
  | .ok (i, n) => .run i (s.setIn (s.inPos + n))
  | .error (.streamEnd n) => .ended .outOfBounds .headerRead (s.setIn (s.inPos + n))
  | .error _ => .broken .corruptJob

/-- The next RLE8 token (42_rle.md R140). -/
def State.fetchRle8 (s : State) : Fetched := s.fetchedBytes (decodeRle8 (s.nextBytes 2))

/-- The next RLE16 token (42_rle.md R145). -/
def State.fetchRle16 (s : State) : Fetched := s.fetchedBytes (decodeRle16 (s.nextBytes 3))

/-- The next pixel's format (43_convert.md R165; 30_encoding.md R80). -/
def State.fetchPixel (s : State) : Fetched :=
  match decodeGeom1 s.geom1Word with
  | .ok i => .run i s
  | .error _ => .broken .corruptJob

/-- The loop test of the running job: another pass is needed (41_lzb.md R113, 42_rle.md R140, R145, 43_convert.md
R165). -/
def State.moreToDo (s : State) : Bool :=
  if s.op = 1 then decide (s.pos < s.osize)
  else if s.op = 2 then decide (s.pos < s.dstLen)
  else if s.op = 3 then decide (s.pos < s.units)
  else decide (s.y < s.height) && decide (s.x < s.width)

/-- One pass of the running job's loop: `finish` when the loop test fails, else the next instruction. -/
def State.fetchRunning (s : State) : Fetched :=
  if s.srcInSpace = false then .broken .strayAccess
  else if s.moreToDo = false then .ended .noError .headerRead s
  else if s.op = 1 then s.fetchLzb
  else if s.op = 2 then s.fetchRle8
  else if s.op = 3 then s.fetchRle16
  else if s.op = 4 then s.fetchPixel
  else .broken .corruptJob

/-- The engine's fetch. -/
def State.fetch (s : State) : Fetched :=
  match s.phase with
  | .idle => .wait
  | .starting => s.fetchCommand
  | .running => s.fetchRunning

/-- The engine's move: run what was fetched, or end the job (40_jobs.md R94), or wait. -/
def engineMove (s : State) : Host.Outcome State Fault Refusal :=
  match s.fetch with
  | .wait => .next s
  | .run i s' => exec i s'
  | .ended e p s' => .next (s'.complete e p)
  | .broken f => .fault f

/-! ### The end of the job in progress -/

/-- More engine moves than a good job has left (40_jobs.md R99): one a bit, byte or pixel, the command and the
completion. -/
def State.moveBound (s : State) : Nat := 8 * s.srcLen + s.width * s.height + 2

/-- The state a job completes in within `n` engine moves; none where it is refused (20_memory.md R58) or, in states no
run reaches, faults. -/
def runJob : Nat → State → Option State
  | 0, _ => none
  | n + 1, s =>
    match engineMove s with
    | .next t => if t.phase = .idle then some t else runJob n t
    | .fault _ => none
    | .refused _ => none

/-- The state the BUSY job completes in, which its START has fixed (20_memory.md R65). -/
def State.jobEnd (s : State) : Option State := runJob s.moveBound (s.withInbox [])

/-- Draw `n` of the destination byte at address `a` of the BUSY job that completes in `e`: where the job writes the byte,
its old value or the one the job writes (20_memory.md R64, S10; 70_reset_and_hazards.md R221, S13; a job writes the bytes
below DST_POS, each once, 40_jobs.md R100); where it does not, the byte as it is; any byte where R58 leaves the job
undefined. Log entries 4 and 5. -/
def State.drawByte (s : State) (e : Option State) (a n : Nat) : Byte :=
  match e with
  | none => Config.freeByte n
  | some t =>
    if a < s.dstAddr + t.win.dstPos.toNat then
      (if Config.freeChoice n then t.mem.read a else s.before.read a)
    else s.mem.read a

/-! ### Placing one instruction before the engine (the host's probe) -/

/-- Where `placeCode` puts a stream and its output. -/
def probeDst : Nat := 0x1000

/-- A job of command `op` in its loop, over a source of `srcLen` bytes at 0 and a destination of `dstLen` bytes. -/
def State.probeJob (s : State) (op : BitVec 3) (srcLen dstLen : Nat) (j : Job) : State :=
  { s with
    win := { s.win with
      op := op, done := false, err := false, errCode := .noError
      srcAddr := 0, srcLen := BitVec.ofNat 32 srcLen
      dstAddr := BitVec.ofNat 32 probeDst, dstLen := BitVec.ofNat 32 dstLen }
    phase := .running
    job := j
    inReset := false
    before := s.mem
    inbox := [] }

/-- The machine with the given text where the engine fetches its next instruction from: a CTRL word as a START just
accepted, a GEOM1 word as the geometry of a one-row CONVERT job at its first pixel, a stream's text as the next bytes
of the source of a job of its command. -/
def State.placeCode (s : State) (c : Code) : State :=
  match c with
  | .ctrl w => { s.latchStart (w.extractLsb' 4 3) (w.getLsbD 1) with inReset := false, before := s.mem, inbox := [] }
  | .geom1 w =>
    let width : BitVec 16 := if w.extractLsb' 0 16 = 0 then 1 else w.extractLsb' 0 16
    let t := s.probeJob 4 0 (2 * width.toNat) Job.initial
    t.withWin { t.win with stride := 0, height := 1, width := width, bpp := w.extractLsb' 16 5 }
  | .rle8 bytes =>
    (s.probeJob 2 bytes.length 1 Job.initial).withMem (s.mem.fill 0 (fun i => bytes.getD i 0) bytes.length)
  | .rle16 bytes =>
    (s.probeJob 3 bytes.length 2 Job.initial).withMem (s.mem.fill 0 (fun i => bytes.getD i 0) bytes.length)
  | .lzb bits =>
    let w : Word := BitVec.ofNat 32 (ofBits ((bits ++ List.replicate 32 false).take 32))
    (s.probeJob 1 12 1 { Job.initial with
        inPos := 8, osize := 1
        obits := BitVec.ofNat 16 tableWidths.obits, mbits := BitVec.ofNat 16 tableWidths.mbits }).withMem
      (s.mem.fill 8 (fun i => w.extractLsb' (8 * i) 8) 4)

end Sys2Proof.Machine
end

