-- ==== Sys2Proof/Machine/Bus.lean ====
section
/-! DEFINITION. Machine/Bus.lean: what the host and other bus agents do to the block and to memory: register accesses
(10_state.md R21 to R31, R39, R40; 20_memory.md R55), memory accesses (20_memory.md R62 to R64) and the reset input
(70_reset_and_hazards.md R220, R221); and who moves next. -/

namespace Sys2Proof.Machine

/-! ### Register writes -/

/-- A write to CTRL (10_state.md R23): IE always; OP only when not BUSY; then START starts a job when not BUSY (R90). The
memory at START is kept in `before` (log entry 13). -/
def State.writeCtrl (v : Word) (s : State) : State :=
  if s.busy then s.withWin { s.win with ie := v.getLsbD 1 }
  else if v.getLsbD 0 then (s.latchStart (v.extractLsb' 4 3) (v.getLsbD 1)).withBefore s.mem
  else s.withWin { s.win with ie := v.getLsbD 1, op := v.extractLsb' 4 3 }

/-- A write to STATUS (10_state.md R27): bit 1 = 1 acknowledges the completion; every other bit is ignored. -/
def State.writeStatus (v : Word) (s : State) : State := if v.getLsbD 1 then s.acknowledge else s

/-- A write to a job parameter: ignored while BUSY (10_state.md R28, R29, R40). -/
def State.writeParam (w : Window) (s : State) : State := if s.busy then s else s.withWin w

/-- A write of an aligned word to the register at a window offset; read-only and reserved registers ignore it
(10_state.md R21, R31). -/
def State.writeRegister (off : BitVec 6) (v : Word) (s : State) : State :=
  if off = 0x00 then s.writeCtrl v
  else if off = 0x04 then s.writeStatus v
  else if off = 0x08 then s.writeParam { s.win with srcAddr := v }
  else if off = 0x0C then s.writeParam { s.win with srcLen := v }
  else if off = 0x10 then s.writeParam { s.win with dstAddr := v }
  else if off = 0x14 then s.writeParam { s.win with dstLen := v }
  else if off = 0x18 then s.writeParam { s.win with stride := v.extractLsb' 0 16, height := v.extractLsb' 16 16 }
  else if off = 0x1C then s.writeParam { s.win with width := v.extractLsb' 0 16, bpp := v.extractLsb' 16 5 }
  else s

/-- An aligned 32-bit access (20_memory.md R55). -/
def alignedWord (off : BitVec 6) (size : Nat) : Bool := decide (size = 4) && decide (off.toNat % 4 = 0)

/-- A register access is performed only outside reset (R220) and only as an aligned word (R55). -/
def State.registerAccess (s : State) (off : BitVec 6) (size : Nat) (s' : State) : Host.Outcome State Fault Refusal :=
  if s.inReset then .refused .windowInReset
  else if alignedWord off size then .next s'
  else .refused .registerAccess

/-- A reply reaches the host. -/
def State.reply (r : Reply) (s : State) : State := s.withReplies (r :: s.replies)

/-- A register read: its value, or a free one for a result register while BUSY (10_state.md R30, S7; log entry 3). -/
def State.readRegister (off : BitVec 6) (s : State) : State :=
  if s.busy && isResultOffset off then
    (s.reply (.word (Config.freeWord s.draws))).withDraws (s.draws + 1)
  else s.reply (.word (s.register off))

/-- A register write event. -/
def busRegWrite (off : BitVec 6) (size : Nat) (v : Word) (s : State) : Host.Outcome State Fault Refusal :=
  s.registerAccess off size (s.writeRegister off v)

/-- A register read event. -/
def busRegRead (off : BitVec 6) (size : Nat) (s : State) : Host.Outcome State Fault Refusal :=
  s.registerAccess off size (s.readRegister off)

/-! ### Memory accesses by the host or another agent -/

/-- The address is one of the register window's bytes. -/
def State.inWindow (s : State) (a : Nat) : Bool := inRange a s.platform.regBase.toNat windowBytes

/-- The address is one of a device's bytes. -/
def State.inDevice (s : State) (a : Nat) : Bool :=
  s.platform.devices.any fun r => inRange a r.base.toNat r.size.toNat

/-- The address is a byte of the job's source range. -/
def State.inSrc (s : State) (a : Nat) : Bool := inRange a s.srcAddr s.srcLen

/-- The address is a byte of the job's destination range. -/
def State.inDst (s : State) (a : Nat) : Bool := inRange a s.dstAddr s.dstLen

/-- A byte access to ordinary memory; to the window it would be a sub-word register access (20_memory.md R55), to a
device it is not the block's (R58); log entry 12. -/
def State.memoryAccess (s : State) (a : Nat) (r : Host.Outcome State Fault Refusal) :
    Host.Outcome State Fault Refusal :=
  if s.inWindow a then .refused .registerAccess
  else if s.inDevice a then .refused .deviceAccess
  else r

/-- A byte write; refused in the job's ranges while BUSY (20_memory.md R64). -/
def busMemWrite (a : Word) (b : Byte) (s : State) : Host.Outcome State Fault Refusal :=
  s.memoryAccess a.toNat
    (if s.busy && (s.inSrc a.toNat || s.inDst a.toNat) then .refused .writeDuringJob
     else .next (s.withMem (s.mem.write a.toNat b)))

/-- A byte read; a destination byte while BUSY reads as its old value or the value the job writes there (20_memory.md
R64, S10; log entry 4). -/
def busMemRead (a : Word) (s : State) : Host.Outcome State Fault Refusal :=
  s.memoryAccess a.toNat
    (if s.busy && s.inDst a.toNat then
       .next ((s.reply (.byte (s.drawByte s.jobEnd a.toNat s.draws))).withDraws (s.draws + 1))
     else .next (s.reply (.byte (s.mem.read a.toNat))))

/-! ### Reset -/

/-- What a reset leaves of a BUSY job's destination: each byte its old value or the value the job would have written
there (R221, S13; log entry 5). A job whose start checks fail writes no memory (40_jobs.md R91), and its destination need
not lie in the address space. -/
def State.abandonJob (s : State) : State :=
  if s.busy && !s.startCheckFails then
    (s.withMem (s.mem.fill s.dstAddr (fun i => s.drawByte s.jobEnd (s.dstAddr + i) (s.draws + i)) s.dstLen)).withDraws
      (s.draws + s.dstLen)
  else s

/-- Every piece of the block's state at its reset value (10_state.md R38). -/
def State.blockReset (s : State) : State :=
  { s with win := Window.reset, phase := .idle, job := Job.initial }

/-- Reset asserted: the job, if any, is abandoned, and the window stops responding (R220, R221; log entry 14). -/
def busResetAssert (s : State) : Host.Outcome State Fault Refusal :=
  .next (s.abandonJob.blockReset.withInReset true)

/-- Reset released: every piece of state has its reset value (R220). While reset is not asserted there is nothing to
release. -/
def busResetRelease (s : State) : Host.Outcome State Fault Refusal :=
  .next (if s.inReset then s.blockReset.withInReset false else s)

/-! ### Who moves next -/

/-- Polling for DONE (30_encoding.md R83): a register access, so refused in reset; until DONE reads 1 the engine
moves (DESIGN CHOICE, log entry 16). -/
def waitForDone (rest : List BusEvent) (s : State) : Host.Outcome State Fault Refusal :=
  if s.inReset then .refused .windowInReset
  else if s.win.done then .next (s.withInbox rest)
  else engineMove s

/-- Waiting for the completion interrupt (30_encoding.md R83, 60_exceptions.md R194). -/
def waitForIrq (rest : List BusEvent) (s : State) : Host.Outcome State Fault Refusal :=
  if s.irq then .next (s.withInbox rest) else engineMove s

/-- Who moves next is data (log entry 7): the oldest event of the inbox happens; with an empty inbox the engine moves. -/
def nextMove (s : State) : Host.Outcome State Fault Refusal :=
  match s.inbox with
  | [] => engineMove s
  | .engineTurn :: rest => engineMove (s.withInbox rest)
  | .waitDone :: rest => waitForDone rest s
  | .waitIrq :: rest => waitForIrq rest s
  | .regWrite off size v :: rest => busRegWrite off size v (s.withInbox rest)
  | .regRead off size :: rest => busRegRead off size (s.withInbox rest)
  | .memWrite a b :: rest => busMemWrite a b (s.withInbox rest)
  | .memRead a :: rest => busMemRead a (s.withInbox rest)
  | .resetAssert :: rest => busResetAssert (s.withInbox rest)
  | .resetRelease :: rest => busResetRelease (s.withInbox rest)

end Sys2Proof.Machine
end

