-- ==== Sys2Proof/Machine/Step.lean ====
section
/-! DEFINITION. Machine/Step.lean: one step of the machine, and the host's probe. -/

namespace Sys2Proof.Machine

/-- One step: the outside world's next event, or the engine's next move. -/
def step (s : State) : Host.Outcome State Fault Refusal := nextMove s

/-- The machine about to fetch a word of the opcode table (log entry 10). -/
def State.withFetchWord (s : State) (nbits w : Nat) : State := s.placeCode (tableCode nbits w)

end Sys2Proof.Machine
end

