-- ==== Sys2Proof/Safety.lean ====
section
/-! DEFINITION. Safety.lean: what a good state is, and the words the statements use: the invariant of the machine, the
frames, the bit stream a job has left, and how much work it has left. -/

namespace Sys2Proof.Machine

/-! ### The invariant -/

/-- A running LZB job (41_lzb.md R112 to R116): legal widths, osize within the capacity, the cursor past the sub-header
and inside the source, 0..32 valid bits. -/
abbrev State.LzbInv (s : State) : Prop :=
  s.widths.legal = true ∧ s.osize ≤ s.dstLen ∧ s.pos ≤ s.osize ∧ lzbHeaderBytes ≤ s.inPos ∧ s.inPos ≤ s.srcLen ∧
    s.job.bitcnt.toNat ≤ 32

/-- A running RLE8 job (42_rle.md R140). -/
abbrev State.Rle8Inv (s : State) : Prop := s.inPos ≤ s.srcLen ∧ s.pos ≤ s.dstLen

/-- A running RLE16 job (42_rle.md R145; 40_jobs.md R93). -/
abbrev State.Rle16Inv (s : State) : Prop := s.dstLen % 2 = 0 ∧ s.inPos ≤ s.srcLen ∧ s.pos ≤ s.units

/-- A running CONVERT job (43_convert.md R165; 40_jobs.md R93): the next pixel is in the raster, or the raster is
done. -/
abbrev State.ConvertInv (s : State) : Prop :=
  bppLegal s.bpp = true ∧ s.rowUnaligned = false ∧ s.width * s.height * 2 ≤ s.dstLen ∧
    s.y ≤ s.height ∧ (s.x < s.width ∨ s.x = 0) ∧ (s.y = s.height → s.x = 0)

/-- The destination bytes from index `n` on are as they were at START (40_jobs.md R100). -/
def State.unwrittenFrom (s : State) (n : Nat) : Bool :=
  decide (∀ i, i < s.dstLen → n ≤ i → s.before.read (s.dstAddr + i) = s.dst i)

/-- A running job passed its checks, its position is where its loop can be, and the destination bytes it has not written
are the old ones. -/
abbrev State.JobInv (s : State) : Prop :=
  s.startCheckFails = false ∧ s.coversDevice = false ∧ s.unwrittenFrom s.written = true ∧
    (s.op = 1 → s.LzbInv) ∧ (s.op = 2 → s.Rle8Inv) ∧ (s.op = 3 → s.Rle16Inv) ∧ (s.op = 4 → s.ConvertInv)

/-- The invariant of the machine: memory canonical; BUSY implies DONE = ERR = 0 and ERRCODE = 0, and ERR implies DONE
and a code (10_state.md R26); no job in reset (70_reset_and_hazards.md R220); a job just started has written nothing; a
running job is a good one. -/
abbrev State.Inv (s : State) : Prop :=
  s.mem.wf = true ∧
    (s.busy = true → s.win.done = false ∧ s.win.err = false ∧ s.win.errCode = .noError) ∧
    (s.win.err = true → s.win.done = true ∧ s.win.errCode ≠ .noError) ∧
    (s.inReset = true → s.phase = .idle) ∧
    (s.phase = .starting → s.unwrittenFrom 0 = true) ∧ (s.phase = .running → s.JobInv)

/-! ### Frames -/

/-- `t` has the same registers, phase, platform, reset input, inbox, replies, draws and kept memory as `s`: only the internal job
state and memory may differ. -/
abbrev SameBlock (s t : State) : Prop :=
  t.win = s.win ∧ t.phase = s.phase ∧ t.platform = s.platform ∧ t.inReset = s.inReset ∧ t.inbox = s.inbox ∧
    t.replies = s.replies ∧ t.draws = s.draws ∧ t.before = s.before

/-- `t` has the same platform, reset input, inbox, replies, draws and kept memory as `s`. -/
abbrev SameWorld (s t : State) : Prop :=
  t.platform = s.platform ∧ t.inReset = s.inReset ∧ t.inbox = s.inbox ∧ t.replies = s.replies ∧ t.draws = s.draws ∧
    t.before = s.before

/-- Every byte of memory outside the `n` bytes from `a` reads as before. -/
def SameMemoryOutside (s t : State) (a n : Nat) : Prop :=
  ∀ b, ¬(a ≤ b ∧ b < a + n) → t.mem.read b = s.mem.read b

/-- Every byte of memory reads as before. -/
def SameMemory (s t : State) : Prop := ∀ b, t.mem.read b = s.mem.read b

/-! ### A job's stream and the work it has left -/

/-- The bits an LZB job has left: the valid bits of the bit reader, then the whole code words from the cursor on, bit 31
first (10_state.md R36, 41_lzb.md R111). -/
def State.streamBits (s : State) : List Bool :=
  bitsOf s.job.bitcnt.toNat s.job.bitbuf.toNat ++
    (List.range ((s.srcLen - s.inPos) / 4)).flatMap fun j =>
      bitsOf 32 (s.mem.readWord (s.srcAddr + s.inPos + 4 * j)).toNat

/-- A bound on the passes a running job's loop still makes (40_jobs.md R99): an LZB token takes at least one bit, an RLE
token one source byte, a pixel is one of WIDTH*HEIGHT. -/
def State.workLeft (s : State) : Nat :=
  if s.op = 1 then s.streamBits.length
  else if s.op = 2 ∨ s.op = 3 then s.srcLen - s.inPos
  else s.height * s.width - (s.y * s.width + s.x)

/-! ### The rules' own words -/

/-- The three range checks of 40_jobs.md R91 pass. -/
abbrev State.RangesPass (s : State) : Prop :=
  s.srcAddr + s.srcLen ≤ spaceSize ∧ s.dstAddr + s.dstLen ≤ spaceSize ∧
    ¬(0 < s.srcLen ∧ 0 < s.dstLen ∧ s.srcAddr < s.dstAddr + s.dstLen ∧ s.dstAddr < s.srcAddr + s.srcLen)

/-- The registers after a completion that reports the given values (40_jobs.md R94). -/
def State.reported (s : State) (e : ErrCode) (srcPos dstPos osize widths : Word) : Window :=
  { s.win with
    srcPos := srcPos, dstPos := dstPos, lzbOsize := osize, lzbWidths := widths
    errCode := e, err := decide (e ≠ .noError), done := true }

/-- The registers after a START with the given OP and IE (40_jobs.md R90, 10_state.md R23). -/
def State.startedWin (s : State) (op : BitVec 3) (ie : Bool) : Window :=
  { s.win with op := op, ie := ie, done := false, err := false, errCode := .noError }

/-- A running job with nothing of the outside world before the engine's next move. -/
abbrev State.AtLoop (s : State) (op : Nat) : Prop := s.phase = .running ∧ s.inbox = [] ∧ s.op = op

/-- A running LZB job about to read its next token (41_lzb.md R113). -/
abbrev State.AtLzbToken (s : State) : Prop :=
  s.AtLoop 1 ∧ s.srcInSpace = true ∧ s.pos < s.osize ∧ s.widths.legal = true ∧ s.job.bitcnt.toNat ≤ 32

/-- The step ends the LZB job with TRUNCATED_STREAM, reporting the cursor as the requests before the failing one left it
in `s'`; nothing is written and pos is unchanged (41_lzb.md R110, R114, R115). -/
def TruncatedAt (s s' : State) : Prop :=
  ∃ t, step s = .next t ∧ t.phase = .idle ∧ t.mem = s.mem ∧ t.job.pos = s.job.pos ∧ SameWorld s t ∧
    t.win = s.reported .truncatedStream s'.job.inPos s.job.pos s.job.osize (s.job.obits ++ s.job.mbits)

/-- The pixel (x, y) of a CONVERT job, by 43_convert.md R160 to R172 read for given coordinates. -/
def State.pixelAt (s : State) (x y : Nat) : Pixel :=
  let i := y * (s.stride * s.bpp / 8) + x * s.bpp / 8
  if s.stride ≤ x then 0x0000
  else if s.bpp = 16 then (if s.srcLen ≤ i + 1 then 0x0000 else s.src i ++ s.src (i + 1))
  else if s.srcLen ≤ i then 0x0000
  else if s.bpp = 8 then r332 (s.src i)
  else if s.bpp = 4 then
    pal4.getD (if x % 2 = 0 then (s.src i).toNat / 16 else (s.src i).toNat % 16) 0x0000
  else if s.bpp = 2 then pal2.getD ((s.src i).toNat / 4 ^ (3 - x % 4) % 4) 0x0000
  else if (s.src i).getLsbD (7 - x % 8) then 0x0000 else 0xFFFF

/-- One pass of the conversion loop (43_convert.md R163, R165): the pixel's two bytes stand high byte first at its raster
index, nothing else in memory changed, and the loop is at the next pixel in row-major order. -/
def PixelWritten (s t : State) (v : Pixel) : Prop :=
  t.dst (2 * (s.y * s.width + s.x)) = v.extractLsb' 8 8 ∧
    t.dst (2 * (s.y * s.width + s.x) + 1) = v.extractLsb' 0 8 ∧
    SameMemoryOutside s t (s.dstAddr + 2 * (s.y * s.width + s.x)) 2 ∧
    (if s.x + 1 < s.width then t.x = s.x + 1 ∧ t.y = s.y else t.x = 0 ∧ t.y = s.y + 1) ∧
    t.job = { s.job with x := t.job.x, y := t.job.y } ∧ SameBlock s t

/-- A CONVERT job at a pixel of its raster. -/
abbrev State.AtPixel (s : State) : Prop :=
  s.mem.wf = true ∧ s.srcInSpace = true ∧ s.dstInSpace = true ∧ s.x < s.width ∧ s.y < s.height ∧
    s.width * s.height * 2 ≤ s.dstLen

end Sys2Proof.Machine
end

