-- ==== Sys2Proof/Certificates/Slice0/Obligations.lean ====
section
/-! DEFINITION. Certificates/Slice0/Obligations.lean: the statements for the provers. -/

open Sys2Proof Sys2Proof.Machine

/-! ## Encodings -/

/-- Decoding the encoding of a well-formed instruction, with anything after it in its stream, gives the instruction and
its size (30_encoding.md R70 to R80). -/
def Obligations.DecodeOfEncodeGivesTheInstruction : Prop :=
  ∀ (w : Widths) (i : Instr) (bits : List Bool) (bytes : List Byte), i.wellFormed w = true →
    decode w ((encode w i).followedBy bits bytes) = .ok (i, i.size w)

/-- A stream text that decodes is the encoding of what it decodes to: no bit of a token is dropped or read twice
(30_encoding.md R73 to R79). -/
def Obligations.StreamTokensDetermineTheirText : Prop :=
  (∀ (w : Widths) (bits : List Bool) (i : Instr) (n : Nat), decode w (.lzb bits) = .ok (i, n) →
    i.wellFormed w = true ∧ n = i.size w ∧ n ≤ bits.length ∧ encode w i = .lzb (bits.take n)) ∧
  (∀ (w : Widths) (bytes : List Byte) (i : Instr) (n : Nat), decode w (.rle8 bytes) = .ok (i, n) →
    i.wellFormed w = true ∧ n = i.size w ∧ n ≤ bytes.length ∧ encode w i = .rle8 (bytes.take n)) ∧
  (∀ (w : Widths) (bytes : List Byte) (i : Instr) (n : Nat), decode w (.rle16 bytes) = .ok (i, n) →
    i.wellFormed w = true ∧ n = i.size w ∧ n ≤ bytes.length ∧ encode w i = .rle16 (bytes.take n))

/-- One word of each encoding space, written out from the spec's patterns, decodes to its instruction (sanity). -/
def Obligations.SpecWordsDecode : Prop :=
  decode ⟨4, 4⟩ (.ctrl 0x11) = .ok (.cmdLzb false, 1) ∧
  decode ⟨4, 4⟩ (.ctrl 0x43) = .ok (.cmdConvert true, 1) ∧
  decode ⟨4, 4⟩ (.lzb [true, true, false, true, true, true, true, true, false]) = .ok (.lit 0xBE, 9) ∧
  decode ⟨4, 4⟩ (.lzb [false, false, false, false, true, false, false, true, true]) = .ok (.ref 1 3, 9) ∧
  decode ⟨4, 4⟩ (.rle8 [0xC5, 0xAA]) = .ok (.run 5 0xAA, 2) ∧
  decode ⟨4, 4⟩ (.rle8 [0x7F]) = .ok (.klit01 0x3F, 1) ∧
  decode ⟨4, 4⟩ (.rle16 [0x03, 0x12, 0x34]) = .ok (.unit 3 0x12 0x34, 3) ∧
  decode ⟨4, 4⟩ (.geom1 0x00080002) = .ok (.convBpp8, 1)

/-- R71 with R70: a CTRL word starts command OP exactly when it matches `0x01 | OP << 4` under mask 0x71, whatever its
reserved bits; every other START word is rejected. -/
def Obligations.CtrlWordsDecodeUnderTheirMask : Prop :=
  ∀ v : Word,
    (v &&& 0x71 = 0x11 → decodeCtrl v = .ok (.cmdLzb (v.getLsbD 1))) ∧
    (v &&& 0x71 = 0x21 → decodeCtrl v = .ok (.cmdRle8 (v.getLsbD 1))) ∧
    (v &&& 0x71 = 0x31 → decodeCtrl v = .ok (.cmdRle16 (v.getLsbD 1))) ∧
    (v &&& 0x71 = 0x41 → decodeCtrl v = .ok (.cmdConvert (v.getLsbD 1))) ∧
    (∀ i, decodeCtrl v = .ok i → v &&& 0x71 ∈ [(0x11 : Word), 0x21, 0x31, 0x41])

/-- R77, R78 and R79: every RLE8 key is legal and alone fixes the token and its length; an RLE16 token is always three
bytes. -/
def Obligations.RleTokensFollowTheirKey : Prop :=
  (∀ (k d : Byte) (rest : List Byte),
    (0xC0 ≤ k.toNat → decodeRle8 (k :: d :: rest) = .ok (.run (BitVec.ofNat 6 (k.toNat - 0xC0)) d, 2)) ∧
    (k.toNat < 0x40 → decodeRle8 (k :: rest) = .ok (.klit00 (BitVec.ofNat 6 k.toNat), 1)) ∧
    (0x40 ≤ k.toNat → k.toNat < 0x80 → decodeRle8 (k :: rest) = .ok (.klit01 (BitVec.ofNat 6 (k.toNat - 0x40)), 1)) ∧
    (0x80 ≤ k.toNat → k.toNat < 0xC0 → decodeRle8 (k :: rest) = .ok (.klit10 (BitVec.ofNat 6 (k.toNat - 0x80)), 1))) ∧
  (∀ (k b0 b1 : Byte) (rest : List Byte), decodeRle16 (k :: b0 :: b1 :: rest) = .ok (.unit k b0 b1, 3))

/-! ## The bit reader -/

/-- R111: `takeBits` delivers the stream in order, MSB first, across every word boundary, and fails exactly when the
stream has fewer bits left; from the start of a job the stream is the code words, bit 31 of word 0 first. -/
def Obligations.TakeBitsDeliversTheStream : Prop :=
  (∀ (n : Nat) (s : State), 1 ≤ n → n ≤ 32 → s.job.bitcnt.toNat ≤ 32 → s.inPos ≤ s.srcLen →
    (s.streamBits.length < n → s.takeBits n = none) ∧
    (n ≤ s.streamBits.length → ∃ s', s.takeBits n = some (ofBits (s.streamBits.take n), s') ∧
      s'.streamBits = s.streamBits.drop n ∧ s'.mem = s.mem ∧ SameBlock s s' ∧ s'.job.bitcnt.toNat ≤ 32 ∧
      s'.inPos ≤ s.srcLen ∧
      s'.job = { s.job with inPos := s'.job.inPos, bitbuf := s'.job.bitbuf, bitcnt := s'.job.bitcnt })) ∧
  (∀ (s : State) (b : Nat), s.job.bitcnt = 0 → s.inPos = 8 → 8 ≤ s.srcLen → b < 32 * ((s.srcLen - 8) / 4) →
    s.streamBits[b]? = some ((s.mem.readWord (s.srcAddr + 8 + 4 * (b / 32))).getLsbD (31 - b % 32))) ∧
  (∀ (s : State), s.job.bitcnt = 0 → s.inPos = 8 → s.streamBits.length = 32 * ((s.srcLen - 8) / 4))

/-- R110's corner cases: one call refills at most once, a request for exactly the bits left does not refill, an empty
reader refills first, and a request that cannot be met is refused exactly when a refill would pass the end. -/
def Obligations.TakeBitsRefillsAtMostOnce : Prop :=
  ∀ (n : Nat) (s : State), 1 ≤ n → n ≤ 32 → s.job.bitcnt.toNat ≤ 32 →
    (s.takeBits n = none ↔ s.job.bitcnt.toNat < n ∧ s.srcLen < s.inPos + 4) ∧
    (∀ v s', s.takeBits n = some (v, s') → v < 2 ^ n ∧
      (n ≤ s.job.bitcnt.toNat → s'.inPos = s.inPos ∧ s'.job.bitcnt.toNat = s.job.bitcnt.toNat - n) ∧
      (s.job.bitcnt.toNat < n → s'.inPos = s.inPos + 4 ∧ s'.job.bitcnt.toNat + n = s.job.bitcnt.toNat + 32))

/-! ## Tokens -/

/-- R114: after a control bit 1 the next 8 bits are a literal's field; LIT stores its complement and moves pos on; a
literal cut by the end of the source writes nothing and raises TRUNCATED_STREAM. -/
def Obligations.LiteralStoresItsComplement : Prop :=
  (∀ (l : Byte) (s : State), s.mem.wf = true → s.dstInSpace = true → s.pos < s.dstLen →
    ∃ t, exec (.lit l) s = .next t ∧ t.dst s.pos = ~~~l ∧ t.pos = s.pos + 1 ∧
      SameMemoryOutside s t (s.dstAddr + s.pos) 1 ∧ SameBlock s t ∧ t.job = { s.job with pos := t.job.pos }) ∧
  (∀ (s s1 s2 : State) (l : Nat), s.AtLzbToken → s.takeBits 1 = some (1, s1) → s1.takeBits 8 = some (l, s2) →
    l < 2 ^ 8 ∧ step s = exec (.lit (BitVec.ofNat 8 l)) s2) ∧
  (∀ s s1 : State, s.AtLzbToken → s.takeBits 1 = some (1, s1) → s1.takeBits 8 = none → TruncatedAt s s1)

/-- R115 (its copy in the closed form of R116): after a control bit 0 come the offset and the match field; a
back-reference to bytes already written copies min(match, osize - pos) bytes, the last `offset` bytes repeated; with
offset 0 or beyond pos it raises INVALID_BACK_REFERENCE whatever match is, writing nothing; either field cut by the end of
the source raises TRUNCATED_STREAM, writing nothing. -/
def Obligations.BackReferenceRepeatsTheWindow : Prop :=
  (∀ (o m : Word) (s : State), s.mem.wf = true → s.dstInSpace = true → s.osize ≤ s.dstLen → s.pos ≤ s.osize →
    0 < o.toNat → o.toNat ≤ s.pos →
    ∃ t, exec (.ref o m) s = .next t ∧ t.pos = s.pos + min m.toNat (s.osize - s.pos) ∧
      (∀ i, i < min m.toNat (s.osize - s.pos) → t.dst (s.pos + i) = s.dst (s.pos - o.toNat + i % o.toNat)) ∧
      SameMemoryOutside s t (s.dstAddr + s.pos) (min m.toNat (s.osize - s.pos)) ∧
      SameBlock s t ∧ t.job = { s.job with pos := t.job.pos }) ∧
  (∀ (o m : Word) (s : State), s.op = 1 → (o.toNat = 0 ∨ s.pos < o.toNat) →
    ∃ t, exec (.ref o m) s = .next t ∧ t.phase = .idle ∧ t.mem = s.mem ∧ t.job = s.job ∧ SameWorld s t ∧
      t.win = s.reported .invalidBackReference s.job.inPos s.job.pos s.job.osize (s.job.obits ++ s.job.mbits)) ∧
  (∀ (s s1 s2 s3 : State) (o m : Nat), s.AtLzbToken → s.takeBits 1 = some (0, s1) →
    s1.takeBits s.widths.obits = some (o, s2) → s2.takeBits s.widths.mbits = some (m, s3) →
    o < 2 ^ 32 ∧ m < 2 ^ 32 ∧ step s = exec (.ref (BitVec.ofNat 32 o) (BitVec.ofNat 32 m)) s3) ∧
  (∀ s s1 : State, s.AtLzbToken → s.takeBits 1 = some (0, s1) → s1.takeBits s.widths.obits = none →
    TruncatedAt s s1) ∧
  (∀ (s s1 s2 : State) (o : Nat), s.AtLzbToken → s.takeBits 1 = some (0, s1) →
    s1.takeBits s.widths.obits = some (o, s2) → s2.takeBits s.widths.mbits = none → TruncatedAt s s2)

/-- R141: a byte below 0xC0 is one of the three literal keys, alone; it stores the complement of the whole key byte and
moves pos on. -/
def Obligations.LiteralKeysStoreTheirComplement : Prop :=
  ∀ (l : BitVec 6) (i : Instr) (k : Nat) (s : State),
    (i, k) ∈ [(Instr.klit00 l, l.toNat), (Instr.klit01 l, 0x40 + l.toNat), (Instr.klit10 l, 0x80 + l.toNat)] →
    (∀ rest, decode s.widths (.rle8 (BitVec.ofNat 8 k :: rest)) = .ok (i, 1)) ∧
    (s.mem.wf = true → s.dstInSpace = true → s.pos < s.dstLen →
      ∃ t, exec i s = .next t ∧ (t.dst s.pos).toNat = 0xFF - k ∧ t.pos = s.pos + 1 ∧
        SameMemoryOutside s t (s.dstAddr + s.pos) 1 ∧ SameBlock s t ∧ t.job = { s.job with pos := t.job.pos })

/-- R142: a key of 0xC0 or more is a run, its count the key's low six bits and its data the next byte; a run stores the
complement of its data byte `count` times, cut at DST_LEN; a run whose data byte is missing raises OUT_OF_BOUNDS with the
cursor at SRC_LEN, writing nothing. -/
def Obligations.RunRepeatsTheComplement : Prop :=
  (∀ (c : BitVec 6) (d : Byte) (s : State), s.mem.wf = true → s.dstInSpace = true → s.pos ≤ s.dstLen →
    ∃ t, exec (.run c d) s = .next t ∧ t.pos = s.pos + min c.toNat (s.dstLen - s.pos) ∧
      (∀ i, i < min c.toNat (s.dstLen - s.pos) → t.dst (s.pos + i) = ~~~d) ∧
      SameMemoryOutside s t (s.dstAddr + s.pos) (min c.toNat (s.dstLen - s.pos)) ∧
      SameBlock s t ∧ t.job = { s.job with pos := t.job.pos }) ∧
  (∀ s : State, s.AtLoop 2 → s.srcInSpace = true → s.pos < s.dstLen → s.inPos + 2 ≤ s.srcLen →
    0xC0 ≤ (s.src s.inPos).toNat →
    step s = exec (.run (BitVec.ofNat 6 ((s.src s.inPos).toNat - 0xC0)) (s.src (s.inPos + 1)))
      (s.setIn (s.inPos + 2))) ∧
  (∀ s : State, s.AtLoop 2 → s.srcInSpace = true → s.pos < s.dstLen → s.inPos + 1 = s.srcLen →
    0xC0 ≤ (s.src s.inPos).toNat →
    ∃ t, step s = .next t ∧ t.phase = .idle ∧ t.mem = s.mem ∧ SameWorld s t ∧
      t.win = s.reported .outOfBounds s.win.srcLen s.job.pos 0 0)

/-- R146: a unit is a key and two data bytes; it is stored min(K, 128) times, cut at DST_LEN/2, its two bytes in their
order and unchanged; with fewer than two data bytes left it raises OUT_OF_BOUNDS with the cursor just after the key,
writing nothing. -/
def Obligations.UnitRepeatsItsTwoBytes : Prop :=
  (∀ (k b0 b1 : Byte) (s : State), s.mem.wf = true → s.dstInSpace = true → s.pos ≤ s.units →
    ∃ t, exec (.unit k b0 b1) s = .next t ∧ t.pos = s.pos + min (min k.toNat 128) (s.units - s.pos) ∧
      (∀ i, i < min (min k.toNat 128) (s.units - s.pos) →
        t.dst (2 * (s.pos + i)) = b0 ∧ t.dst (2 * (s.pos + i) + 1) = b1) ∧
      SameMemoryOutside s t (s.dstAddr + 2 * s.pos) (2 * min (min k.toNat 128) (s.units - s.pos)) ∧
      SameBlock s t ∧ t.job = { s.job with pos := t.job.pos }) ∧
  (∀ s : State, s.AtLoop 3 → s.srcInSpace = true → s.pos < s.units → s.inPos + 3 ≤ s.srcLen →
    step s = exec (.unit (s.src s.inPos) (s.src (s.inPos + 1)) (s.src (s.inPos + 2))) (s.setIn (s.inPos + 3))) ∧
  (∀ s : State, s.AtLoop 3 → s.srcInSpace = true → s.pos < s.units → s.inPos < s.srcLen → s.srcLen < s.inPos + 3 →
    ∃ t, step s = .next t ∧ t.phase = .idle ∧ t.mem = s.mem ∧ SameWorld s t ∧
      t.win = s.reported .outOfBounds (BitVec.ofNat 32 (s.inPos + 1)) (BitVec.ofNat 32 (2 * s.pos)) 0 0)

/-- A token whose bytes would pass the destination range stops as a stray access (log entry 8: no state a run reaches is
one; the model's choice, not a rule). -/
def Obligations.StoresOutsideTheDestinationFault : Prop :=
  (∀ (l : Byte) (s : State), s.dstHolds s.pos 1 = false → exec (.lit l) s = .fault .strayAccess) ∧
  (∀ (l : BitVec 6) (i : Instr) (s : State), i ∈ [Instr.klit00 l, Instr.klit01 l, Instr.klit10 l] →
    s.dstHolds s.pos 1 = false → exec i s = .fault .strayAccess) ∧
  (∀ (c : BitVec 6) (d : Byte) (s : State), s.dstHolds s.pos (min c.toNat (s.dstLen - s.pos)) = false →
    exec (.run c d) s = .fault .strayAccess) ∧
  (∀ (k b0 b1 : Byte) (s : State), s.dstHolds (2 * s.pos) (2 * min (min k.toNat 128) (s.units - s.pos)) = false →
    exec (.unit k b0 b1) s = .fault .strayAccess) ∧
  (∀ (o m : Word) (s : State), 0 < o.toNat → o.toNat ≤ s.pos →
    s.dstHolds s.pos (min m.toNat (s.osize - s.pos)) = false → exec (.ref o m) s = .fault .strayAccess) ∧
  (∀ (i : Instr) (s : State), i ∈ [Instr.convBpp1, Instr.convBpp2, Instr.convBpp4, Instr.convBpp8, Instr.convBpp16] →
    (s.srcInSpace = false ∨ s.dstHolds (2 * (s.y * s.width + s.x)) 2 = false) → exec i s = .fault .strayAccess)

/-! ## Pixels -/

/-- R167: a 1 bpp pixel the source supplies is white for a 0 bit and black for a 1 bit, first pixel in bit 7. -/
def Obligations.OneBitPixelsAreWhiteOrBlack : Prop :=
  ∀ s : State, s.AtPixel → s.x < s.stride → s.y * (s.stride / 8) + s.x / 8 < s.srcLen →
    ∃ t, exec .convBpp1 s = .next t ∧
      PixelWritten s t (if (s.src (s.y * (s.stride / 8) + s.x / 8)).getLsbD (7 - s.x % 8) then 0x0000 else 0xFFFF)

/-- R168: a 2 bpp pixel the source supplies is the PAL2 entry of its two bits, first pixel in bits 7:6. -/
def Obligations.TwoBitPixelsAreGreys : Prop :=
  ∀ s : State, s.AtPixel → s.x < s.stride → s.y * (s.stride * 2 / 8) + s.x * 2 / 8 < s.srcLen →
    ∃ t v, exec .convBpp2 s = .next t ∧ PixelWritten s t v ∧
      ([0x0000, 0x8410, 0xC618, 0xFFFF] : List Pixel)[(s.src (s.y * (s.stride * 2 / 8) + s.x * 2 / 8)).toNat /
        2 ^ (6 - 2 * (s.x % 4)) % 4]? = some v

/-- R169 with R160: a 4 bpp pixel the source supplies is the PAL4 entry of its nibble, the high nibble for even x. The
sixteen values are those of R160's table, which the spec itself decides (D24) from general knowledge of the EGA colours;
log entry 18, PRESUMED. -/
def Obligations.FourBitPixelsAreEgaColours : Prop :=
  ∀ s : State, s.AtPixel → s.x < s.stride → s.y * (s.stride * 4 / 8) + s.x * 4 / 8 < s.srcLen →
    ∃ t v, exec .convBpp4 s = .next t ∧ PixelWritten s t v ∧
      ([0x0000, 0x0015, 0x0540, 0x0555, 0xA800, 0xA815, 0xAAA0, 0x52AA, 0xAD55, 0x52BF, 0x57EA, 0x57FF, 0xFAAA,
        0xFABF, 0xFFEA, 0xFFFF] : List Pixel)[if s.x % 2 = 0
          then (s.src (s.y * (s.stride * 4 / 8) + s.x * 4 / 8)).toNat / 16
          else (s.src (s.y * (s.stride * 4 / 8) + s.x * 4 / 8)).toNat % 16]? = some v

/-- R171 with R161: an 8 bpp pixel the source supplies is `R332(P)`, each channel in the top bits of its field. -/
def Obligations.ByteColourPixelsExpandByPlacement : Prop :=
  ∀ s : State, s.AtPixel → s.x < s.stride → s.y * s.stride + s.x < s.srcLen →
    ∃ t v, exec .convBpp8 s = .next t ∧ PixelWritten s t v ∧
      v.toNat = (s.src (s.y * s.stride + s.x)).toNat / 32 * 2 ^ 13 +
        (s.src (s.y * s.stride + s.x)).toNat / 4 % 8 * 2 ^ 8 + (s.src (s.y * s.stride + s.x)).toNat % 4 * 2 ^ 3

/-- R172: a 16 bpp pixel the source supplies in full is copied through, its two bytes in their order. -/
def Obligations.DirectColourPixelsAreCopied : Prop :=
  ∀ s : State, s.AtPixel → s.x < s.stride → s.y * (2 * s.stride) + 2 * s.x + 1 < s.srcLen →
    ∃ t v, exec .convBpp16 s = .next t ∧ PixelWritten s t v ∧
      t.dst (2 * (s.y * s.width + s.x)) = s.src (s.y * (2 * s.stride) + 2 * s.x) ∧
      t.dst (2 * (s.y * s.width + s.x) + 1) = s.src (s.y * (2 * s.stride) + 2 * s.x + 1)

/-- R166 with R162: a pixel beyond the source columns, or whose byte (for 16 bpp: either byte) is beyond the source,
completes with the background 0x0000 written; no error. -/
def Obligations.SkippedPixelsAreBackground : Prop :=
  ∀ (s : State) (i : Instr) (bpp : Nat),
    (i, bpp) ∈ [(Instr.convBpp1, 1), (Instr.convBpp2, 2), (Instr.convBpp4, 4), (Instr.convBpp8, 8),
      (Instr.convBpp16, 16)] →
    s.AtPixel →
    (s.stride ≤ s.x ∨ s.srcLen ≤ s.y * (s.stride * bpp / 8) + s.x * bpp / 8 ∨
      (bpp = 16 ∧ s.srcLen ≤ s.y * (s.stride * bpp / 8) + s.x * bpp / 8 + 1)) →
    ∃ t, exec i s = .next t ∧ PixelWritten s t 0x0000

/-! ## Commands -/

/-- RLE8, RLE16 and CONVERT jobs that pass their checks enter their loop with the internal state initialised and nothing
else changed (R90, R92, R96 to R98). -/
def Obligations.CheckedCommandsEnterTheirLoop : Prop :=
  ∀ (ie : Bool) (s : State), s.RangesPass → s.coversDevice = false →
    exec (.cmdRle8 ie) s = .next { s with win := s.startedWin 2 ie, phase := .running, job := Job.initial } ∧
    (s.dstLen % 2 = 0 →
      exec (.cmdRle16 ie) s = .next { s with win := s.startedWin 3 ie, phase := .running, job := Job.initial }) ∧
    (s.bpp ∈ [1, 2, 4, 8, 16] → (s.bpp < 8 → s.stride * s.bpp % 8 = 0) → s.width * s.height * 2 ≤ s.dstLen →
      exec (.cmdConvert ie) s = .next { s with win := s.startedWin 4 ie, phase := .running, job := Job.initial })

/-- R112: the LZB sub-header. A source below 8 bytes raises TRUNCATED_STREAM with SRC_POS 0; else osize, matchBits and
offsetBits are read little-endian, in this order CONFIG_INVALID for a width outside 1..32, CAPACITY for osize over
DST_LEN, both with SRC_POS 8 and the header values reported, else the token loop begins at byte 8. -/
def Obligations.LzbHeaderIsReadAndChecked : Prop :=
  ∀ (ie : Bool) (s : State), s.RangesPass → s.coversDevice = false →
    (s.srcLen < 8 → exec (.cmdLzb ie) s = .next { s with
      win := { s.startedWin 1 ie with
        srcPos := 0, dstPos := 0, lzbOsize := 0, lzbWidths := 0, errCode := .truncatedStream, err := true, done := true }
      phase := .idle, job := Job.initial }) ∧
    (8 ≤ s.srcLen → ∃ (osize : Word) (mbits obits : BitVec 16),
      osize.toNat = (s.src 0).toNat + (s.src 1).toNat * 2 ^ 8 + (s.src 2).toNat * 2 ^ 16 + (s.src 3).toNat * 2 ^ 24 ∧
      mbits.toNat = (s.src 4).toNat + (s.src 5).toNat * 2 ^ 8 ∧
      obits.toNat = (s.src 6).toNat + (s.src 7).toNat * 2 ^ 8 ∧
      exec (.cmdLzb ie) s = .next { s with
        job := { Job.initial with osize := osize, mbits := mbits, obits := obits, inPos := 8 }
        win :=
          if mbits.toNat < 1 ∨ 32 < mbits.toNat ∨ obits.toNat < 1 ∨ 32 < obits.toNat then
            { s.startedWin 1 ie with
              srcPos := 8, dstPos := 0, lzbOsize := osize, lzbWidths := obits ++ mbits
              errCode := .configInvalid, err := true, done := true }
          else if s.dstLen < osize.toNat then
            { s.startedWin 1 ie with
              srcPos := 8, dstPos := 0, lzbOsize := osize, lzbWidths := obits ++ mbits
              errCode := .capacity, err := true, done := true }
          else s.startedWin 1 ie
        phase :=
          if mbits.toNat < 1 ∨ 32 < mbits.toNat ∨ obits.toNat < 1 ∨ 32 < obits.toNat ∨ s.dstLen < osize.toNat
          then .idle else .running })

/-- R91: a reserved OP, a range that passes the top of the address space, and overlapping ranges each end the job with
CONFIG_INVALID, SRC_POS = DST_POS = 0, before any memory access. -/
def Obligations.StartChecksRejectBadJobs : Prop :=
  (∀ (ie : Bool) (s : State) (i : Instr) (op : BitVec 3), ¬s.RangesPass →
    (i, op) ∈ [(Instr.cmdLzb ie, 1), (Instr.cmdRle8 ie, 2), (Instr.cmdRle16 ie, 3), (Instr.cmdConvert ie, 4)] →
    exec i s = .next { s with
      win := { s.startedWin op ie with
        srcPos := 0, dstPos := 0, lzbOsize := 0, lzbWidths := 0, errCode := .configInvalid, err := true, done := true }
      phase := .idle }) ∧
  (∀ s : State, s.phase = .starting → s.inbox = [] → s.op ∉ [1, 2, 3, 4] →
    step s = .next { s with win := s.reported .configInvalid 0 0 0 0, phase := .idle })

/-- R93: the command checks, in their order: odd DST_LEN for RLE16, reserved BPP, rows that are not whole bytes, a raster
over DST_LEN; each ends the job with nothing read or written; RLE8 has none. -/
def Obligations.CommandChecksRejectBadJobs : Prop :=
  ∀ (ie : Bool) (s : State), s.RangesPass →
    (s.dstLen % 2 = 1 → exec (.cmdRle16 ie) s = .next { s with
      win := { s.startedWin 3 ie with
        srcPos := 0, dstPos := 0, lzbOsize := 0, lzbWidths := 0, errCode := .configInvalid, err := true, done := true }
      phase := .idle, job := Job.initial }) ∧
    ((s.bpp ∉ [1, 2, 4, 8, 16] ∨ (s.bpp < 8 ∧ s.stride * s.bpp % 8 ≠ 0)) →
      exec (.cmdConvert ie) s = .next { s with
        win := { s.startedWin 4 ie with
          srcPos := 0, dstPos := 0, lzbOsize := 0, lzbWidths := 0, errCode := .configInvalid, err := true, done := true }
        phase := .idle, job := Job.initial }) ∧
    (s.bpp ∈ [1, 2, 4, 8, 16] → (s.bpp < 8 → s.stride * s.bpp % 8 = 0) → s.dstLen < s.width * s.height * 2 →
      exec (.cmdConvert ie) s = .next { s with
        win := { s.startedWin 4 ie with
          srcPos := 0, dstPos := 0, lzbOsize := 0, lzbWidths := 0, errCode := .capacity, err := true, done := true }
        phase := .idle, job := Job.initial }) ∧
    (s.coversDevice = false → ∃ t, exec (.cmdRle8 ie) s = .next t ∧ t.phase = .running)

/-- R58: a job that passes its checks and whose ranges cover the block's own window or a device is refused. -/
def Obligations.JobsOverDevicesAreRefused : Prop :=
  ∀ (ie : Bool) (s : State), s.RangesPass → s.coversDevice = true →
    exec (.cmdLzb ie) s = .refused .deviceRange ∧
    exec (.cmdRle8 ie) s = .refused .deviceRange ∧
    (s.dstLen % 2 = 0 → exec (.cmdRle16 ie) s = .refused .deviceRange) ∧
    (s.bpp ∈ [1, 2, 4, 8, 16] → (s.bpp < 8 → s.stride * s.bpp % 8 = 0) → s.width * s.height * 2 ≤ s.dstLen →
      exec (.cmdConvert ie) s = .refused .deviceRange)

/-- No item of the internal job state carries a value into a job (10_state.md R35): where a command leaves a running or
a fully initialised job, the result is the same whatever the internal state held before. -/
def Obligations.NoJobStateIsCarriedOver : Prop :=
  ∀ (ie : Bool) (i : Instr) (s : State) (j : Job),
    i ∈ [Instr.cmdLzb ie, Instr.cmdRle8 ie, Instr.cmdRle16 ie, Instr.cmdConvert ie] →
    (s.RangesPass → exec i (s.withJob j) = exec i s) ∧
    (¬s.RangesPass → ∃ t, exec i s = .next t ∧ exec i (s.withJob j) = .next (t.withJob j))

/-! ## The end of a job -/

/-- The loop's end: `finish` (R94): STATUS shows DONE alone, the cursor and the count of bytes written are reported (SRC_POS
0 for CONVERT, 2 × pos for RLE16), LZB_OSIZE and LZB_WIDTHS are those of an LZB job and 0 otherwise, memory untouched. -/
def Obligations.FinishedLoopsReportTheirJob : Prop :=
  ∀ s : State, s.srcInSpace = true →
    (s.AtLoop 1 → s.osize ≤ s.pos → step s = .next { s with
      win := s.reported .noError s.job.inPos s.job.pos s.job.osize (s.job.obits ++ s.job.mbits), phase := .idle }) ∧
    (s.AtLoop 2 → s.dstLen ≤ s.pos → step s = .next { s with
      win := s.reported .noError s.job.inPos s.job.pos 0 0, phase := .idle }) ∧
    (s.AtLoop 3 → s.units ≤ s.pos → step s = .next { s with
      win := s.reported .noError s.job.inPos (BitVec.ofNat 32 (2 * s.pos)) 0 0, phase := .idle }) ∧
    (s.AtLoop 4 → (s.height ≤ s.y ∨ s.width ≤ s.x) → step s = .next { s with
      win := s.reported .noError 0 (BitVec.ofNat 32 (2 * (s.y * s.width + s.x))) 0 0, phase := .idle })

/-- R190 and R26: after a completion STATUS reads DONE, ERR for a code other than NONE, and the code 0..5 in bits
10:8. -/
def Obligations.StatusShowsTheErrorCode : Prop :=
  ∀ (p : Progress) (s : State),
    (s.complete .noError p).statusWord = 0x002 ∧
    (s.complete .truncatedStream p).statusWord = 0x106 ∧
    (s.complete .outOfBounds p).statusWord = 0x206 ∧
    (s.complete .invalidBackReference p).statusWord = 0x306 ∧
    (s.complete .configInvalid p).statusWord = 0x406 ∧
    (s.complete .capacity p).statusWord = 0x506

/-! ## The register window -/

/-- REG-1, R38 and R21: right after reset every register reads 0. -/
def Obligations.EveryRegisterReadsZeroAfterReset : Prop :=
  ∀ off : BitVec 6, off.toNat % 4 = 0 →
    step { State.reset with inbox := [.regRead off 4] } = .next { State.reset with replies := [.word 0] }

/-- R28 and R29 with R21 and R31: a parameter register written while the block is idle reads back what was written in its writable
bits, every other register keeps its value; read-only and reserved registers ignore the write. -/
def Obligations.ParametersReadBackWhenIdle : Prop :=
  ∀ (s : State) (off : BitVec 6) (v : Word) (rest : List BusEvent),
    s.phase = .idle → s.inReset = false → s.inbox = .regWrite off 4 v :: rest → off.toNat % 4 = 0 → 8 ≤ off.toNat →
    ∃ t, step s = .next t ∧
      t.register off =
        (if off.toNat < 0x1C then v else if off.toNat = 0x1C then v &&& 0x001FFFFF else s.register off) ∧
      (∀ off', off' ≠ off → t.register off' = s.register off') ∧
      t.phase = .idle ∧ t.job = s.job ∧ t.mem = s.mem ∧ t.platform = s.platform ∧ t.inReset = false ∧
      t.inbox = rest ∧ t.replies = s.replies ∧ t.draws = s.draws ∧ t.before = s.before

/-- R23: a CTRL write sets IE always and OP only while idle, which then read back; with START while idle it starts a job
with the OP just written (the block BUSY, DONE, ERR and ERRCODE cleared, IRQ deasserted, R90); START while BUSY starts
nothing. -/
def Obligations.CtrlWritesSetEnableAndCommand : Prop :=
  ∀ (s : State) (v : Word) (rest : List BusEvent), s.inReset = false → s.inbox = .regWrite 0 4 v :: rest →
    ∃ t, step s = .next t ∧ t.win.ie = v.getLsbD 1 ∧
      (s.phase = .idle → v.getLsbD 0 = false →
        t.register 0 = v &&& 0x72 ∧ t.phase = .idle ∧ t.before = s.before ∧
          (∀ off, off ≠ 0 → t.register off = s.register off)) ∧
      (s.phase = .idle → v.getLsbD 0 = true →
        t.register 0 = v &&& 0x72 ∧ t.phase = .starting ∧ t.register 4 = 0x1 ∧ t.irq = false ∧
          t.before = s.mem ∧ (∀ off, off ≠ 0 → off ≠ 4 → t.register off = s.register off)) ∧
      (s.phase ≠ .idle → t.win = { s.win with ie := v.getLsbD 1 } ∧ t.phase = s.phase ∧ t.before = s.before) ∧
      t.job = s.job ∧ t.mem = s.mem ∧ t.platform = s.platform ∧ t.inReset = false ∧
      t.inbox = rest ∧ t.replies = s.replies ∧ t.draws = s.draws

/-- R27: writing STATUS with bit 1 = 1 clears DONE and ERR and keeps ERRCODE; every other bit is ignored; IRQ is
deasserted (R39). -/
def Obligations.StatusWriteAcknowledges : Prop :=
  ∀ (s : State) (v : Word) (rest : List BusEvent),
    s.inReset = false → s.inbox = .regWrite 4 4 v :: rest →
    ∃ t, step s = .next t ∧
      (v.getLsbD 1 = true → t.win = { s.win with done := false, err := false } ∧ t.irq = false) ∧
      (v.getLsbD 1 = false → t.win = s.win) ∧
      t.phase = s.phase ∧ t.job = s.job ∧ t.mem = s.mem ∧ t.platform = s.platform ∧ t.inReset = false ∧
      t.inbox = rest ∧ t.replies = s.replies ∧ t.draws = s.draws ∧ t.before = s.before

/-- R31 and R30: a register read returns the register's value and changes nothing of the block, but for a result register
while BUSY, which returns the free value (log entry 3), whatever that is. -/
def Obligations.RegisterReadsHaveNoSideEffect : Prop :=
  ∀ (s : State) (off : BitVec 6) (rest : List BusEvent),
    s.inReset = false → s.inbox = .regRead off 4 :: rest → off.toNat % 4 = 0 →
    ((s.busy = false ∨ off.toNat ∉ [0x20, 0x24, 0x28, 0x2C]) →
      step s = .next { s with inbox := rest, replies := .word (s.register off) :: s.replies }) ∧
    (s.busy = true → off.toNat ∈ [0x20, 0x24, 0x28, 0x2C] →
      step s = .next { s with
        inbox := rest, replies := .word (Config.freeWord s.draws) :: s.replies, draws := s.draws + 1 })

/-- R55 and R220: a register access that is not an aligned 32-bit word is refused, and so is every access while reset is
asserted. -/
def Obligations.BadRegisterAccessesAreRefused : Prop :=
  ∀ (s : State) (off : BitVec 6) (size : Nat) (v : Word) (rest : List BusEvent),
    (s.inbox = .regWrite off size v :: rest ∨ s.inbox = .regRead off size :: rest) →
    (s.inReset = true → step s = .refused .windowInReset) ∧
    (s.inReset = false → (size ≠ 4 ∨ off.toNat % 4 ≠ 0) → step s = .refused .registerAccess)

/-! ## Memory accesses from outside, and reset -/

/-- R64: while BUSY a write of a source or destination byte by any agent is refused, a read of a source byte returns its
value, and a read of a destination byte returns the byte's value at START or the one it has when the job completes, the
latter only of a byte the job writes (one below DST_POS): any other reads as it is, a source byte of ranges that overlap
too (log entry 4: which of the two is free). Addresses are of ordinary memory. -/
def Obligations.BuffersAreTheEnginesWhileBusy : Prop :=
  ∀ (s : State) (a : Word) (b : Byte) (rest : List BusEvent),
    s.busy = true → s.inWindow a.toNat = false → s.inDevice a.toNat = false →
    (s.inbox = .memWrite a b :: rest → (s.inSrc a.toNat = true ∨ s.inDst a.toNat = true) →
      step s = .refused .writeDuringJob) ∧
    (s.inbox = .memRead a :: rest → s.inDst a.toNat = false → step s = .next { s with
      inbox := rest, replies := .byte (s.mem.read a.toNat) :: s.replies }) ∧
    (s.inbox = .memRead a :: rest → s.inDst a.toNat = true → ∃ v, step s = .next { s with
      inbox := rest, replies := .byte v :: s.replies, draws := s.draws + 1 } ∧
      (s.Inv → s.inSrc a.toNat = true → v = s.mem.read a.toNat) ∧
      (s.Inv → ∀ k t, Host.Core.run core k { s with inbox := [] } = .next t → t.phase = .idle →
        (v = s.before.read a.toNat ∨ v = t.mem.read a.toNat) ∧
        (s.dstAddr + t.win.dstPos.toNat ≤ a.toNat → v = s.mem.read a.toNat ∧ v = s.before.read a.toNat)))

/-- R58's ordinary memory: a byte written by the host is what a read of it then returns, and no other byte changes;
outside a job's ranges this holds while BUSY too. -/
def Obligations.HostMemoryIsOrdinary : Prop :=
  ∀ (s : State) (a : Word) (b : Byte) (rest : List BusEvent),
    s.mem.wf = true → s.inWindow a.toNat = false → s.inDevice a.toNat = false →
    (s.busy = true → s.inSrc a.toNat = false ∧ s.inDst a.toNat = false) →
    s.inbox = .memWrite a b :: .memRead a :: rest →
    ∃ t, step s = .next t ∧ SameMemoryOutside s t a.toNat 1 ∧ t.mem.wf = true ∧
      t.win = s.win ∧ t.phase = s.phase ∧ t.job = s.job ∧ t.before = s.before ∧
      step t = .next { t with inbox := rest, replies := .byte b :: s.replies }

/-- R220 and R221: asserting reset leaves every register 0, the phase IDLE and IRQ deasserted, and every byte of memory
outside the destination of an abandoned job as it was, its source with it; a destination byte is left with its value at
START or the one it would have had when the job completed, the latter only where the job would have written it (log entry
5: which of the two is free); the window then does not respond until reset is released, which leaves the reset values. -/
def Obligations.ResetAbandonsTheJob : Prop :=
  (∀ (s : State) (rest : List BusEvent), s.mem.wf = true → s.inbox = .resetAssert :: rest →
    ∃ t, step s = .next t ∧ t.win = Window.reset ∧ t.phase = .idle ∧ t.irq = false ∧ t.inReset = true ∧
      t.inbox = rest ∧ t.platform = s.platform ∧ t.mem.wf = true ∧
      (s.busy = false → t.mem = s.mem) ∧
      SameMemoryOutside s t s.dstAddr s.dstLen ∧ (∀ i, i < s.srcLen → t.mem.read (s.srcAddr + i) = s.src i) ∧
      (s.Inv → s.busy = true → ∀ k u, Host.Core.run core k { s with inbox := [] } = .next u → u.phase = .idle →
        ∀ i, i < s.dstLen →
          (t.mem.read (s.dstAddr + i) = s.before.read (s.dstAddr + i) ∨
            t.mem.read (s.dstAddr + i) = u.mem.read (s.dstAddr + i)) ∧
          (u.win.dstPos.toNat ≤ i → t.mem.read (s.dstAddr + i) = s.dst i ∧
            t.mem.read (s.dstAddr + i) = s.before.read (s.dstAddr + i)))) ∧
  (∀ (s : State) (rest : List BusEvent), s.inReset = true → s.inbox = .resetRelease :: rest →
    ∃ t, step s = .next t ∧ t.win = Window.reset ∧ t.phase = .idle ∧ t.job = Job.initial ∧ t.irq = false ∧
      t.inReset = false ∧ t.inbox = rest ∧ t.mem = s.mem ∧ (∀ off, t.register off = 0))

/-! ## A step -/

/-- A step runs the decoded instruction: the command of an accepted START, an RLE token of the source bytes from the
cursor on (the cursor moved past it), a pixel of the format GEOM1 selects. -/
def Obligations.StepRunsTheDecodedInstruction : Prop :=
  ∀ (s : State) (i : Instr) (n : Nat),
    (s.phase = .starting → s.inbox = [] → decode s.widths (.ctrl (startWord s.win.op s.win.ie)) = .ok (i, n) →
      step s = exec i s) ∧
    (s.AtLoop 2 → s.srcInSpace = true → s.pos < s.dstLen →
      decode s.widths (.rle8 (s.nextBytes s.srcLen)) = .ok (i, n) → step s = exec i (s.setIn (s.inPos + n))) ∧
    (s.AtLoop 3 → s.srcInSpace = true → s.pos < s.units →
      decode s.widths (.rle16 (s.nextBytes s.srcLen)) = .ok (i, n) → step s = exec i (s.setIn (s.inPos + n))) ∧
    (s.AtLoop 4 → s.srcInSpace = true → s.y < s.height → s.x < s.width →
      decode s.widths (.geom1 s.geom1Word) = .ok (i, n) → step s = exec i s)

/-- A step of an LZB job runs the token its remaining bit stream decodes to, on a state whose stream has moved past it;
where the stream ends inside the token the job ends with TRUNCATED_STREAM and memory untouched (41_lzb.md R110,
R113). -/
def Obligations.StepRunsTheDecodedLzbToken : Prop :=
  ∀ s : State, s.AtLoop 1 → s.srcInSpace = true → s.pos < s.osize → s.job.bitcnt.toNat ≤ 32 → s.inPos ≤ s.srcLen →
    (∀ i n, decode s.widths (.lzb s.streamBits) = .ok (i, n) →
      ∃ s', step s = exec i s' ∧ s'.streamBits = s.streamBits.drop n ∧ s'.mem = s.mem ∧ SameBlock s s' ∧
        s'.job = { s.job with inPos := s'.job.inPos, bitbuf := s'.job.bitbuf, bitcnt := s'.job.bitcnt }) ∧
    (∀ n, decode s.widths (.lzb s.streamBits) = .error (.streamEnd n) →
      ∃ t, step s = .next t ∧ t.phase = .idle ∧ t.win.errCode = .truncatedStream ∧ t.win.err = true ∧
        t.win.done = true ∧ t.win.dstPos = s.job.pos ∧ t.win.srcPos = t.job.inPos ∧ t.mem = s.mem ∧
        s.srcLen < t.inPos + 4)

/-- R140 and R145: an RLE job whose source is exhausted before its output is complete ends with OUT_OF_BOUNDS, the cursor
at SRC_LEN and the bytes written so far reported, memory untouched. -/
def Obligations.ExhaustedRleSourceIsOutOfBounds : Prop :=
  ∀ s : State, s.srcInSpace = true → s.inPos = s.srcLen →
    (s.AtLoop 2 → s.pos < s.dstLen → ∃ t, step s = .next t ∧ t.phase = .idle ∧ t.mem = s.mem ∧ SameWorld s t ∧
      t.win = s.reported .outOfBounds s.win.srcLen s.job.pos 0 0) ∧
    (s.AtLoop 3 → s.pos < s.units → ∃ t, step s = .next t ∧ t.phase = .idle ∧ t.mem = s.mem ∧ SameWorld s t ∧
      t.win = s.reported .outOfBounds s.win.srcLen (BitVec.ofNat 32 (2 * s.pos)) 0 0)

/-- An idle block with nothing from outside waits (70_reset_and_hazards.md R220). -/
def Obligations.IdleBlockWaits : Prop :=
  ∀ s : State, s.phase = .idle → s.inbox = [] → step s = .next s

/-- R39: IRQ is IE AND DONE, level-sensitive: the completion of a job asserts it exactly when IE is set and a job that
goes on leaves it deasserted; it is deasserted by clearing DONE, by starting a job and by writing IE = 0, and writing
IE = 1 while DONE is set asserts it. -/
def Obligations.InterruptFollowsEnableAndDone : Prop :=
  (∀ s : State, s.irq = (s.win.ie && s.win.done)) ∧
  (∀ s t : State, s.Inv → s.phase = .running → s.inbox = [] → step s = .next t →
    t.irq = (s.win.ie && decide (t.phase = .idle))) ∧
  (∀ (s : State) (v : Word) (rest : List BusEvent), s.inReset = false → s.inbox = .regWrite 4 4 v :: rest →
    v.getLsbD 1 = true → ∃ t, step s = .next t ∧ t.irq = false) ∧
  (∀ (s : State) (v : Word) (rest : List BusEvent), s.inReset = false → s.inbox = .regWrite 0 4 v :: rest →
    ∃ t, step s = .next t ∧ (v.getLsbD 1 = false → t.irq = false) ∧
      (v.getLsbD 0 = true → s.phase = .idle → t.irq = false) ∧
      (v.getLsbD 1 = true → v.getLsbD 0 = false → t.irq = s.win.done))

/-! ## The whole machine -/

/-- The reset state meets the invariant. -/
def Obligations.ResetMeetsTheInvariant : Prop := State.reset.Inv

/-- Every step keeps the invariant. -/
def Obligations.StepKeepsTheInvariant : Prop := ∀ s t : State, s.Inv → step s = .next t → t.Inv

/-- Where the invariant holds no step faults: the engine never accesses an address outside the job's ranges (20_memory.md
R50) and never runs a job its checks reject. -/
def Obligations.GoodStatesNeverFault : Prop := ∀ (s : State) (f : Fault), s.Inv → step s ≠ .fault f

/-- R198: every job completes, whatever its stream holds: a started job (over ordinary memory) ends with DONE set, and a
running one within one engine move more than the work it has left (R99). -/
def Obligations.EveryJobCompletes : Prop :=
  (∀ s : State, s.Inv → s.phase = .running → s.inbox = [] →
    ∃ k t, k ≤ s.workLeft + 1 ∧ Host.Core.run core k s = .next t ∧ t.phase = .idle ∧ t.win.done = true) ∧
  (∀ s : State, s.Inv → s.phase = .starting → s.inbox = [] → s.coversDevice = false →
    ∃ k t, Host.Core.run core k s = .next t ∧ t.phase = .idle ∧ t.win.done = true)

/-- R100 for one engine move of a running job: it changes only destination bytes from the count already written up to the
new count, and when it ends the job it changes none, so an error leaves exactly the bytes DST_POS reports. -/
def Obligations.EngineWritesOnlyTheBytesItReports : Prop :=
  ∀ s t : State, s.Inv → s.phase = .running → s.inbox = [] → step s = .next t →
    s.written ≤ t.written ∧ t.written ≤ s.dstLen ∧
    SameMemoryOutside s t (s.dstAddr + s.written) (t.written - s.written) ∧
    (t.phase = .idle → t.mem = s.mem ∧ t.win.dstPos.toNat = s.written ∧ t.written = s.written)

/-- R40: while BUSY a register write changes nothing (but CTRL's IE), so the parameters of a job never change while it
runs, whatever the outside world does. -/
def Obligations.JobParametersAreFixedWhileBusy : Prop :=
  (∀ (s : State) (off : BitVec 6) (v : Word) (rest : List BusEvent),
    s.busy = true → s.inReset = false → s.win.done = false → s.win.err = false →
    s.inbox = .regWrite off 4 v :: rest → off.toNat % 4 = 0 →
    step s = .next { s with
      inbox := rest
      win := if off = 0 then { s.win with ie := v.getLsbD 1 } else s.win }) ∧
  (∀ s t : State, step s = .next t → s.busy = true → t.busy = true →
    t.win.op = s.win.op ∧ t.win.srcAddr = s.win.srcAddr ∧ t.win.srcLen = s.win.srcLen ∧
    t.win.dstAddr = s.win.dstAddr ∧ t.win.dstLen = s.win.dstLen ∧ t.win.stride = s.win.stride ∧
    t.win.height = s.win.height ∧ t.win.width = s.win.width ∧ t.win.bpp = s.win.bpp ∧
    t.platform = s.platform ∧ t.inReset = s.inReset)

/-- 20_memory.md R50, for every instruction: a meaning changes no byte of memory outside the destination range, no job
parameter, and nothing of the outside world; it keeps memory canonical. -/
def Obligations.MeaningsTouchOnlyTheDestination : Prop :=
  ∀ (i : Instr) (s t : State), s.mem.wf = true → exec i s = .next t →
    SameMemoryOutside s t s.dstAddr s.dstLen ∧ t.mem.wf = true ∧ SameWorld s t ∧
    t.win.srcAddr = s.win.srcAddr ∧ t.win.srcLen = s.win.srcLen ∧ t.win.dstAddr = s.win.dstAddr ∧
    t.win.dstLen = s.win.dstLen ∧ t.win.stride = s.win.stride ∧ t.win.height = s.win.height ∧
    t.win.width = s.win.width ∧ t.win.bpp = s.win.bpp

/-- R65: the outcome of a job is a function of the registers at START and of the source bytes: two machines that start a
job with the same registers and the same source bytes, whatever the rest of their memory and their internal state hold,
agree at every later engine move on every register and on BUSY, and at the end on every destination byte written. -/
def Obligations.JobOutcomeDependsOnRegistersAndSource : Prop :=
  ∀ (s s' : State) (k : Nat) (t : State), s.Inv → s'.Inv → s.phase = .starting → s'.phase = .starting →
    s.inbox = [] → s'.inbox = [] → s.win = s'.win → s.platform = s'.platform →
    (∀ i, i < s.srcLen → s.src i = s'.src i) → Host.Core.run core k s = .next t →
    ∃ t', Host.Core.run core k s' = .next t' ∧ t'.win = t.win ∧ t'.phase = t.phase ∧
      (t.phase = .idle → ∀ i, i < t.win.dstPos.toNat → t'.dst i = t.dst i)

/-- R143: an RLE8 stream without run keys decodes to the complement of its first DST_LEN bytes, byte for byte; and the
run `C5 AA` with DST_LEN 5 yields five bytes 0x55. -/
def Obligations.Rle8LiteralStreamsAreComplemented : Prop :=
  (∀ s : State, s.Inv → s.AtLoop 2 → s.inPos = 0 → s.pos = 0 → s.dstLen ≤ s.srcLen →
    (∀ i, i < s.dstLen → (s.src i).toNat < 0xC0) →
    ∃ t, Host.Core.run core (s.dstLen + 1) s = .next t ∧ t.phase = .idle ∧ t.win.errCode = .noError ∧
      t.win.srcPos = s.win.dstLen ∧ t.win.dstPos = s.win.dstLen ∧ (∀ i, i < s.dstLen → t.dst i = ~~~(s.src i))) ∧
  (∀ s : State, s.Inv → s.AtLoop 2 → s.inPos = 0 → s.pos = 0 → s.dstLen = 5 → s.srcLen = 2 → s.src 0 = 0xC5 →
    s.src 1 = 0xAA →
    ∃ t, Host.Core.run core 2 s = .next t ∧ t.phase = .idle ∧ t.win.errCode = .noError ∧
      (∀ i, i < 5 → t.dst i = 0x55))

/-- R163 to R166 for the whole job: a CONVERT job writes every pixel (x, y) of the raster with the value its format and
the skip rule give, in WIDTH*HEIGHT passes and the finish, and reports DST_POS = 2*WIDTH*HEIGHT and SRC_POS = 0. -/
def Obligations.ConvertJobFillsTheRaster : Prop :=
  ∀ s : State, s.Inv → s.AtLoop 4 → s.x = 0 → s.y = 0 →
    ∃ t, Host.Core.run core (s.width * s.height + 1) s = .next t ∧ t.phase = .idle ∧ t.win.errCode = .noError ∧
      t.win.srcPos = 0 ∧ t.win.dstPos.toNat = 2 * s.width * s.height ∧
      SameMemoryOutside s t s.dstAddr (2 * s.width * s.height) ∧
      (∀ x y, x < s.width → y < s.height →
        t.dst (2 * (y * s.width + x)) = (s.pixelAt x y).extractLsb' 8 8 ∧
        t.dst (2 * (y * s.width + x) + 1) = (s.pixelAt x y).extractLsb' 0 8)
end

