-- ==== Sys2Proof/Laws/Bits.lean ====
section
/-! SUPPORT. Laws/Bits.lean: lists of bits as numbers. -/

namespace Sys2Proof

@[simp] theorem bitsOf_zero (v : Nat) : bitsOf 0 v = [] := rfl

@[simp] theorem length_bitsOf (n v : Nat) : (bitsOf n v).length = n := by
  induction n with
  | zero => rfl
  | succ n ih => simp [bitsOf, ih]

/-- The bit a list of bits of a number shows at each place. -/
theorem getElem?_bitsOf (n v i : Nat) (h : i < n) : (bitsOf n v)[i]? = some (v.testBit (n - 1 - i)) := by
  induction n generalizing i with
  | zero => omega
  | succ n ih =>
    cases i with
    | zero => simp [bitsOf]
    | succ i =>
      rw [bitsOf, List.getElem?_cons_succ, ih i (by omega)]
      congr 2
      omega

@[simp] theorem ofBits_nil : ofBits [] = 0 := rfl

theorem ofBits_foldl (acc : Nat) (bits : List Bool) :
    bits.foldl (fun acc b => acc * 2 + b.toNat) acc = acc * 2 ^ bits.length + ofBits bits := by
  induction bits generalizing acc with
  | nil => simp [ofBits]
  | cons b t ih =>
    have hcons : ofBits (b :: t) = b.toNat * 2 ^ t.length + ofBits t := by
      rw [ofBits, List.foldl_cons, ih]
      simp
    rw [List.foldl_cons, ih, hcons, List.length_cons, Nat.pow_succ]
    ring

theorem ofBits_cons (b : Bool) (t : List Bool) : ofBits (b :: t) = b.toNat * 2 ^ t.length + ofBits t := by
  rw [ofBits, List.foldl_cons, ofBits_foldl]
  simp

theorem ofBits_append (s t : List Bool) : ofBits (s ++ t) = ofBits s * 2 ^ t.length + ofBits t := by
  rw [ofBits, List.foldl_append, ofBits_foldl]
  rfl

theorem ofBits_lt (bits : List Bool) : ofBits bits < 2 ^ bits.length := by
  induction bits with
  | nil => simp
  | cons b t ih =>
    rw [ofBits_cons, List.length_cons, Nat.pow_succ]
    cases b <;> simp <;> omega

/-- The bits of a number, read as a number, are its low bits. -/
theorem ofBits_bitsOf (n v : Nat) : ofBits (bitsOf n v) = v % 2 ^ n := by
  induction n with
  | zero => simp [Nat.mod_one]
  | succ n ih =>
    rw [bitsOf, ofBits_cons, length_bitsOf, ih, Nat.mod_pow_succ, Nat.testBit_eq_decide_div_mod_eq]
    rcases Nat.mod_two_eq_zero_or_one (v / 2 ^ n) with h | h <;> simp [h, Nat.add_comm]

/-- Only the low `n` bits of a number show. -/
theorem bitsOf_congr {n v v' : Nat} (h : ∀ i, i < n → v.testBit i = v'.testBit i) : bitsOf n v = bitsOf n v' := by
  induction n with
  | zero => rfl
  | succ n ih => rw [bitsOf, bitsOf, h n (by omega), ih fun i hi => h i (by omega)]

theorem bitsOf_mod (n v : Nat) : bitsOf n (v % 2 ^ n) = bitsOf n v :=
  bitsOf_congr fun i hi => by simp [Nat.testBit_mod_two_pow, hi]

/-- A list of bits is the bits of the number it is. -/
theorem bitsOf_ofBits (bits : List Bool) : bitsOf bits.length (ofBits bits) = bits := by
  induction bits with
  | nil => rfl
  | cons b t ih =>
    have hlt := ofBits_lt t
    have htop : (ofBits (b :: t)).testBit t.length = b := by
      rw [ofBits_cons, Nat.testBit_eq_decide_div_mod_eq, Nat.mul_comm, Nat.mul_add_div (by positivity),
        Nat.div_eq_of_lt hlt]
      cases b <;> simp
    have hlow : bitsOf t.length (ofBits (b :: t)) = bitsOf t.length (ofBits t) := by
      rw [ofBits_cons, ← bitsOf_mod t.length (b.toNat * 2 ^ t.length + ofBits t), ← bitsOf_mod t.length (ofBits t)]
      congr 1
      simp
    rw [List.length_cons, bitsOf, htop, hlow, ih]

/-- The first bits of a number are its high bits. -/
theorem take_bitsOf (n k v : Nat) (h : k ≤ n) : (bitsOf n v).take k = bitsOf k (v / 2 ^ (n - k)) := by
  refine List.ext_getElem? fun i => ?_
  by_cases hi : i < k
  · rw [List.getElem?_take_of_lt hi, getElem?_bitsOf n v i (by omega), getElem?_bitsOf k _ i hi, Nat.testBit_div_two_pow]
    congr 2
    omega
  · rw [List.getElem?_eq_none (by simp; omega), List.getElem?_eq_none (by simp; omega)]

/-- The bits after the first ones are the low bits. -/
theorem drop_bitsOf (n k v : Nat) (h : k ≤ n) : (bitsOf n v).drop k = bitsOf (n - k) v := by
  refine List.ext_getElem? fun i => ?_
  rw [List.getElem?_drop]
  by_cases hi : i < n - k
  · rw [getElem?_bitsOf n v _ (by omega), getElem?_bitsOf _ v i hi]
    congr 2
    omega
  · rw [List.getElem?_eq_none (by simp; omega), List.getElem?_eq_none (by simp; omega)]

end Sys2Proof
end

