-- ==== Sys2Proof/Laws/State.lean ====
section
/-! SUPPORT. Laws/State.lean: one lemma per field per named update, each true by rfl, so that no proof unfolds a record
update; the same for the position updates, starting, completing and acknowledging. -/

namespace Sys2Proof.Machine

@[simp] theorem State.withWin_win (s : State) (w : Window) : (s.withWin w).win = w := rfl
@[simp] theorem State.withWin_phase (s : State) (w : Window) : (s.withWin w).phase = s.phase := rfl
@[simp] theorem State.withWin_job (s : State) (w : Window) : (s.withWin w).job = s.job := rfl
@[simp] theorem State.withWin_mem (s : State) (w : Window) : (s.withWin w).mem = s.mem := rfl
@[simp] theorem State.withWin_platform (s : State) (w : Window) : (s.withWin w).platform = s.platform := rfl
@[simp] theorem State.withWin_inReset (s : State) (w : Window) : (s.withWin w).inReset = s.inReset := rfl
@[simp] theorem State.withWin_inbox (s : State) (w : Window) : (s.withWin w).inbox = s.inbox := rfl
@[simp] theorem State.withWin_replies (s : State) (w : Window) : (s.withWin w).replies = s.replies := rfl
@[simp] theorem State.withWin_draws (s : State) (w : Window) : (s.withWin w).draws = s.draws := rfl
@[simp] theorem State.withWin_before (s : State) (w : Window) : (s.withWin w).before = s.before := rfl

@[simp] theorem State.withPhase_win (s : State) (p : Phase) : (s.withPhase p).win = s.win := rfl
@[simp] theorem State.withPhase_phase (s : State) (p : Phase) : (s.withPhase p).phase = p := rfl
@[simp] theorem State.withPhase_job (s : State) (p : Phase) : (s.withPhase p).job = s.job := rfl
@[simp] theorem State.withPhase_mem (s : State) (p : Phase) : (s.withPhase p).mem = s.mem := rfl
@[simp] theorem State.withPhase_platform (s : State) (p : Phase) : (s.withPhase p).platform = s.platform := rfl
@[simp] theorem State.withPhase_inReset (s : State) (p : Phase) : (s.withPhase p).inReset = s.inReset := rfl
@[simp] theorem State.withPhase_inbox (s : State) (p : Phase) : (s.withPhase p).inbox = s.inbox := rfl
@[simp] theorem State.withPhase_replies (s : State) (p : Phase) : (s.withPhase p).replies = s.replies := rfl
@[simp] theorem State.withPhase_draws (s : State) (p : Phase) : (s.withPhase p).draws = s.draws := rfl
@[simp] theorem State.withPhase_before (s : State) (p : Phase) : (s.withPhase p).before = s.before := rfl

@[simp] theorem State.withJob_win (s : State) (j : Job) : (s.withJob j).win = s.win := rfl
@[simp] theorem State.withJob_phase (s : State) (j : Job) : (s.withJob j).phase = s.phase := rfl
@[simp] theorem State.withJob_job (s : State) (j : Job) : (s.withJob j).job = j := rfl
@[simp] theorem State.withJob_mem (s : State) (j : Job) : (s.withJob j).mem = s.mem := rfl
@[simp] theorem State.withJob_platform (s : State) (j : Job) : (s.withJob j).platform = s.platform := rfl
@[simp] theorem State.withJob_inReset (s : State) (j : Job) : (s.withJob j).inReset = s.inReset := rfl
@[simp] theorem State.withJob_inbox (s : State) (j : Job) : (s.withJob j).inbox = s.inbox := rfl
@[simp] theorem State.withJob_replies (s : State) (j : Job) : (s.withJob j).replies = s.replies := rfl
@[simp] theorem State.withJob_draws (s : State) (j : Job) : (s.withJob j).draws = s.draws := rfl
@[simp] theorem State.withJob_before (s : State) (j : Job) : (s.withJob j).before = s.before := rfl

@[simp] theorem State.withMem_win (s : State) (m : Memory) : (s.withMem m).win = s.win := rfl
@[simp] theorem State.withMem_phase (s : State) (m : Memory) : (s.withMem m).phase = s.phase := rfl
@[simp] theorem State.withMem_job (s : State) (m : Memory) : (s.withMem m).job = s.job := rfl
@[simp] theorem State.withMem_mem (s : State) (m : Memory) : (s.withMem m).mem = m := rfl
@[simp] theorem State.withMem_platform (s : State) (m : Memory) : (s.withMem m).platform = s.platform := rfl
@[simp] theorem State.withMem_inReset (s : State) (m : Memory) : (s.withMem m).inReset = s.inReset := rfl
@[simp] theorem State.withMem_inbox (s : State) (m : Memory) : (s.withMem m).inbox = s.inbox := rfl
@[simp] theorem State.withMem_replies (s : State) (m : Memory) : (s.withMem m).replies = s.replies := rfl
@[simp] theorem State.withMem_draws (s : State) (m : Memory) : (s.withMem m).draws = s.draws := rfl
@[simp] theorem State.withMem_before (s : State) (m : Memory) : (s.withMem m).before = s.before := rfl

@[simp] theorem State.withBefore_win (s : State) (m : Memory) : (s.withBefore m).win = s.win := rfl
@[simp] theorem State.withBefore_phase (s : State) (m : Memory) : (s.withBefore m).phase = s.phase := rfl
@[simp] theorem State.withBefore_job (s : State) (m : Memory) : (s.withBefore m).job = s.job := rfl
@[simp] theorem State.withBefore_mem (s : State) (m : Memory) : (s.withBefore m).mem = s.mem := rfl
@[simp] theorem State.withBefore_platform (s : State) (m : Memory) : (s.withBefore m).platform = s.platform := rfl
@[simp] theorem State.withBefore_inReset (s : State) (m : Memory) : (s.withBefore m).inReset = s.inReset := rfl
@[simp] theorem State.withBefore_before (s : State) (m : Memory) : (s.withBefore m).before = m := rfl
@[simp] theorem State.withBefore_inbox (s : State) (m : Memory) : (s.withBefore m).inbox = s.inbox := rfl
@[simp] theorem State.withBefore_replies (s : State) (m : Memory) : (s.withBefore m).replies = s.replies := rfl
@[simp] theorem State.withBefore_draws (s : State) (m : Memory) : (s.withBefore m).draws = s.draws := rfl

@[simp] theorem State.withInbox_win (s : State) (l : List BusEvent) : (s.withInbox l).win = s.win := rfl
@[simp] theorem State.withInbox_phase (s : State) (l : List BusEvent) : (s.withInbox l).phase = s.phase := rfl
@[simp] theorem State.withInbox_job (s : State) (l : List BusEvent) : (s.withInbox l).job = s.job := rfl
@[simp] theorem State.withInbox_mem (s : State) (l : List BusEvent) : (s.withInbox l).mem = s.mem := rfl
@[simp] theorem State.withInbox_platform (s : State) (l : List BusEvent) : (s.withInbox l).platform = s.platform := rfl
@[simp] theorem State.withInbox_inReset (s : State) (l : List BusEvent) : (s.withInbox l).inReset = s.inReset := rfl
@[simp] theorem State.withInbox_inbox (s : State) (l : List BusEvent) : (s.withInbox l).inbox = l := rfl
@[simp] theorem State.withInbox_replies (s : State) (l : List BusEvent) : (s.withInbox l).replies = s.replies := rfl
@[simp] theorem State.withInbox_draws (s : State) (l : List BusEvent) : (s.withInbox l).draws = s.draws := rfl
@[simp] theorem State.withInbox_before (s : State) (l : List BusEvent) : (s.withInbox l).before = s.before := rfl

@[simp] theorem State.withReplies_win (s : State) (l : List Reply) : (s.withReplies l).win = s.win := rfl
@[simp] theorem State.withReplies_phase (s : State) (l : List Reply) : (s.withReplies l).phase = s.phase := rfl
@[simp] theorem State.withReplies_job (s : State) (l : List Reply) : (s.withReplies l).job = s.job := rfl
@[simp] theorem State.withReplies_mem (s : State) (l : List Reply) : (s.withReplies l).mem = s.mem := rfl
@[simp] theorem State.withReplies_platform (s : State) (l : List Reply) : (s.withReplies l).platform = s.platform := rfl
@[simp] theorem State.withReplies_inReset (s : State) (l : List Reply) : (s.withReplies l).inReset = s.inReset := rfl
@[simp] theorem State.withReplies_inbox (s : State) (l : List Reply) : (s.withReplies l).inbox = s.inbox := rfl
@[simp] theorem State.withReplies_replies (s : State) (l : List Reply) : (s.withReplies l).replies = l := rfl
@[simp] theorem State.withReplies_draws (s : State) (l : List Reply) : (s.withReplies l).draws = s.draws := rfl
@[simp] theorem State.withReplies_before (s : State) (l : List Reply) : (s.withReplies l).before = s.before := rfl

@[simp] theorem State.withDraws_win (s : State) (n : Nat) : (s.withDraws n).win = s.win := rfl
@[simp] theorem State.withDraws_phase (s : State) (n : Nat) : (s.withDraws n).phase = s.phase := rfl
@[simp] theorem State.withDraws_job (s : State) (n : Nat) : (s.withDraws n).job = s.job := rfl
@[simp] theorem State.withDraws_mem (s : State) (n : Nat) : (s.withDraws n).mem = s.mem := rfl
@[simp] theorem State.withDraws_platform (s : State) (n : Nat) : (s.withDraws n).platform = s.platform := rfl
@[simp] theorem State.withDraws_inReset (s : State) (n : Nat) : (s.withDraws n).inReset = s.inReset := rfl
@[simp] theorem State.withDraws_inbox (s : State) (n : Nat) : (s.withDraws n).inbox = s.inbox := rfl
@[simp] theorem State.withDraws_replies (s : State) (n : Nat) : (s.withDraws n).replies = s.replies := rfl
@[simp] theorem State.withDraws_draws (s : State) (n : Nat) : (s.withDraws n).draws = n := rfl
@[simp] theorem State.withDraws_before (s : State) (n : Nat) : (s.withDraws n).before = s.before := rfl

@[simp] theorem State.withInReset_win (s : State) (b : Bool) : (s.withInReset b).win = s.win := rfl
@[simp] theorem State.withInReset_phase (s : State) (b : Bool) : (s.withInReset b).phase = s.phase := rfl
@[simp] theorem State.withInReset_job (s : State) (b : Bool) : (s.withInReset b).job = s.job := rfl
@[simp] theorem State.withInReset_mem (s : State) (b : Bool) : (s.withInReset b).mem = s.mem := rfl
@[simp] theorem State.withInReset_platform (s : State) (b : Bool) : (s.withInReset b).platform = s.platform := rfl
@[simp] theorem State.withInReset_inReset (s : State) (b : Bool) : (s.withInReset b).inReset = b := rfl
@[simp] theorem State.withInReset_inbox (s : State) (b : Bool) : (s.withInReset b).inbox = s.inbox := rfl
@[simp] theorem State.withInReset_replies (s : State) (b : Bool) : (s.withInReset b).replies = s.replies := rfl
@[simp] theorem State.withInReset_draws (s : State) (b : Bool) : (s.withInReset b).draws = s.draws := rfl
@[simp] theorem State.withInReset_before (s : State) (b : Bool) : (s.withInReset b).before = s.before := rfl

@[simp] theorem State.setIn_win (s : State) (v : Nat) : (s.setIn v).win = s.win := rfl
@[simp] theorem State.setIn_phase (s : State) (v : Nat) : (s.setIn v).phase = s.phase := rfl
@[simp] theorem State.setIn_job (s : State) (v : Nat) : (s.setIn v).job = { s.job with inPos := BitVec.ofNat 32 v } := rfl
@[simp] theorem State.setIn_mem (s : State) (v : Nat) : (s.setIn v).mem = s.mem := rfl
@[simp] theorem State.setIn_platform (s : State) (v : Nat) : (s.setIn v).platform = s.platform := rfl
@[simp] theorem State.setIn_inReset (s : State) (v : Nat) : (s.setIn v).inReset = s.inReset := rfl
@[simp] theorem State.setIn_inbox (s : State) (v : Nat) : (s.setIn v).inbox = s.inbox := rfl
@[simp] theorem State.setIn_replies (s : State) (v : Nat) : (s.setIn v).replies = s.replies := rfl
@[simp] theorem State.setIn_draws (s : State) (v : Nat) : (s.setIn v).draws = s.draws := rfl
@[simp] theorem State.setIn_before (s : State) (v : Nat) : (s.setIn v).before = s.before := rfl

@[simp] theorem State.setPos_win (s : State) (v : Nat) : (s.setPos v).win = s.win := rfl
@[simp] theorem State.setPos_phase (s : State) (v : Nat) : (s.setPos v).phase = s.phase := rfl
@[simp] theorem State.setPos_job (s : State) (v : Nat) : (s.setPos v).job = { s.job with pos := BitVec.ofNat 32 v } := rfl
@[simp] theorem State.setPos_mem (s : State) (v : Nat) : (s.setPos v).mem = s.mem := rfl
@[simp] theorem State.setPos_platform (s : State) (v : Nat) : (s.setPos v).platform = s.platform := rfl
@[simp] theorem State.setPos_inReset (s : State) (v : Nat) : (s.setPos v).inReset = s.inReset := rfl
@[simp] theorem State.setPos_inbox (s : State) (v : Nat) : (s.setPos v).inbox = s.inbox := rfl
@[simp] theorem State.setPos_replies (s : State) (v : Nat) : (s.setPos v).replies = s.replies := rfl
@[simp] theorem State.setPos_draws (s : State) (v : Nat) : (s.setPos v).draws = s.draws := rfl
@[simp] theorem State.setPos_before (s : State) (v : Nat) : (s.setPos v).before = s.before := rfl

@[simp] theorem State.latchStart_win (op : BitVec 3) (ie : Bool) (s : State) : (s.latchStart op ie).win = { s.win with ie := ie, op := op, done := false, err := false, errCode := .noError } := rfl
@[simp] theorem State.latchStart_phase (op : BitVec 3) (ie : Bool) (s : State) : (s.latchStart op ie).phase = .starting := rfl
@[simp] theorem State.latchStart_job (op : BitVec 3) (ie : Bool) (s : State) : (s.latchStart op ie).job = s.job := rfl
@[simp] theorem State.latchStart_mem (op : BitVec 3) (ie : Bool) (s : State) : (s.latchStart op ie).mem = s.mem := rfl
@[simp] theorem State.latchStart_platform (op : BitVec 3) (ie : Bool) (s : State) : (s.latchStart op ie).platform = s.platform := rfl
@[simp] theorem State.latchStart_inReset (op : BitVec 3) (ie : Bool) (s : State) : (s.latchStart op ie).inReset = s.inReset := rfl
@[simp] theorem State.latchStart_inbox (op : BitVec 3) (ie : Bool) (s : State) : (s.latchStart op ie).inbox = s.inbox := rfl
@[simp] theorem State.latchStart_replies (op : BitVec 3) (ie : Bool) (s : State) : (s.latchStart op ie).replies = s.replies := rfl
@[simp] theorem State.latchStart_draws (op : BitVec 3) (ie : Bool) (s : State) : (s.latchStart op ie).draws = s.draws := rfl
@[simp] theorem State.latchStart_before (op : BitVec 3) (ie : Bool) (s : State) : (s.latchStart op ie).before = s.before := rfl

@[simp] theorem State.initJob_win (s : State) : s.initJob.win = s.win := rfl
@[simp] theorem State.initJob_phase (s : State) : s.initJob.phase = s.phase := rfl
@[simp] theorem State.initJob_job (s : State) : s.initJob.job = Job.initial := rfl
@[simp] theorem State.initJob_mem (s : State) : s.initJob.mem = s.mem := rfl
@[simp] theorem State.initJob_platform (s : State) : s.initJob.platform = s.platform := rfl
@[simp] theorem State.initJob_inReset (s : State) : s.initJob.inReset = s.inReset := rfl
@[simp] theorem State.initJob_inbox (s : State) : s.initJob.inbox = s.inbox := rfl
@[simp] theorem State.initJob_replies (s : State) : s.initJob.replies = s.replies := rfl
@[simp] theorem State.initJob_draws (s : State) : s.initJob.draws = s.draws := rfl
@[simp] theorem State.initJob_before (s : State) : s.initJob.before = s.before := rfl

@[simp] theorem State.enterLoop_win (s : State) : s.enterLoop.win = s.win := rfl
@[simp] theorem State.enterLoop_phase (s : State) : s.enterLoop.phase = .running := rfl
@[simp] theorem State.enterLoop_job (s : State) : s.enterLoop.job = s.job := rfl
@[simp] theorem State.enterLoop_mem (s : State) : s.enterLoop.mem = s.mem := rfl
@[simp] theorem State.enterLoop_platform (s : State) : s.enterLoop.platform = s.platform := rfl
@[simp] theorem State.enterLoop_inReset (s : State) : s.enterLoop.inReset = s.inReset := rfl
@[simp] theorem State.enterLoop_inbox (s : State) : s.enterLoop.inbox = s.inbox := rfl
@[simp] theorem State.enterLoop_replies (s : State) : s.enterLoop.replies = s.replies := rfl
@[simp] theorem State.enterLoop_draws (s : State) : s.enterLoop.draws = s.draws := rfl
@[simp] theorem State.enterLoop_before (s : State) : s.enterLoop.before = s.before := rfl

@[simp] theorem State.complete_phase (e : ErrCode) (p : Progress) (s : State) : (s.complete e p).phase = .idle := rfl
@[simp] theorem State.complete_job (e : ErrCode) (p : Progress) (s : State) : (s.complete e p).job = s.job := rfl
@[simp] theorem State.complete_mem (e : ErrCode) (p : Progress) (s : State) : (s.complete e p).mem = s.mem := rfl
@[simp] theorem State.complete_platform (e : ErrCode) (p : Progress) (s : State) : (s.complete e p).platform = s.platform := rfl
@[simp] theorem State.complete_inReset (e : ErrCode) (p : Progress) (s : State) : (s.complete e p).inReset = s.inReset := rfl
@[simp] theorem State.complete_inbox (e : ErrCode) (p : Progress) (s : State) : (s.complete e p).inbox = s.inbox := rfl
@[simp] theorem State.complete_replies (e : ErrCode) (p : Progress) (s : State) : (s.complete e p).replies = s.replies := rfl
@[simp] theorem State.complete_draws (e : ErrCode) (p : Progress) (s : State) : (s.complete e p).draws = s.draws := rfl
@[simp] theorem State.complete_before (e : ErrCode) (p : Progress) (s : State) : (s.complete e p).before = s.before := rfl

@[simp] theorem State.raise_phase (e : ErrCode) (s : State) : (s.raise e).phase = .idle := rfl
@[simp] theorem State.raise_job (e : ErrCode) (s : State) : (s.raise e).job = s.job := rfl
@[simp] theorem State.raise_mem (e : ErrCode) (s : State) : (s.raise e).mem = s.mem := rfl
@[simp] theorem State.raise_platform (e : ErrCode) (s : State) : (s.raise e).platform = s.platform := rfl
@[simp] theorem State.raise_inReset (e : ErrCode) (s : State) : (s.raise e).inReset = s.inReset := rfl
@[simp] theorem State.raise_inbox (e : ErrCode) (s : State) : (s.raise e).inbox = s.inbox := rfl
@[simp] theorem State.raise_replies (e : ErrCode) (s : State) : (s.raise e).replies = s.replies := rfl
@[simp] theorem State.raise_draws (e : ErrCode) (s : State) : (s.raise e).draws = s.draws := rfl
@[simp] theorem State.raise_before (e : ErrCode) (s : State) : (s.raise e).before = s.before := rfl

@[simp] theorem State.acknowledge_win (s : State) : s.acknowledge.win = { s.win with done := false, err := false } := rfl
@[simp] theorem State.acknowledge_phase (s : State) : s.acknowledge.phase = s.phase := rfl
@[simp] theorem State.acknowledge_job (s : State) : s.acknowledge.job = s.job := rfl
@[simp] theorem State.acknowledge_mem (s : State) : s.acknowledge.mem = s.mem := rfl
@[simp] theorem State.acknowledge_platform (s : State) : s.acknowledge.platform = s.platform := rfl
@[simp] theorem State.acknowledge_inReset (s : State) : s.acknowledge.inReset = s.inReset := rfl
@[simp] theorem State.acknowledge_inbox (s : State) : s.acknowledge.inbox = s.inbox := rfl
@[simp] theorem State.acknowledge_replies (s : State) : s.acknowledge.replies = s.replies := rfl
@[simp] theorem State.acknowledge_draws (s : State) : s.acknowledge.draws = s.draws := rfl
@[simp] theorem State.acknowledge_before (s : State) : s.acknowledge.before = s.before := rfl

@[simp] theorem State.reply_win (r : Reply) (s : State) : (s.reply r).win = s.win := rfl
@[simp] theorem State.reply_phase (r : Reply) (s : State) : (s.reply r).phase = s.phase := rfl
@[simp] theorem State.reply_job (r : Reply) (s : State) : (s.reply r).job = s.job := rfl
@[simp] theorem State.reply_mem (r : Reply) (s : State) : (s.reply r).mem = s.mem := rfl
@[simp] theorem State.reply_platform (r : Reply) (s : State) : (s.reply r).platform = s.platform := rfl
@[simp] theorem State.reply_inReset (r : Reply) (s : State) : (s.reply r).inReset = s.inReset := rfl
@[simp] theorem State.reply_inbox (r : Reply) (s : State) : (s.reply r).inbox = s.inbox := rfl
@[simp] theorem State.reply_replies (r : Reply) (s : State) : (s.reply r).replies = r :: s.replies := rfl
@[simp] theorem State.reply_draws (r : Reply) (s : State) : (s.reply r).draws = s.draws := rfl
@[simp] theorem State.reply_before (r : Reply) (s : State) : (s.reply r).before = s.before := rfl

@[simp] theorem State.blockReset_win (s : State) : s.blockReset.win = Window.reset := rfl
@[simp] theorem State.blockReset_phase (s : State) : s.blockReset.phase = .idle := rfl
@[simp] theorem State.blockReset_job (s : State) : s.blockReset.job = Job.initial := rfl
@[simp] theorem State.blockReset_mem (s : State) : s.blockReset.mem = s.mem := rfl
@[simp] theorem State.blockReset_platform (s : State) : s.blockReset.platform = s.platform := rfl
@[simp] theorem State.blockReset_inReset (s : State) : s.blockReset.inReset = s.inReset := rfl
@[simp] theorem State.blockReset_inbox (s : State) : s.blockReset.inbox = s.inbox := rfl
@[simp] theorem State.blockReset_replies (s : State) : s.blockReset.replies = s.replies := rfl
@[simp] theorem State.blockReset_draws (s : State) : s.blockReset.draws = s.draws := rfl
@[simp] theorem State.blockReset_before (s : State) : s.blockReset.before = s.before := rfl

/-! ### What a completion reports (40_jobs.md R94) -/

@[simp] theorem State.complete_win_ie (e : ErrCode) (p : Progress) (s : State) : (s.complete e p).win.ie = s.win.ie := rfl
@[simp] theorem State.complete_win_op (e : ErrCode) (p : Progress) (s : State) : (s.complete e p).win.op = s.win.op := rfl
@[simp] theorem State.complete_win_srcAddr (e : ErrCode) (p : Progress) (s : State) : (s.complete e p).win.srcAddr = s.win.srcAddr := rfl
@[simp] theorem State.complete_win_srcLen (e : ErrCode) (p : Progress) (s : State) : (s.complete e p).win.srcLen = s.win.srcLen := rfl
@[simp] theorem State.complete_win_dstAddr (e : ErrCode) (p : Progress) (s : State) : (s.complete e p).win.dstAddr = s.win.dstAddr := rfl
@[simp] theorem State.complete_win_dstLen (e : ErrCode) (p : Progress) (s : State) : (s.complete e p).win.dstLen = s.win.dstLen := rfl
@[simp] theorem State.complete_win_stride (e : ErrCode) (p : Progress) (s : State) : (s.complete e p).win.stride = s.win.stride := rfl
@[simp] theorem State.complete_win_height (e : ErrCode) (p : Progress) (s : State) : (s.complete e p).win.height = s.win.height := rfl
@[simp] theorem State.complete_win_width (e : ErrCode) (p : Progress) (s : State) : (s.complete e p).win.width = s.win.width := rfl
@[simp] theorem State.complete_win_bpp (e : ErrCode) (p : Progress) (s : State) : (s.complete e p).win.bpp = s.win.bpp := rfl
@[simp] theorem State.complete_win_done (e : ErrCode) (p : Progress) (s : State) : (s.complete e p).win.done = true := rfl
@[simp] theorem State.complete_win_errCode (e : ErrCode) (p : Progress) (s : State) : (s.complete e p).win.errCode = e := rfl
@[simp] theorem State.complete_win_err (e : ErrCode) (p : Progress) (s : State) :
    (s.complete e p).win.err = decide (e ≠ .noError) := rfl
theorem State.raise_eq_complete (e : ErrCode) (s : State) : s.raise e = s.complete e .headerRead := rfl

end Sys2Proof.Machine
end

