-- ==== Sys2Proof/Laws/Commands.lean ====
section
/-! SUPPORT. Laws/Commands.lean: what each shared part of starting a job can do: the start checks, `beginJob`,
`unlessDevice`, the LZB sub-header and the converter's checks. -/

namespace Sys2Proof.Machine

/-- The start checks with a legal OP are the three range checks. -/
theorem State.startCheckFails_iff {s : State} (h : s.op = 1 ∨ s.op = 2 ∨ s.op = 3 ∨ s.op = 4) :
    s.startCheckFails = true ↔ ¬s.RangesPass := by
  simp only [State.startCheckFails, State.RangesPass, State.srcInSpace, State.dstInSpace, rangesMeet, Bool.or_eq_true,
    Bool.not_eq_true', decide_eq_false_iff_not, Bool.or_eq_false_iff, Bool.and_eq_true, decide_eq_true_eq,
    beq_eq_false_iff_ne]
  omega

/-- A reserved OP fails the first start check. -/
theorem State.startCheckFails_reserved {s : State} (h : s.op ∉ [1, 2, 3, 4]) : s.startCheckFails = true := by
  simp only [List.mem_cons, List.not_mem_nil, or_false, not_or] at h
  simp [State.startCheckFails, h]

/-- A job's registers as its command latches them: the checks see the ranges the host wrote. -/
theorem latchStart_startCheckFails {op : BitVec 3} {ie : Bool} {s : State} (hop : op ∈ [(1 : BitVec 3), 2, 3, 4]) :
    (s.latchStart op ie).startCheckFails = true ↔ ¬s.RangesPass := by
  rw [State.startCheckFails_iff]
  · rfl
  · simp only [List.mem_cons, List.not_mem_nil, or_false] at hop
    rcases hop with rfl | rfl | rfl | rfl <;> simp [State.op, State.latchStart]

theorem beginJob_pass {s : State} {body : State → Host.Outcome State Fault Refusal}
    (h : s.startCheckFails = false) : beginJob s body = body s.initJob := if_neg (by simp [h])

theorem beginJob_fail {s : State} {body : State → Host.Outcome State Fault Refusal}
    (h : s.startCheckFails = true) : beginJob s body = .next (s.complete .configInvalid .checked) := if_pos h

theorem unlessDevice_memory {s : State} {body : State → Host.Outcome State Fault Refusal}
    (h : s.coversDevice = false) : unlessDevice s body = body s := if_neg (by simp [h])

theorem unlessDevice_device {s : State} {body : State → Host.Outcome State Fault Refusal}
    (h : s.coversDevice = true) : unlessDevice s body = .refused .deviceRange := if_pos h

/-- A freshly initialised job has written nothing. -/
@[simp] theorem State.written_initJob (s : State) : s.initJob.written = 0 := by
  simp [State.written, State.initJob, Job.initial]

/-- A job whose header is just read has written nothing. -/
@[simp] theorem State.written_readHeader (s : State) : s.initJob.readHeader.written = 0 := by
  simp [State.written, State.readHeader, State.initJob, Job.initial]

theorem bppLegal_iff (b : Nat) : bppLegal b = true ↔ b ∈ [1, 2, 4, 8, 16] := by
  simp [bppLegal, or_assoc]

theorem State.rowUnaligned_iff (s : State) : s.rowUnaligned = true ↔ s.bpp < 8 ∧ s.stride * s.bpp % 8 ≠ 0 := by
  simp [State.rowUnaligned]

theorem Widths.legal_iff (w : Widths) :
    w.legal = true ↔ (1 ≤ w.obits ∧ w.obits ≤ 32) ∧ 1 ≤ w.mbits ∧ w.mbits ≤ 32 := by
  simp [Widths.legal, widthLegal]

theorem lzbHeader_short {s : State} (h : s.srcLen < 8) :
    lzbHeader s = .next (s.complete .truncatedStream .initialised) := if_pos h

theorem lzbHeader_widths {s : State} (h : 8 ≤ s.srcLen) (hw : s.readHeader.widths.legal = false) :
    lzbHeader s = .next (s.readHeader.complete .configInvalid .headerRead) :=
  (if_neg (Nat.not_lt.2 h)).trans (if_pos hw)

theorem lzbHeader_capacity {s : State} (h : 8 ≤ s.srcLen) (hw : s.readHeader.widths.legal = true)
    (hc : s.dstLen < s.readHeader.osize) : lzbHeader s = .next (s.readHeader.complete .capacity .headerRead) :=
  (if_neg (Nat.not_lt.2 h)).trans ((if_neg (by simp [hw])).trans (if_pos hc))

theorem lzbHeader_loop {s : State} (h : 8 ≤ s.srcLen) (hw : s.readHeader.widths.legal = true)
    (hc : s.readHeader.osize ≤ s.dstLen) : lzbHeader s = .next s.readHeader.enterLoop :=
  (if_neg (Nat.not_lt.2 h)).trans ((if_neg (by simp [hw])).trans (if_neg (Nat.not_lt.2 hc)))

end Sys2Proof.Machine
end

