-- ==== Sys2Proof/Laws/Decode.lean ====
section
/-! SUPPORT. Laws/Decode.lean: the decoders' equations, so that no proof unfolds them. -/

namespace Sys2Proof

/-- What the command fetch decodes: the start word of an OP. -/
theorem decodeCtrl_startWord (op : BitVec 3) (ie : Bool) : decodeCtrl (startWord op ie) =
    if op = 1 then .ok (.cmdLzb ie) else if op = 2 then .ok (.cmdRle8 ie) else if op = 3 then .ok (.cmdRle16 ie)
    else if op = 4 then .ok (.cmdConvert ie) else .error (.reservedOp op) := by
  revert op ie
  decide

theorem decodeRle8_nil : decodeRle8 [] = .error (.streamEnd 0) := rfl

theorem decodeRle8_cons (k : Byte) (t : List Byte) : decodeRle8 (k :: t) =
    if k.extractLsb' 6 2 = 0 then .ok (.klit00 (k.extractLsb' 0 6), 1)
    else if k.extractLsb' 6 2 = 1 then .ok (.klit01 (k.extractLsb' 0 6), 1)
    else if k.extractLsb' 6 2 = 2 then .ok (.klit10 (k.extractLsb' 0 6), 1)
    else match t with
      | [] => .error (.streamEnd 1)
      | d :: _ => .ok (.run (k.extractLsb' 0 6) d, 2) := rfl

theorem decodeRle16_three (k b0 b1 : Byte) (t : List Byte) :
    decodeRle16 (k :: b0 :: b1 :: t) = .ok (.unit k b0 b1, 3) := rfl

/-- The GEOM1 word a register holds decodes by its BPP field alone. -/
theorem geom1_bpp (bpp : BitVec 5) (width : BitVec 16) :
    ((0 : BitVec 11) ++ bpp ++ width : Word).extractLsb' 16 5 = bpp := by
  refine BitVec.eq_of_getLsbD_eq fun i hi => ?_
  rw [BitVec.getLsbD_extractLsb', BitVec.getLsbD_append, if_neg (by omega), BitVec.getLsbD_append]
  simp [hi]

theorem decodeGeom1_word (bpp : BitVec 5) (width : BitVec 16) : decodeGeom1 ((0 : BitVec 11) ++ bpp ++ width) =
    if bpp = 1 then .ok .convBpp1 else if bpp = 2 then .ok .convBpp2 else if bpp = 4 then .ok .convBpp4
    else if bpp = 8 then .ok .convBpp8 else if bpp = 16 then .ok .convBpp16 else .error (.reservedBpp bpp) := by
  unfold decodeGeom1
  rw [geom1_bpp]

/-- Two bytes decide an RLE8 token, three an RLE16 token. -/
theorem decodeRle8_take (l : List Byte) : decodeRle8 (l.take 2) = decodeRle8 l := by
  match l with
  | [] => rfl
  | [_] => rfl
  | _ :: _ :: _ => rfl

theorem decodeRle16_take (l : List Byte) : decodeRle16 (l.take 3) = decodeRle16 l := by
  match l with
  | [] => rfl
  | [_] => rfl
  | [_, _] => rfl
  | _ :: _ :: _ :: _ => rfl

end Sys2Proof
end

