-- ==== Sys2Proof/Laws/Step.lean ====
section
/-! SUPPORT. Laws/Step.lean: what a step does for each kind of next event, and what an engine move does for each answer
of its fetch; what the bus access checks let through. -/

namespace Sys2Proof.Machine

theorem step_engine {s : State} (h : s.inbox = []) : step s = engineMove s := by
  simp [step, nextMove, h]

theorem step_engineTurn {s : State} {rest : List BusEvent} (h : s.inbox = .engineTurn :: rest) :
    step s = engineMove (s.withInbox rest) := by
  simp [step, nextMove, h]

theorem step_waitDone {s : State} {rest : List BusEvent} (h : s.inbox = .waitDone :: rest) :
    step s = waitForDone rest s := by
  simp [step, nextMove, h]

theorem step_waitIrq {s : State} {rest : List BusEvent} (h : s.inbox = .waitIrq :: rest) :
    step s = waitForIrq rest s := by
  simp [step, nextMove, h]

theorem step_regWrite {s : State} {off : BitVec 6} {size : Nat} {v : Word} {rest : List BusEvent}
    (h : s.inbox = .regWrite off size v :: rest) : step s = busRegWrite off size v (s.withInbox rest) := by
  simp [step, nextMove, h]

theorem step_regRead {s : State} {off : BitVec 6} {size : Nat} {rest : List BusEvent}
    (h : s.inbox = .regRead off size :: rest) : step s = busRegRead off size (s.withInbox rest) := by
  simp [step, nextMove, h]

theorem step_memWrite {s : State} {a : Word} {b : Byte} {rest : List BusEvent}
    (h : s.inbox = .memWrite a b :: rest) : step s = busMemWrite a b (s.withInbox rest) := by
  simp [step, nextMove, h]

theorem step_memRead {s : State} {a : Word} {rest : List BusEvent}
    (h : s.inbox = .memRead a :: rest) : step s = busMemRead a (s.withInbox rest) := by
  simp [step, nextMove, h]

theorem step_resetAssert {s : State} {rest : List BusEvent} (h : s.inbox = .resetAssert :: rest) :
    step s = busResetAssert (s.withInbox rest) := by
  simp [step, nextMove, h]

theorem step_resetRelease {s : State} {rest : List BusEvent} (h : s.inbox = .resetRelease :: rest) :
    step s = busResetRelease (s.withInbox rest) := by
  simp [step, nextMove, h]

/-- `k + 1` steps of a machine whose first step goes on are `k` steps from there. -/
theorem coreRun_next (M : Host.Core) (k : Nat) (s t : M.State) (h : M.step s = .next t) :
    M.run (k + 1) s = M.run k t := by
  simp only [Host.Core.run, h]

theorem run_zero (s : State) : Host.Core.run core 0 s = .next s := rfl

theorem run_next {s t : State} {k : Nat} (h : step s = .next t) :
    Host.Core.run core (k + 1) s = Host.Core.run core k t := coreRun_next core k s t h

theorem engineMove_wait {s : State} (h : s.fetch = .wait) : engineMove s = .next s := by
  simp [engineMove, h]

theorem engineMove_run {s s' : State} {i : Instr} (h : s.fetch = .run i s') : engineMove s = exec i s' := by
  simp [engineMove, h]

theorem engineMove_ended {s s' : State} {e : ErrCode} {p : Progress} (h : s.fetch = .ended e p s') :
    engineMove s = .next (s'.complete e p) := by
  simp [engineMove, h]

theorem engineMove_broken {s : State} {f : Fault} (h : s.fetch = .broken f) : engineMove s = .fault f := by
  simp [engineMove, h]

theorem State.fetch_idle {s : State} (h : s.phase = .idle) : s.fetch = .wait := by
  simp [State.fetch, h]

theorem State.fetch_starting {s : State} (h : s.phase = .starting) : s.fetch = s.fetchCommand := by
  simp [State.fetch, h]

theorem State.fetch_running {s : State} (h : s.phase = .running) : s.fetch = s.fetchRunning := by
  simp [State.fetch, h]

theorem alignedWord_iff (off : BitVec 6) (size : Nat) :
    alignedWord off size = true ↔ size = 4 ∧ off.toNat % 4 = 0 := by
  simp [alignedWord]

theorem State.registerAccess_word {s s' : State} {off : BitVec 6} (hr : s.inReset = false)
    (ho : off.toNat % 4 = 0) : s.registerAccess off 4 s' = .next s' := by
  simp [State.registerAccess, hr, alignedWord, ho]

theorem State.registerAccess_inReset {s s' : State} {off : BitVec 6} {size : Nat} (hr : s.inReset = true) :
    s.registerAccess off size s' = .refused .windowInReset := by
  simp [State.registerAccess, hr]

theorem State.registerAccess_bad {s s' : State} {off : BitVec 6} {size : Nat} (hr : s.inReset = false)
    (h : size ≠ 4 ∨ off.toNat % 4 ≠ 0) : s.registerAccess off size s' = .refused .registerAccess := by
  simp only [State.registerAccess, hr, alignedWord]
  rcases h with h | h <;> simp [h]

theorem State.memoryAccess_ordinary {s : State} {a : Nat} {r : Host.Outcome State Fault Refusal}
    (hw : s.inWindow a = false) (hd : s.inDevice a = false) : s.memoryAccess a r = r := by
  simp [State.memoryAccess, hw, hd]

/-- An aligned word write outside reset is performed. -/
theorem step_regWrite_word {s : State} {off : BitVec 6} {v : Word} {rest : List BusEvent} (hr : s.inReset = false)
    (hi : s.inbox = .regWrite off 4 v :: rest) (ho : off.toNat % 4 = 0) :
    step s = .next ((s.withInbox rest).writeRegister off v) :=
  (step_regWrite hi).trans (State.registerAccess_word (s := s.withInbox rest) hr ho)

/-- An aligned word read outside reset is performed. -/
theorem step_regRead_word {s : State} {off : BitVec 6} {rest : List BusEvent} (hr : s.inReset = false)
    (hi : s.inbox = .regRead off 4 :: rest) (ho : off.toNat % 4 = 0) :
    step s = .next ((s.withInbox rest).readRegister off) :=
  (step_regRead hi).trans (State.registerAccess_word (s := s.withInbox rest) hr ho)

/-- A byte write to ordinary memory outside a running job's ranges is performed. -/
theorem step_memWrite_free {s : State} {a : Word} {b : Byte} {rest : List BusEvent}
    (hi : s.inbox = .memWrite a b :: rest) (hw : s.inWindow a.toNat = false) (hd : s.inDevice a.toNat = false)
    (hf : s.busy = true → s.inSrc a.toNat = false ∧ s.inDst a.toNat = false) :
    step s = .next ((s.withInbox rest).withMem (s.mem.write a.toNat b)) := by
  refine (step_memWrite hi).trans
    ((State.memoryAccess_ordinary (s := s.withInbox rest) hw hd).trans (if_neg fun h => ?_))
  obtain ⟨hb, h⟩ := (Bool.and_eq_true _ _).mp h
  obtain ⟨h1, h2⟩ := hf hb
  have h' : (s.inSrc a.toNat || s.inDst a.toNat) = true := h
  simp [h1, h2] at h'

/-- A read of a byte of ordinary memory that no running job writes returns it. -/
theorem step_memRead_value {s : State} {a : Word} {rest : List BusEvent} (hi : s.inbox = .memRead a :: rest)
    (hw : s.inWindow a.toNat = false) (hd : s.inDevice a.toNat = false)
    (hf : s.busy = true → s.inDst a.toNat = false) :
    step s = .next ((s.withInbox rest).reply (.byte (s.mem.read a.toNat))) := by
  refine (step_memRead hi).trans
    ((State.memoryAccess_ordinary (s := s.withInbox rest) hw hd).trans (if_neg fun h => ?_))
  obtain ⟨hb, h⟩ := (Bool.and_eq_true _ _).mp h
  have h' : s.inDst a.toNat = true := h
  simp [hf hb] at h'

end Sys2Proof.Machine
end

