-- ==== Sys2Proof/Laws/JobEnd.lean ====
section
/-! SUPPORT. Laws/JobEnd.lean: what an engine move leaves alone, that `jobEnd` is the completion the engine's own steps
reach, and what a draw of a BUSY job's destination byte can be. -/

namespace Sys2Proof.Machine

/-! ### An engine move leaves the outside world alone -/

theorem SameWorld.trans {s t u : State} (h : SameWorld s t) (h' : SameWorld t u) : SameWorld s u := by
  obtain ⟨a, b, c, d, e, f⟩ := h
  obtain ⟨a', b', c', d', e', f'⟩ := h'
  exact ⟨a'.trans a, b'.trans b, c'.trans c, d'.trans d, e'.trans e, f'.trans f⟩

theorem SameWorld.refl (s : State) : SameWorld s s := ⟨rfl, rfl, rfl, rfl, rfl, rfl⟩

theorem complete_sameWorld (e : ErrCode) (p : Progress) (s : State) : SameWorld s (s.complete e p) :=
  ⟨rfl, rfl, rfl, rfl, rfl, rfl⟩

theorem State.takeBits_sameWorld {n v : Nat} {s s' : State} (h : s.takeBits n = some (v, s')) : SameWorld s s' := by
  simp only [State.takeBits] at h
  split at h
  · cases h
    exact ⟨rfl, rfl, rfl, rfl, rfl, rfl⟩
  · split at h
    · cases h
    · cases h
      exact ⟨rfl, rfl, rfl, rfl, rfl, rfl⟩

/-- The shared parts of a meaning: a next state only where the guard lets one through. -/
theorem next_of_guard {P : Prop} [Decidable P] {o : Host.Outcome State Fault Refusal} {f : Fault} {t : State}
    (h : (if P then o else .fault f) = .next t) : o = .next t := by
  split at h
  · exact h
  · cases h

theorem beginJob_sameWorld {s t : State} {body : State → Host.Outcome State Fault Refusal}
    (hb : ∀ u, SameWorld s u → body u = .next t → SameWorld s t) (h : beginJob s body = .next t) : SameWorld s t := by
  unfold beginJob at h
  split at h
  · cases h
    exact complete_sameWorld _ _ _
  · exact hb s.initJob ⟨rfl, rfl, rfl, rfl, rfl, rfl⟩ h

theorem unlessDevice_next {s t : State} {body : State → Host.Outcome State Fault Refusal}
    (h : unlessDevice s body = .next t) : body s = .next t := by
  unfold unlessDevice at h
  split at h
  · cases h
  · exact h

theorem lzbHeader_sameWorld {s t : State} (h : lzbHeader s = .next t) : SameWorld s t := by
  unfold lzbHeader at h
  split at h
  · cases h
    exact complete_sameWorld _ _ _
  · split at h
    · cases h
      exact ⟨rfl, rfl, rfl, rfl, rfl, rfl⟩
    · split at h <;> cases h <;> exact ⟨rfl, rfl, rfl, rfl, rfl, rfl⟩

theorem State.putKey_sameWorld {k : Byte} {s t : State} (h : s.putKey k = .next t) : SameWorld s t := by
  cases next_of_guard h
  exact ⟨rfl, rfl, rfl, rfl, rfl, rfl⟩

theorem State.convertPixel_sameWorld {bpp : Nat} {v : Pixel} {s t : State} (h : s.convertPixel bpp v = .next t) :
    SameWorld s t := by
  cases next_of_guard h
  exact ⟨rfl, rfl, rfl, rfl, rfl, rfl⟩

theorem exec_sameWorld {i : Instr} {s t : State} (h : exec i s = .next t) : SameWorld s t := by
  cases i with
  | cmdLzb ie =>
    exact beginJob_sameWorld (s := s.latchStart 1 ie)
      (fun u hu h => hu.trans (lzbHeader_sameWorld (unlessDevice_next h))) h
  | cmdRle8 ie =>
    simp only [exec, execCmdRle8] at h
    refine beginJob_sameWorld (s := s.latchStart 2 ie) (fun u hu h => ?_) h
    cases unlessDevice_next h
    exact hu
  | cmdRle16 ie =>
    simp only [exec, execCmdRle16] at h
    refine beginJob_sameWorld (s := s.latchStart 3 ie) (fun u hu h => ?_) h
    split at h
    · cases h
      exact hu.trans (complete_sameWorld _ _ _)
    · cases unlessDevice_next h
      exact hu
  | cmdConvert ie =>
    simp only [exec, execCmdConvert] at h
    refine beginJob_sameWorld (s := s.latchStart 4 ie) (fun u hu h => ?_) h
    split at h
    · cases h
      exact hu.trans (complete_sameWorld _ _ _)
    · split at h
      · cases h
        exact hu.trans (complete_sameWorld _ _ _)
      · split at h
        · cases h
          exact hu.trans (complete_sameWorld _ _ _)
        · cases unlessDevice_next h
          exact hu
  | lit l =>
    cases next_of_guard h
    exact ⟨rfl, rfl, rfl, rfl, rfl, rfl⟩
  | ref o m =>
    replace h : execRef o m s = .next t := h
    unfold execRef at h
    split at h
    · cases h
      exact complete_sameWorld _ _ _
    · cases next_of_guard h
      exact ⟨rfl, rfl, rfl, rfl, rfl, rfl⟩
  | run c d =>
    cases next_of_guard h
    exact ⟨rfl, rfl, rfl, rfl, rfl, rfl⟩
  | klit00 l => exact State.putKey_sameWorld h
  | klit01 l => exact State.putKey_sameWorld h
  | klit10 l => exact State.putKey_sameWorld h
  | unit k b0 b1 =>
    cases next_of_guard h
    exact ⟨rfl, rfl, rfl, rfl, rfl, rfl⟩
  | convBpp1 => exact State.convertPixel_sameWorld h
  | convBpp2 => exact State.convertPixel_sameWorld h
  | convBpp4 => exact State.convertPixel_sameWorld h
  | convBpp8 => exact State.convertPixel_sameWorld h
  | convBpp16 => exact State.convertPixel_sameWorld h

/-- A fetch changes the internal job state alone. -/
abbrev Fetched.From (s : State) : Fetched → Prop
  | .wait => True
  | .run _ s' => SameWorld s s'
  | .ended _ _ s' => SameWorld s s'
  | .broken _ => True

theorem State.fetchLzb_from (s : State) : s.fetchLzb.From s := by
  unfold State.fetchLzb
  split
  · trivial
  · split
    · exact SameWorld.refl s
    · rename_i c s1 h1
      have w1 := State.takeBits_sameWorld h1
      split
      · split
        · exact w1
        · rename_i l s2 h2
          exact w1.trans (State.takeBits_sameWorld h2)
      · split
        · exact w1
        · rename_i o s2 h2
          have w2 := w1.trans (State.takeBits_sameWorld h2)
          split
          · exact w2
          · rename_i m s3 h3
            exact w2.trans (State.takeBits_sameWorld h3)

theorem State.fetchedBytes_from (s : State) (r : Except Reject (Instr × Nat)) : (s.fetchedBytes r).From s := by
  unfold State.fetchedBytes
  split
  · exact ⟨rfl, rfl, rfl, rfl, rfl, rfl⟩
  · exact ⟨rfl, rfl, rfl, rfl, rfl, rfl⟩
  · trivial

theorem State.fetchPixel_from (s : State) : s.fetchPixel.From s := by
  unfold State.fetchPixel
  split
  · exact SameWorld.refl s
  · trivial

theorem State.fetchRunning_from (s : State) : s.fetchRunning.From s := by
  unfold State.fetchRunning
  split
  · trivial
  · split
    · exact SameWorld.refl s
    · split
      · exact s.fetchLzb_from
      · split
        · exact s.fetchedBytes_from _
        · split
          · exact s.fetchedBytes_from _
          · split
            · exact s.fetchPixel_from
            · trivial

theorem State.fetch_from (s : State) : s.fetch.From s := by
  unfold State.fetch
  split
  · trivial
  · unfold State.fetchCommand
    split
    · exact SameWorld.refl s
    · exact SameWorld.refl s
  · exact s.fetchRunning_from

theorem engineMove_sameWorld {s t : State} (h : engineMove s = .next t) : SameWorld s t := by
  have hf := s.fetch_from
  unfold engineMove at h
  split at h <;> rename_i e
  · cases h
    exact SameWorld.refl s
  · rw [e] at hf
    exact SameWorld.trans hf (exec_sameWorld h)
  · rw [e] at hf
    cases h
    exact SameWorld.trans hf (complete_sameWorld _ _ _)
  · cases h

/-! ### The completion of the job in progress -/

theorem runJob_idle {n : Nat} {s t : State} (h : runJob n s = some t) : t.phase = .idle := by
  induction n generalizing s with
  | zero => cases h
  | succ n ih =>
    simp only [runJob] at h
    split at h
    · split at h
      · cases h
        assumption
      · exact ih h
    · cases h
    · cases h

/-- Left alone, an idle block stays as it is. -/
theorem run_idle {s : State} (hp : s.phase = .idle) (hi : s.inbox = []) (k : Nat) :
    Host.Core.run core k s = .next s := by
  induction k with
  | zero => rfl
  | succ k ih => exact (run_next ((step_engine hi).trans (engineMove_wait (State.fetch_idle hp)))).trans ih

/-- Any run of the engine alone that ends idle ends where `runJob` says. -/
theorem runJob_unique {n k : Nat} {s t u : State} (hi : s.inbox = []) (h : runJob n s = some t)
    (hr : Host.Core.run core k s = .next u) (hu : u.phase = .idle) : u = t := by
  induction n generalizing s k with
  | zero => cases h
  | succ n ih =>
    simp only [runJob] at h
    split at h
    · rename_i v hv
      have hvi : v.inbox = [] := (engineMove_sameWorld hv).2.2.1.trans hi
      have hs : step s = .next v := (step_engine hi).trans hv
      cases k with
      | zero =>
        cases hr
        rw [engineMove_wait (State.fetch_idle hu)] at hv
        cases hv
        rw [if_pos hu] at h
        exact Option.some.inj h
      | succ k =>
        replace hr := (run_next hs).symm.trans hr
        split at h
        · rename_i hp
          cases h
          exact (Host.Outcome.next.inj ((run_idle hp hvi k).symm.trans hr)).symm
        · exact ih hvi h hr
    · cases h
    · cases h

/-- A run of the engine alone that ends idle within `n` moves is found. -/
theorem runJob_of_run {n k : Nat} {s u : State} (hi : s.inbox = []) (hb : s.phase ≠ .idle) (hk : k ≤ n)
    (hr : Host.Core.run core k s = .next u) (hu : u.phase = .idle) : runJob n s = some u := by
  induction n generalizing s k with
  | zero =>
    obtain rfl : k = 0 := Nat.le_zero.1 hk
    cases hr
    exact absurd hu hb
  | succ n ih =>
    cases k with
    | zero =>
      cases hr
      exact absurd hu hb
    | succ k =>
      simp only [Host.Core.run] at hr
      split at hr
      · rename_i v hv
        replace hv : engineMove s = .next v := (step_engine hi).symm.trans hv
        have hvi : v.inbox = [] := (engineMove_sameWorld hv).2.2.1.trans hi
        simp only [runJob, hv]
        split
        · rename_i hp
          exact congrArg some (Host.Outcome.next.inj ((run_idle hp hvi k).symm.trans hr))
        · rename_i hp
          exact ih hvi hp (Nat.le_of_succ_le_succ hk) hr
      · cases hr
      · cases hr

/-- `jobEnd` is where the engine's own steps end. -/
theorem State.jobEnd_eq {k : Nat} {s u : State} (hb : s.phase ≠ .idle) (hk : k ≤ s.moveBound)
    (hr : Host.Core.run core k (s.withInbox []) = .next u) (hu : u.phase = .idle) : s.jobEnd = some u :=
  runJob_of_run (s := s.withInbox []) rfl hb hk hr hu

theorem State.jobEnd_unique {k : Nat} {s t u : State} (h : s.jobEnd = some t)
    (hr : Host.Core.run core k (s.withInbox []) = .next u) (hu : u.phase = .idle) : u = t :=
  runJob_unique (s := s.withInbox []) rfl h hr hu

/-! ### What a draw can be -/

theorem State.drawByte_cases {s t : State} (a n : Nat) :
    s.drawByte (some t) a n = t.mem.read a ∨ s.drawByte (some t) a n = s.before.read a ∨
      (s.dstAddr + t.win.dstPos.toNat ≤ a ∧ s.drawByte (some t) a n = s.mem.read a) := by
  simp only [State.drawByte]
  split
  · split
    · exact .inl rfl
    · exact .inr (.inl rfl)
  · rename_i h
    exact .inr (.inr ⟨Nat.not_lt.1 h, rfl⟩)

theorem State.drawByte_unwritten {s t : State} {a n : Nat} (h : s.dstAddr + t.win.dstPos.toNat ≤ a) :
    s.drawByte (some t) a n = s.mem.read a := if_neg (Nat.not_lt.2 h)

theorem State.unwrittenFrom_iff (s : State) (n : Nat) :
    s.unwrittenFrom n = true ↔ ∀ i, i < s.dstLen → n ≤ i → s.before.read (s.dstAddr + i) = s.dst i :=
  decide_eq_true_iff

end Sys2Proof.Machine
end

