-- ==== Sys2Proof/Laws/Memory.lean ====
section
/-! SUPPORT. Laws/Memory.lean: the laws of memory: reading after writing, the canonical form, filling and copying. -/

namespace Sys2Proof.Machine

/-! ### One byte -/

@[simp] theorem Memory.read_nil (a : Nat) : Memory.read [] a = Config.blankByte := rfl

theorem Memory.wfFrom_cons {lo k : Nat} {v : Byte} {t : Memory} :
    Memory.wfFrom lo ((k, v) :: t) = true ↔
      lo ≤ k ∧ k < spaceSize ∧ v ≠ Config.blankByte ∧ Memory.wfFrom (k + 1) t = true := by
  simp [Memory.wfFrom, and_assoc]

/-- A larger lower bound is the stronger one. -/
theorem Memory.wfFrom_mono {lo lo' : Nat} {m : Memory} (h : Memory.wfFrom lo m = true) (hl : lo' ≤ lo) :
    Memory.wfFrom lo' m = true := by
  cases m with
  | nil => rfl
  | cons c t =>
    rw [Memory.wfFrom_cons] at h ⊢
    exact ⟨by omega, h.2⟩

/-- Below the lower bound nothing is listed. -/
theorem Memory.read_below {lo a : Nat} {m : Memory} (h : Memory.wfFrom lo m = true) (ha : a < lo) :
    m.read a = Config.blankByte := by
  induction m generalizing lo with
  | nil => rfl
  | cons c t ih =>
    obtain ⟨k, v⟩ := c
    rw [Memory.wfFrom_cons] at h
    have hk : k ≠ a := by omega
    rw [Memory.read, if_neg hk]
    exact ih h.2.2.2 (by omega)

/-- A read after a write: the written byte at its address, the old byte elsewhere. -/
theorem Memory.read_write_from {lo : Nat} {m : Memory} (h : Memory.wfFrom lo m = true) (a b : Nat) (v : Byte) :
    (m.write a v).read b = if a = b then v else m.read b := by
  induction m generalizing lo with
  | nil =>
    unfold Memory.write
    split_ifs <;> simp_all [Memory.read]
  | cons c t ih =>
    obtain ⟨k, w⟩ := c
    rw [Memory.wfFrom_cons] at h
    have hlow : ∀ a, a < k + 1 → Memory.read t a = Config.blankByte := fun a ha => Memory.read_below h.2.2.2 ha
    have hrec := ih h.2.2.2
    unfold Memory.write
    by_cases h1 : a < k
    · rw [if_pos h1]
      by_cases hv : v = Config.blankByte
      · rw [if_pos hv]
        by_cases hab : a = b
        · rw [if_pos hab, Memory.read, if_neg (by omega), hlow b (by omega), hv]
        · rw [if_neg hab]
      · rw [if_neg hv, Memory.read]
    · rw [if_neg h1]
      by_cases h2 : a = k
      · subst h2
        rw [if_pos rfl]
        by_cases hv : v = Config.blankByte
        · rw [if_pos hv]
          by_cases hab : a = b
          · rw [if_pos hab, ← hab, hlow a (by omega), hv]
          · rw [if_neg hab, Memory.read, if_neg hab]
        · rw [if_neg hv, Memory.read]
          by_cases hab : a = b
          · rw [if_pos hab, if_pos hab]
          · rw [if_neg hab, if_neg hab, Memory.read, if_neg hab]
      · rw [if_neg h2, Memory.read]
        by_cases hkb : k = b
        · rw [if_pos hkb, if_neg (by omega), Memory.read, if_pos hkb]
        · rw [if_neg hkb, hrec, Memory.read, if_neg hkb]

theorem Memory.read_write {m : Memory} (h : m.wf = true) (a b : Nat) (v : Byte) :
    (m.write a v).read b = if a = b then v else m.read b := Memory.read_write_from h a b v

/-- A write keeps the canonical form. -/
theorem Memory.wfFrom_write {lo : Nat} {m : Memory} (h : Memory.wfFrom lo m = true) {a : Nat} (v : Byte)
    (hlo : lo ≤ a) (ha : a < spaceSize) : Memory.wfFrom lo (m.write a v) = true := by
  induction m generalizing lo with
  | nil =>
    unfold Memory.write
    split_ifs with hv
    · rfl
    · rw [Memory.wfFrom_cons]
      exact ⟨hlo, ha, hv, rfl⟩
  | cons c t ih =>
    obtain ⟨k, w⟩ := c
    rw [Memory.wfFrom_cons] at h
    unfold Memory.write
    split_ifs with h1 h2 h3 h4
    · rw [Memory.wfFrom_cons]; exact h
    · rw [Memory.wfFrom_cons, Memory.wfFrom_cons]
      exact ⟨hlo, ha, h2, by omega, h.2.1, h.2.2.1, h.2.2.2⟩
    · exact Memory.wfFrom_mono h.2.2.2 (by omega)
    · rw [Memory.wfFrom_cons]
      exact ⟨hlo, ha, h4, by rw [h3]; exact h.2.2.2⟩
    · rw [Memory.wfFrom_cons]
      exact ⟨h.1, h.2.1, h.2.2.1, ih h.2.2.2 (by omega)⟩

theorem Memory.wf_write {m : Memory} (h : m.wf = true) {a : Nat} (v : Byte) (ha : a < spaceSize) :
    (m.write a v).wf = true := Memory.wfFrom_write h v (Nat.zero_le a) ha

/-- In the canonical form, memories that read alike are equal. -/
theorem Memory.ext_of_read {lo : Nat} {m m' : Memory} (h : Memory.wfFrom lo m = true)
    (h' : Memory.wfFrom lo m' = true) (hr : ∀ a, m.read a = m'.read a) : m = m' := by
  induction m generalizing lo m' with
  | nil =>
    cases m' with
    | nil => rfl
    | cons c t =>
      obtain ⟨k, v⟩ := c
      rw [Memory.wfFrom_cons] at h'
      have := hr k
      simp only [Memory.read, if_true] at this
      exact absurd this.symm h'.2.2.1
  | cons c t ih =>
    obtain ⟨k, v⟩ := c
    cases m' with
    | nil =>
      rw [Memory.wfFrom_cons] at h
      have := hr k
      simp only [Memory.read, if_true] at this
      exact absurd this h.2.2.1
    | cons c' t' =>
      obtain ⟨k', v'⟩ := c'
      rw [Memory.wfFrom_cons] at h h'
      have hk : k = k' := by
        by_contra hne
        rcases Nat.lt_or_gt_of_ne hne with hlt | hgt
        · have hx := hr k
          rw [Memory.read, if_pos rfl, Memory.read, if_neg (by omega),
            Memory.read_below h'.2.2.2 (by omega)] at hx
          exact h.2.2.1 hx
        · have hx := hr k'
          rw [Memory.read, if_neg hne, Memory.read_below h.2.2.2 (by omega), Memory.read, if_pos rfl] at hx
          exact h'.2.2.1 hx.symm
      subst hk
      have hv : v = v' := by
        have hx := hr k
        rwa [Memory.read, if_pos rfl, Memory.read, if_pos rfl] at hx
      subst hv
      have ht : t = t' := ih h.2.2.2 h'.2.2.2 fun a => by
        by_cases ha : k = a
        · rw [Memory.read_below h.2.2.2 (by omega), Memory.read_below h'.2.2.2 (by omega)]
        · have hx := hr a
          rwa [Memory.read, if_neg ha, Memory.read, if_neg ha] at hx
      rw [ht]

/-! ### Many bytes -/

theorem Memory.wf_fill {m : Memory} (h : m.wf = true) (a : Nat) (f : Nat → Byte) :
    ∀ n, a + n ≤ spaceSize → (m.fill a f n).wf = true
  | 0, _ => h
  | n + 1, hn => Memory.wf_write (Memory.wf_fill h a f n (by omega)) _ (by omega)

/-- Filling writes exactly the `n` bytes from `a`. -/
theorem Memory.read_fill {m : Memory} (h : m.wf = true) (a : Nat) (f : Nat → Byte) (b : Nat) :
    ∀ n, a + n ≤ spaceSize → (m.fill a f n).read b = if a ≤ b ∧ b < a + n then f (b - a) else m.read b
  | 0, _ => by rw [if_neg (by omega)]; rfl
  | n + 1, hn => by
    rw [Memory.fill, Memory.read_write (Memory.wf_fill h a f n (by omega)), Memory.read_fill h a f b n (by omega)]
    by_cases hb : a + n = b
    · subst hb; simp
    · rw [if_neg hb]
      by_cases hc : a ≤ b ∧ b < a + n
      · rw [if_pos hc, if_pos (by omega)]
      · rw [if_neg hc, if_neg (by omega)]

theorem Memory.wf_copyBytes {m : Memory} (h : m.wf = true) (dst src : Nat) :
    ∀ n, dst + n ≤ spaceSize → (m.copyBytes dst src n).wf = true
  | 0, _ => h
  | n + 1, hn => Memory.wf_write (Memory.wf_copyBytes h dst src n (by omega)) _ (by omega)

/-- Copying changes only the `n` bytes from `dst`. -/
theorem Memory.read_copyBytes_outside {m : Memory} (h : m.wf = true) (dst src b : Nat) :
    ∀ n, dst + n ≤ spaceSize → ¬(dst ≤ b ∧ b < dst + n) → (m.copyBytes dst src n).read b = m.read b
  | 0, _, _ => rfl
  | n + 1, hn, hb => by
    rw [Memory.copyBytes, Memory.read_write (Memory.wf_copyBytes h dst src n (by omega)), if_neg (by omega)]
    exact Memory.read_copyBytes_outside h dst src b n (by omega) (by omega)

/-- A copy from `d` bytes before repeats the last `d` bytes (41_lzb.md R116). -/
theorem Memory.read_copyBytes {m : Memory} (h : m.wf = true) (src d : Nat) (hd : 0 < d) (i : Nat) :
    ∀ n, src + d + n ≤ spaceSize → i < n →
      (m.copyBytes (src + d) src n).read (src + d + i) = m.read (src + i % d)
  | 0, _, hi => by omega
  | n + 1, hn, hi => by
    have hwf := Memory.wf_copyBytes h (src + d) src n (by omega)
    rw [Memory.copyBytes, Memory.read_write hwf]
    by_cases hin : i = n
    · subst hin
      rw [if_pos rfl]
      by_cases hlt : i < d
      · rw [Memory.read_copyBytes_outside h _ _ _ i (by omega) (by omega), Nat.mod_eq_of_lt hlt]
      · have hs : src + i = src + d + (i - d) := by omega
        rw [hs, Memory.read_copyBytes h src d hd (i - d) i (by omega) (by omega),
          ← Nat.mod_eq_sub_mod (by omega : i ≥ d)]
    · rw [if_neg (by omega)]
      exact Memory.read_copyBytes h src d hd i n (by omega) (by omega)

end Sys2Proof.Machine
end

