-- ==== Sys2Proof/Laws/PerInstr.lean ====
section
/-! SUPPORT. Laws/PerInstr.lean: what is said of every instruction as syntax, one lemma per constructor. -/

namespace Sys2Proof.Laws

/-- The encoding of an instruction has the size the spec gives it (30_encoding.md R73, R79). -/
def EncodedSize.Statement (i : Instr) : Prop := ∀ w : Widths, (encode w i).units = i.size w

theorem EncodedSize.cmdLzb (ie : Bool) : EncodedSize.Statement (.cmdLzb ie) := fun _ => rfl
theorem EncodedSize.cmdRle8 (ie : Bool) : EncodedSize.Statement (.cmdRle8 ie) := fun _ => rfl
theorem EncodedSize.cmdRle16 (ie : Bool) : EncodedSize.Statement (.cmdRle16 ie) := fun _ => rfl
theorem EncodedSize.cmdConvert (ie : Bool) : EncodedSize.Statement (.cmdConvert ie) := fun _ => rfl
theorem EncodedSize.lit (l : Byte) : EncodedSize.Statement (.lit l) := fun _ => by
  simp [encode, Code.units, Instr.size]
theorem EncodedSize.ref (o m : Word) : EncodedSize.Statement (.ref o m) := fun w => by
  simp [encode, Code.units, Instr.size]; omega
theorem EncodedSize.run (c : BitVec 6) (d : Byte) : EncodedSize.Statement (.run c d) := fun _ => rfl
theorem EncodedSize.klit00 (l : BitVec 6) : EncodedSize.Statement (.klit00 l) := fun _ => rfl
theorem EncodedSize.klit01 (l : BitVec 6) : EncodedSize.Statement (.klit01 l) := fun _ => rfl
theorem EncodedSize.klit10 (l : BitVec 6) : EncodedSize.Statement (.klit10 l) := fun _ => rfl
theorem EncodedSize.unit (k b0 b1 : Byte) : EncodedSize.Statement (.unit k b0 b1) := fun _ => rfl
theorem EncodedSize.convBpp1 : EncodedSize.Statement .convBpp1 := fun _ => rfl
theorem EncodedSize.convBpp2 : EncodedSize.Statement .convBpp2 := fun _ => rfl
theorem EncodedSize.convBpp4 : EncodedSize.Statement .convBpp4 := fun _ => rfl
theorem EncodedSize.convBpp8 : EncodedSize.Statement .convBpp8 := fun _ => rfl
theorem EncodedSize.convBpp16 : EncodedSize.Statement .convBpp16 := fun _ => rfl

end Sys2Proof.Laws
end

