-- ==== Sys2Proof/Laws/Registers.lean ====
section
/-! SUPPORT. Laws/Registers.lean: reading and writing each register of the window, one lemma an offset. -/

namespace Sys2Proof.Machine

@[simp] theorem State.register_ctrl (s : State) : s.register 0x00 = s.ctrlWord := rfl
@[simp] theorem State.register_status (s : State) : s.register 0x04 = s.statusWord := rfl
@[simp] theorem State.register_srcAddr (s : State) : s.register 0x08 = s.win.srcAddr := rfl
@[simp] theorem State.register_srcLen (s : State) : s.register 0x0C = s.win.srcLen := rfl
@[simp] theorem State.register_dstAddr (s : State) : s.register 0x10 = s.win.dstAddr := rfl
@[simp] theorem State.register_dstLen (s : State) : s.register 0x14 = s.win.dstLen := rfl
@[simp] theorem State.register_geom0 (s : State) : s.register 0x18 = s.geom0Word := rfl
@[simp] theorem State.register_geom1 (s : State) : s.register 0x1C = s.geom1Word := rfl
@[simp] theorem State.register_srcPos (s : State) : s.register 0x20 = s.win.srcPos := rfl
@[simp] theorem State.register_dstPos (s : State) : s.register 0x24 = s.win.dstPos := rfl
@[simp] theorem State.register_lzbOsize (s : State) : s.register 0x28 = s.win.lzbOsize := rfl
@[simp] theorem State.register_lzbWidths (s : State) : s.register 0x2C = s.win.lzbWidths := rfl

/-- The twelve offsets that hold a register. -/
def registerOffsets : List (BitVec 6) :=
  [0x00, 0x04, 0x08, 0x0C, 0x10, 0x14, 0x18, 0x1C, 0x20, 0x24, 0x28, 0x2C]

theorem State.register_reserved {s : State} {off : BitVec 6} (h : off ∉ registerOffsets) : s.register off = 0 := by
  simp only [registerOffsets, List.mem_cons, List.not_mem_nil, or_false, not_or] at h
  simp only [State.register, h, if_false]

/-- Two states agree on a register when they agree on it at each of the twelve offsets it may be. -/
theorem State.register_congr {s t : State} {off : BitVec 6}
    (h : ∀ o ∈ registerOffsets, o = off → s.register o = t.register o) : s.register off = t.register off := by
  by_cases ho : off ∈ registerOffsets
  · exact h off ho rfl
  · rw [State.register_reserved ho, State.register_reserved ho]

theorem State.writeRegister_ctrl (v : Word) (s : State) : s.writeRegister 0x00 v = s.writeCtrl v := rfl
theorem State.writeRegister_status (v : Word) (s : State) : s.writeRegister 0x04 v = s.writeStatus v := rfl
theorem State.writeRegister_srcAddr (v : Word) (s : State) :
    s.writeRegister 0x08 v = s.writeParam { s.win with srcAddr := v } := rfl
theorem State.writeRegister_srcLen (v : Word) (s : State) :
    s.writeRegister 0x0C v = s.writeParam { s.win with srcLen := v } := rfl
theorem State.writeRegister_dstAddr (v : Word) (s : State) :
    s.writeRegister 0x10 v = s.writeParam { s.win with dstAddr := v } := rfl
theorem State.writeRegister_dstLen (v : Word) (s : State) :
    s.writeRegister 0x14 v = s.writeParam { s.win with dstLen := v } := rfl
theorem State.writeRegister_geom0 (v : Word) (s : State) :
    s.writeRegister 0x18 v = s.writeParam { s.win with stride := v.extractLsb' 0 16, height := v.extractLsb' 16 16 } :=
  rfl
theorem State.writeRegister_geom1 (v : Word) (s : State) :
    s.writeRegister 0x1C v = s.writeParam { s.win with width := v.extractLsb' 0 16, bpp := v.extractLsb' 16 5 } := rfl

theorem State.writeParam_idle {w : Window} {s : State} (h : s.busy = false) : s.writeParam w = s.withWin w :=
  if_neg (by simp [h])

theorem State.writeParam_busy {w : Window} {s : State} (h : s.busy = true) : s.writeParam w = s := if_pos h

/-- A write to an offset that holds no writable register is ignored. -/
theorem State.writeRegister_ignored {off : BitVec 6} {v : Word} {s : State} (h : 0x1C < off.toNat) :
    s.writeRegister off v = s := by
  have hk : ∀ k : BitVec 6, k.toNat ≤ 0x1C → off ≠ k := by
    rintro k hk rfl
    omega
  unfold State.writeRegister
  rw [if_neg (hk _ (by decide)), if_neg (hk _ (by decide)), if_neg (hk _ (by decide)), if_neg (hk _ (by decide)),
    if_neg (hk _ (by decide)), if_neg (hk _ (by decide)), if_neg (hk _ (by decide)), if_neg (hk _ (by decide))]

/-- A CTRL write while idle without START. -/
theorem State.writeCtrl_noStart {v : Word} {s : State} (h : s.busy = false) (hv : v.getLsbD 0 = false) :
    s.writeCtrl v = s.withWin { s.win with ie := v.getLsbD 1, op := v.extractLsb' 4 3 } :=
  (if_neg (by simp [h])).trans (if_neg (by rw [hv]; exact Bool.false_ne_true))

/-- A CTRL write while idle with START. -/
theorem State.writeCtrl_start {v : Word} {s : State} (h : s.busy = false) (hv : v.getLsbD 0 = true) :
    s.writeCtrl v = (s.latchStart (v.extractLsb' 4 3) (v.getLsbD 1)).withBefore s.mem :=
  (if_neg (by simp [h])).trans (if_pos hv)

/-- A CTRL write while BUSY writes IE alone. -/
theorem State.writeCtrl_busy {v : Word} {s : State} (h : s.busy = true) :
    s.writeCtrl v = s.withWin { s.win with ie := v.getLsbD 1 } := if_pos h

theorem isResultOffset_iff (off : BitVec 6) : isResultOffset off = true ↔ off.toNat ∈ [0x20, 0x24, 0x28, 0x2C] := by
  simp [isResultOffset, ← BitVec.toNat_inj]

end Sys2Proof.Machine
end

