-- ==== Sys2Proof/Laws/Tokens.lean ====
section
/-! SUPPORT. Laws/Tokens.lean: for each token and pixel meaning, one lemma that says everything it can do: where it
answers a next state and what that state is, and where it faults. -/

namespace Sys2Proof.Machine

/-- `t` is `s` with the `n` destination bytes from index `i` on written, byte `j` of them as `f j`, and nothing else but
the internal job state changed. -/
structure Stored (s t : State) (i n : Nat) (f : Nat → Byte) : Prop where
  block : SameBlock s t
  wf : t.mem.wf = true
  outside : SameMemoryOutside s t (s.dstAddr + i) n
  bytes : ∀ j, j < n → t.dst (i + j) = f j

theorem State.dstHolds_iff (s : State) (i n : Nat) :
    s.dstHolds i n = true ↔ s.dstAddr + s.dstLen ≤ spaceSize ∧ i + n ≤ s.dstLen := by
  simp [State.dstHolds, State.dstInSpace]

theorem Stored.of_fill {s : State} (hwf : s.mem.wf = true) {i n : Nat} (hh : s.dstHolds i n = true) (f : Nat → Byte)
    (j : Job) : Stored s ((s.withMem (s.mem.fill (s.dstAddr + i) f n)).withJob j) i n f := by
  rw [State.dstHolds_iff] at hh
  have hn : s.dstAddr + i + n ≤ spaceSize := by omega
  refine ⟨⟨rfl, rfl, rfl, rfl, rfl, rfl, rfl, rfl⟩, Memory.wf_fill hwf _ _ _ hn, fun b hb => ?_, fun k hk => ?_⟩
  · exact (Memory.read_fill hwf _ _ b n hn).trans (if_neg hb)
  · refine (Memory.read_fill hwf _ _ (s.dstAddr + (i + k)) n hn).trans ?_
    rw [if_pos (by omega)]
    congr 1
    omega

theorem Stored.of_write {s : State} (hwf : s.mem.wf = true) {i : Nat} (hh : s.dstHolds i 1 = true) (b : Byte)
    (j : Job) : Stored s ((s.withMem (s.mem.write (s.dstAddr + i) b)).withJob j) i 1 fun _ => b := by
  have h := Stored.of_fill hwf hh (fun _ => b) j
  simpa [Memory.fill] using h

/-! ### LZB -/

theorem execLit_next {l : Byte} {s : State} (hwf : s.mem.wf = true) (hh : s.dstHolds s.pos 1 = true) :
    ∃ t, execLit l s = .next t ∧ Stored s t s.pos 1 (fun _ => ~~~l) ∧
      t.job = { s.job with pos := BitVec.ofNat 32 (s.pos + 1) } :=
  ⟨_, if_pos hh, Stored.of_write hwf hh _ _, rfl⟩

theorem execLit_fault {l : Byte} {s : State} (hh : s.dstHolds s.pos 1 = false) :
    execLit l s = .fault .strayAccess := if_neg (by simp [hh])

theorem execRef_invalid {o m : Word} {s : State} (h : o = 0 ∨ s.pos < o.toNat) :
    execRef o m s = .next (s.raise .invalidBackReference) := if_pos h

theorem execRef_next {o m : Word} {s : State} (hwf : s.mem.wf = true) (h0 : 0 < o.toNat) (ho : o.toNat ≤ s.pos)
    (hh : s.dstHolds s.pos (s.refCount m) = true) :
    ∃ t, execRef o m s = .next t ∧
      Stored s t s.pos (s.refCount m) (fun i => s.dst (s.pos - o.toNat + i % o.toNat)) ∧
      t.job = { s.job with pos := BitVec.ofNat 32 (s.pos + s.refCount m) } := by
  have hv : ¬(o = 0 ∨ s.pos < o.toNat) := by
    rintro (h | h)
    · subst h
      simp at h0
    · omega
  refine ⟨_, (if_neg hv).trans (if_pos hh), ⟨⟨rfl, rfl, rfl, rfl, rfl, rfl, rfl, rfl⟩, ?_, ?_, ?_⟩, rfl⟩ <;>
    rw [State.dstHolds_iff] at hh
  · exact Memory.wf_copyBytes hwf _ _ _ (by omega)
  · intro b hb
    exact Memory.read_copyBytes_outside hwf _ _ b _ (by omega) hb
  · intro j hj
    have hd : s.dstAddr + s.pos = s.dstAddr + (s.pos - o.toNat) + o.toNat := by omega
    have hc := Memory.read_copyBytes hwf (s.dstAddr + (s.pos - o.toNat)) o.toNat h0 j (s.refCount m) (by omega) hj
    rw [← hd] at hc
    refine Eq.trans ?_ (hc.trans (congrArg s.mem.read (Nat.add_assoc _ _ _)))
    exact congrArg _ (Nat.add_assoc s.dstAddr s.pos j).symm

theorem execRef_fault {o m : Word} {s : State} (h0 : 0 < o.toNat) (ho : o.toNat ≤ s.pos)
    (hh : s.dstHolds s.pos (s.refCount m) = false) : execRef o m s = .fault .strayAccess := by
  have hv : ¬(o = 0 ∨ s.pos < o.toNat) := by
    rintro (h | h)
    · subst h
      simp at h0
    · omega
  exact (if_neg hv).trans (if_neg (by simp [hh]))

/-! ### RLE -/

theorem State.putKey_next {k : Byte} {s : State} (hwf : s.mem.wf = true) (hh : s.dstHolds s.pos 1 = true) :
    ∃ t, s.putKey k = .next t ∧ Stored s t s.pos 1 (fun _ => ~~~k) ∧
      t.job = { s.job with pos := BitVec.ofNat 32 (s.pos + 1) } :=
  ⟨_, if_pos hh, Stored.of_write hwf hh _ _, rfl⟩

theorem State.putKey_fault {k : Byte} {s : State} (hh : s.dstHolds s.pos 1 = false) :
    s.putKey k = .fault .strayAccess := if_neg (by simp [hh])

theorem execRun_next {c : BitVec 6} {d : Byte} {s : State} (hwf : s.mem.wf = true)
    (hh : s.dstHolds s.pos (s.runCount c) = true) :
    ∃ t, execRun c d s = .next t ∧ Stored s t s.pos (s.runCount c) (fun _ => ~~~d) ∧
      t.job = { s.job with pos := BitVec.ofNat 32 (s.pos + s.runCount c) } :=
  ⟨_, if_pos hh, Stored.of_fill hwf hh _ _, rfl⟩

theorem execRun_fault {c : BitVec 6} {d : Byte} {s : State} (hh : s.dstHolds s.pos (s.runCount c) = false) :
    execRun c d s = .fault .strayAccess := if_neg (by simp [hh])

theorem execUnit_next {k b0 b1 : Byte} {s : State} (hwf : s.mem.wf = true)
    (hh : s.dstHolds (2 * s.pos) (2 * s.unitCount k) = true) :
    ∃ t, execUnit k b0 b1 s = .next t ∧ Stored s t (2 * s.pos) (2 * s.unitCount k) (unitByte b0 b1) ∧
      t.job = { s.job with pos := BitVec.ofNat 32 (s.pos + s.unitCount k) } :=
  ⟨_, if_pos hh, Stored.of_fill hwf hh _ _, rfl⟩

theorem execUnit_fault {k b0 b1 : Byte} {s : State} (hh : s.dstHolds (2 * s.pos) (2 * s.unitCount k) = false) :
    execUnit k b0 b1 s = .fault .strayAccess := if_neg (by simp [hh])

/-! ### Pixels -/

theorem State.convertPixel_next {bpp : Nat} {v : Pixel} {s : State} (hwf : s.mem.wf = true)
    (hs : s.srcInSpace = true) (hh : s.dstHolds s.rasterIndex 2 = true) :
    ∃ t, s.convertPixel bpp v = .next t ∧
      Stored s t s.rasterIndex 2 (pixelHalf (if s.pixelSkipped bpp then background else v)) ∧
      t.job = s.nextPixel :=
  ⟨_, if_pos (by simp [hs, hh]), Stored.of_fill hwf hh _ _, rfl⟩

theorem State.convertPixel_fault {bpp : Nat} {v : Pixel} {s : State}
    (h : s.srcInSpace = false ∨ s.dstHolds s.rasterIndex 2 = false) :
    s.convertPixel bpp v = .fault .strayAccess :=
  if_neg (by rcases h with h | h <;> simp [h])

end Sys2Proof.Machine
end

