-- ==== Sys2Proof/Tests/Slice0.lean ====
section
/-! SUPPORT. Tests/Slice0.lean: the WellFormed smoke, the decoding of words written out from the spec's encodings, one or
two single-step tests an instruction with the results of spec/95_test_vectors.md, and for each obligation a state and
operands that meet its hypotheses. -/

namespace Sys2Proof.Tests

open Sys2Proof Sys2Proof.Machine

/-! ### Small states -/

/-- Bytes in memory from an address on. -/
def load (m : Memory) (a : Nat) (l : List Byte) : Memory := m.fill a (fun i => l.getD i 0) l.length

/-- An idle machine with a source at 0x1000, a destination of `dstLen` bytes at 0x2000 and the given geometry. -/
def ready (src : List Byte) (dstLen : Nat) (stride height width : BitVec 16) (bpp : BitVec 5) : State :=
  { State.reset with
    win := { Window.reset with
      srcAddr := 0x1000, srcLen := BitVec.ofNat 32 src.length, dstAddr := 0x2000, dstLen := BitVec.ofNat 32 dstLen
      stride := stride, height := height, width := width, bpp := bpp }
    mem := load [] 0x1000 src, before := load [] 0x1000 src }

/-- A running job of a stream command. -/
def job (op : BitVec 3) (src : List Byte) (dstLen : Nat) (j : Job) : State :=
  let s := ready src dstLen 0 0 0 0
  { s with win := { s.win with op := op }, phase := .running, job := j }

/-- A running LZB job with widths 4 and 4. -/
def lzb (src : List Byte) (osize inPos pos bitbuf : Word) (bitcnt : BitVec 6) : State :=
  job 1 src osize.toNat
    { Job.initial with
      osize := osize, inPos := inPos, pos := pos, bitbuf := bitbuf, bitcnt := bitcnt, mbits := 4, obits := 4 }

/-- A running CONVERT job with a raster of just the right size, at pixel (x, y). -/
def conv (bpp : BitVec 5) (stride width height : BitVec 16) (src : List Byte) (x y : BitVec 16) : State :=
  let s := ready src (2 * width.toNat * height.toNat) stride height width bpp
  { s with win := { s.win with op := 4 }, phase := .running, job := { Job.initial with x := x, y := y } }

/-- The state an outcome goes on to. -/
def after (o : Host.Outcome State Fault Refusal) : State :=
  match o with
  | .next t => t
  | .fault _ => State.reset
  | .refused _ => State.reset

/-- The bytes of the destination range. -/
def dstBytes (s : State) (n : Nat) : List Byte := (List.range n).map s.dst

/-- The LZB source of vector LZB-1: sub-header (osize 4, widths 4 and 4) and one code word 0xDF04C000. -/
def lzb1 : List Byte := [0x04, 0, 0, 0, 0x04, 0, 0x04, 0, 0x00, 0xC0, 0x04, 0xDF]

/-! ### WellFormed refuses ill-formed terms -/

theorem test_wellFormed_offsetWidthZero : (Instr.ref 0 0).wellFormed ⟨0, 4⟩ = false := by decide
theorem test_wellFormed_offsetWidth33 : (Instr.ref 0 0).wellFormed ⟨33, 4⟩ = false := by decide
theorem test_wellFormed_matchWidthZero : (Instr.ref 0 0).wellFormed ⟨4, 0⟩ = false := by decide
theorem test_wellFormed_matchWidth33 : (Instr.ref 0 0).wellFormed ⟨4, 33⟩ = false := by decide
theorem test_wellFormed_literalWidths : (Instr.lit 0).wellFormed ⟨0, 33⟩ = false := by decide
theorem test_wellFormed_offsetTooBig : (Instr.ref 16 15).wellFormed ⟨4, 4⟩ = false := by decide
theorem test_wellFormed_matchTooBig : (Instr.ref 15 16).wellFormed ⟨4, 4⟩ = false := by decide
theorem test_wellFormed_widest : (Instr.ref 0xFFFFFFFF 0xFFFFFFFF).wellFormed ⟨32, 32⟩ = true := by decide

/-! ### Decoding words written out from 30_encoding.md -/

/-- R71: bits 31:7 0, OP, two zeros, IE, START. -/
theorem test_decode_cmdLzb : decodeCtrl 0b00000000000000000000000000010001 = .ok (.cmdLzb false) := rfl
theorem test_decode_cmdRle8 : decodeCtrl 0b00000000000000000000000000100011 = .ok (.cmdRle8 true) := rfl
theorem test_decode_cmdRle16 : decodeCtrl 0b00000000000000000000000000110001 = .ok (.cmdRle16 false) := rfl
theorem test_decode_cmdConvert : decodeCtrl 0b11111111111111111111111111001111 = .ok (.cmdConvert true) := rfl
theorem test_decode_reservedOps :
    decodeCtrl 0x01 = .error (.reservedOp 0) ∧ decodeCtrl 0x51 = .error (.reservedOp 5) ∧
      decodeCtrl 0x61 = .error (.reservedOp 6) ∧ decodeCtrl 0x71 = .error (.reservedOp 7) := ⟨rfl, rfl, rfl, rfl⟩
theorem test_decode_noStart : decodeCtrl 0x10 = .error .notStart := rfl

/-- R74: `1` then L, most significant bit first; L = 0xBE. -/
theorem test_decode_lit :
    decodeLzb ⟨4, 4⟩ [true, true, false, true, true, true, true, true, false, true] = .ok (.lit 0xBE, 9) := rfl
/-- R75: `0`, then the offset field, then the length field; LZB-2's token REF 3, 3 with other widths. -/
theorem test_decode_ref : decodeLzb ⟨3, 5⟩ [false, false, true, true, false, true, false, true, true] =
    .ok (.ref 3 11, 9) := rfl
theorem test_decode_lzbEnds :
    decodeLzb ⟨4, 4⟩ [] = .error (.streamEnd 0) ∧
      decodeLzb ⟨4, 4⟩ [true, true, true, true, true, true, true, true] = .error (.streamEnd 1) ∧
      decodeLzb ⟨4, 4⟩ [false, true, true, true] = .error (.streamEnd 1) ∧
      decodeLzb ⟨4, 4⟩ [false, true, true, true, true, true] = .error (.streamEnd 5) ∧
      decodeLzb ⟨0, 4⟩ [true] = .error .illegalWidths := ⟨rfl, rfl, rfl, rfl, rfl⟩
/-- R77. -/
theorem test_decode_run : decodeRle8 [0b11000101, 0xAA, 0x00] = .ok (.run 5 0xAA, 2) := rfl
theorem test_decode_klit00 : decodeRle8 [0b00101010, 0xFF] = .ok (.klit00 0b101010, 1) := rfl
theorem test_decode_klit01 : decodeRle8 [0b01111111] = .ok (.klit01 0b111111, 1) := rfl
theorem test_decode_klit10 : decodeRle8 [0b10111111] = .ok (.klit10 0b111111, 1) := rfl
theorem test_decode_rle8Ends : decodeRle8 [] = .error (.streamEnd 0) ∧ decodeRle8 [0xC2] = .error (.streamEnd 1) :=
  ⟨rfl, rfl⟩
/-- R78. -/
theorem test_decode_unit : decodeRle16 [0x81, 0x12, 0x34, 0x56] = .ok (.unit 0x81 0x12 0x34, 3) := rfl
theorem test_decode_rle16Ends :
    decodeRle16 [] = .error (.streamEnd 0) ∧ decodeRle16 [1] = .error (.streamEnd 1) ∧
      decodeRle16 [1, 2] = .error (.streamEnd 1) := ⟨rfl, rfl, rfl⟩
/-- R80: GEOM1 bits 20:16. -/
theorem test_decode_convBpp1 : decodeGeom1 0x00010008 = .ok .convBpp1 := rfl
theorem test_decode_convBpp2 : decodeGeom1 0x00020004 = .ok .convBpp2 := rfl
theorem test_decode_convBpp4 : decodeGeom1 0x0004FFFF = .ok .convBpp4 := rfl
theorem test_decode_convBpp8 : decodeGeom1 0x00080002 = .ok .convBpp8 := rfl
theorem test_decode_convBpp16 : decodeGeom1 0xFFF00002 = .ok .convBpp16 := rfl
theorem test_decode_reservedBpp :
    decodeGeom1 0x00030008 = .error (.reservedBpp 3) ∧ decodeGeom1 0 = .error (.reservedBpp 0) ∧
      decodeGeom1 0x001F0000 = .error (.reservedBpp 31) := ⟨rfl, rfl, rfl⟩
/-- The encoder against the tokens of vectors LZB-1, RLE8-1 and P1's CTRL and GEOM1 words. -/
theorem test_encode_words :
    encode ⟨4, 4⟩ (.lit 0xBE) = .lzb [true, true, false, true, true, true, true, true, false] ∧
      encode ⟨4, 4⟩ (.ref 1 3) = .lzb [false, false, false, false, true, false, false, true, true] ∧
      encode ⟨4, 4⟩ (.run 5 0xAA) = .rle8 [0xC5, 0xAA] ∧ encode ⟨4, 4⟩ (.klit10 0x3F) = .rle8 [0xBF] ∧
      encode ⟨4, 4⟩ (.cmdConvert true) = .ctrl 0x43 ∧ encode ⟨4, 4⟩ .convBpp8 = .geom1 0x00080000 :=
  ⟨rfl, rfl, rfl, rfl, rfl, rfl⟩

/-! ### The bit reader: vector BR-1 -/

theorem test_takeBits_split :
    let s := lzb (lzb1.take 8 ++ [0x78, 0x56, 0x34, 0x12, 0xF0, 0xDE, 0xBC, 0x9A]) 4 8 0 0 0
    (s.takeBits 27).map (·.1) = some 0x0091A2B3 ∧
      ((s.takeBits 27).bind fun p => p.2.takeBits 12).map (fun p => (p.1, p.2.inPos, p.2.job.bitcnt)) =
        some (0xC4D, 16, 25) := by decide

/-! ### One step an instruction -/

/-- LZB-1's command: the loop begins with the header's values. -/
theorem test_cmdLzb_header :
    let t := after (exec (.cmdLzb false) (ready lzb1 4 0 0 0 0))
    t.phase = .running ∧ t.job.osize = 4 ∧ t.job.obits = 4 ∧ t.job.mbits = 4 ∧ t.job.inPos = 8 := by decide
/-- LZB-E6: offsetBits 33. -/
theorem test_cmdLzb_badWidths :
    let t := after (exec (.cmdLzb false) (ready [4, 0, 0, 0, 4, 0, 0x21, 0, 0, 0xC0, 4, 0xDF] 4 0 0 0 0))
    t.statusWord = 0x406 ∧ t.win.srcPos = 8 ∧ t.win.lzbWidths = 0x00210004 := by decide
/-- REG-4: ranges that touch do not overlap. -/
theorem test_cmdRle8_touching :
    let s := ready [] 1 0 0 0 0
    (after (exec (.cmdRle8 true) { s with win := { s.win with srcLen := 0x1000 } })).phase = .running := by decide
/-- REG-3: overlap by one byte. -/
theorem test_cmdRle8_overlap :
    let s := ready [] 1 0 0 0 0
    (after (exec (.cmdRle8 true) { s with win := { s.win with srcLen := 0x1001 } })).statusWord = 0x406 := by decide
/-- RLE16-E3. -/
theorem test_cmdRle16_odd :
    (after (exec (.cmdRle16 false) (ready [3, 0x12, 0x34] 3 0 0 0 0))).statusWord = 0x406 := by decide
/-- RLE16-1's command. -/
theorem test_cmdRle16_starts :
    (after (exec (.cmdRle16 false) (ready [3, 0x12, 0x34] 6 0 0 0 0))).phase = .running := by decide
/-- CV-E1 before CV-E3: the row check comes before the capacity check. -/
theorem test_cmdConvert_row :
    (after (exec (.cmdConvert false) (ready [0] 0 5 1 5 1))).statusWord = 0x406 := by decide
/-- CV-E3. -/
theorem test_cmdConvert_capacity :
    (after (exec (.cmdConvert false) (ready [0] 7 2 2 2 8))).statusWord = 0x506 := by decide

/-- LZB-1's literal 0xBE writes 0x41; LZB-9's literal 0x00 writes 0xFF. -/
theorem test_lit_complements : dstBytes (after (exec (.lit 0xBE) (lzb lzb1 4 12 0 0 0))) 2 = [0x41, 0] := by decide
/-- LZB-1's REF 1, 3 at pos 1 repeats the byte. -/
theorem test_ref_overlaps :
    let s := lzb lzb1 4 12 1 0 0
    let t := after (exec (.ref 1 3) { s with mem := load s.mem 0x2000 [0x41] })
    dstBytes t 5 = [0x41, 0x41, 0x41, 0x41, 0] ∧ t.pos = 4 := by decide
/-- LZB-E2: offset 2 at pos 1. -/
theorem test_ref_invalid :
    let t := after (exec (.ref 2 1) (lzb lzb1 4 12 1 0 0))
    t.statusWord = 0x306 ∧ t.win.dstPos = 1 ∧ t.win.srcPos = 12 ∧ t.mem = load [] 0x1000 lzb1 := by decide
/-- RLE8-1. -/
theorem test_run_repeats :
    dstBytes (after (exec (.run 5 0xAA) (job 2 [0xC5, 0xAA] 5 { Job.initial with inPos := 2 }))) 5 =
      [0x55, 0x55, 0x55, 0x55, 0x55] := by decide
/-- RLE8-4: the run is cut at DST_LEN. -/
theorem test_run_cut :
    let t := after (exec (.run 3 0) (job 2 [0xC3, 0] 2 { Job.initial with inPos := 2 }))
    dstBytes t 3 = [0xFF, 0xFF, 0] ∧ t.pos = 2 := by decide
/-- RLE8-2: keys 00, 7F, BF. -/
theorem test_klit00 : dstBytes (after (exec (.klit00 0) (job 2 [0] 4 Job.initial))) 1 = [0xFF] := by decide
theorem test_klit01 : dstBytes (after (exec (.klit01 0x3F) (job 2 [0x7F] 4 Job.initial))) 1 = [0x80] := by decide
theorem test_klit10 : dstBytes (after (exec (.klit10 0x3F) (job 2 [0xBF] 4 Job.initial))) 1 = [0x40] := by decide
/-- RLE16-5: cut at DST_LEN/2, bytes neither swapped nor complemented. -/
theorem test_unit_cut :
    let t := after (exec (.unit 5 1 2) (job 3 [5, 1, 2] 4 { Job.initial with inPos := 3 }))
    dstBytes t 5 = [1, 2, 1, 2, 0] ∧ t.pos = 2 := by decide
/-- RLE16-2's clamp: key 0xFF counts 128. -/
theorem test_unit_clamp : (job 3 [0xFF, 0xAB, 0xCD] 260 Job.initial).unitCount 0xFF = 128 := by decide
/-- CV1-1, pixel 1: bit 6 of A5 is 0, white. -/
theorem test_convBpp1 : dstBytes (after (exec .convBpp1 (conv 1 8 8 1 [0xA5] 1 0))) 4 = [0, 0, 0xFF, 0xFF] := by decide
/-- CV2-1, pixel 2. -/
theorem test_convBpp2 :
    dstBytes (after (exec .convBpp2 (conv 2 4 4 1 [0x1B] 2 0))) 6 = [0, 0, 0, 0, 0xC6, 0x18] := by decide
/-- CV4-1: high nibble first. -/
theorem test_convBpp4_even : dstBytes (after (exec .convBpp4 (conv 4 2 2 1 [0x7E] 0 0))) 2 = [0x52, 0xAA] := by decide
theorem test_convBpp4_odd :
    dstBytes (after (exec .convBpp4 (conv 4 2 2 1 [0x7E] 1 0))) 4 = [0, 0, 0xFF, 0xEA] := by decide
/-- CV8-2. -/
theorem test_convBpp8 : dstBytes (after (exec .convBpp8 (conv 8 1 1 1 [0x41] 0 0))) 2 = [0x40, 0x08] := by decide
/-- CV-S2: the byte beyond the source is the background, and the loop moves to the next row. -/
theorem test_convBpp8_skipped :
    let s := conv 8 2 2 3 [0xFF, 0xFF, 0xFF] 1 1
    let t := after (exec .convBpp8 { s with mem := load s.mem 0x2006 [0xEE, 0xEE] })
    dstBytes t 8 = [0, 0, 0, 0, 0, 0, 0, 0] ∧ t.x = 0 ∧ t.y = 2 := by decide
/-- CV16-1, pixel (1, 1). -/
theorem test_convBpp16 :
    dstBytes (after (exec .convBpp16
      (conv 16 3 2 2 [0x11, 0x22, 0x33, 0x44, 0x55, 0x66, 0x77, 0x88, 0x99, 0xAA, 0xBB, 0xCC] 1 1))) 8 =
      [0, 0, 0, 0, 0, 0, 0x99, 0xAA] := by decide
/-- CV-S3: a half pixel is the background. -/
theorem test_convBpp16_half :
    let s := conv 16 2 2 1 [0x11, 0x22, 0x33] 1 0
    dstBytes (after (exec .convBpp16 { s with mem := load s.mem 0x2002 [0xEE, 0xEE] })) 4 = [0, 0, 0, 0] := by decide

/-! ### The register window: REG-6, REG-9, REG-10 -/

theorem test_ack_keepsErrCode :
    let s := after (exec (.cmdRle16 true) (ready [3, 0x12, 0x34] 3 0 0 0 0))
    let t := after (step { s with inbox := [.regWrite 4 4 2] })
    s.irq = true ∧ t.irq = false ∧ t.register 4 = 0x400 := by decide
theorem test_ctrl_readsBack :
    let t := after (step { State.reset with inbox := [.regWrite 0 4 0x70] })
    t.register 0 = 0x70 ∧ t.phase = .idle := by decide
theorem test_geom1_reserved :
    (after (step { State.reset with inbox := [.regWrite 0x1C 4 0xFFFFFFFF] })).register 0x1C = 0x001FFFFF := by decide

/-! ### The destination while BUSY (R64) and after a reset (R221) -/

/-- An RLE8 job of one source byte for two destination bytes, which hold 0xEE and 0xDD at START. -/
def shortRle8 (key : Byte) : State :=
  let s := job 2 [key] 2 Job.initial
  { s with mem := load s.mem 0x2000 [0xEE, 0xDD], before := load s.mem 0x2000 [0xEE, 0xDD] }

/-- A job just started whose source and destination share the byte at 0x2000 (REG-3). -/
def overlapping : State :=
  let s := (ready [] 1 0 0 0 0).latchStart 2 false
  { s with win := { s.win with srcLen := 0x1001 }, mem := load [] 0x2000 [0xAB], before := load [] 0x2000 [0xAB] }

/-- RLE8-E2: a byte the job never writes reads as it is. -/
theorem test_busyRead_unwritten :
    (after (step { shortRle8 0x01 with inbox := [.memRead 0x2001] })).replies = [.byte 0xDD] := by decide
/-- RLE8-E2: a byte the job writes reads as its old value or the complement of the key. -/
theorem test_busyRead_written :
    (after (step { shortRle8 0x01 with inbox := [.memRead 0x2000] })).replies =
      [.byte (if Config.freeChoice 0 then 0xFE else 0xEE)] := by rfl
/-- A source byte of overlapping ranges reads as its value. -/
theorem test_busyRead_overlap :
    (after (step { overlapping with inbox := [.memRead 0x2000] })).replies = [.byte 0xAB] := by decide
/-- RLE8-E1: a reset leaves the bytes the job would not have written. -/
theorem test_reset_unwritten :
    (after (step { shortRle8 0xC2 with inbox := [.resetAssert] })).mem = (shortRle8 0xC2).mem := by decide

/-! ### Witnesses: states and operands that meet each obligation's hypotheses -/

theorem witness_DecodeOfEncodeGivesTheInstruction :
    (Instr.ref 15 15).wellFormed ⟨4, 4⟩ = true ∧ (Instr.ref 0xFFFFFFFF 0).wellFormed ⟨32, 1⟩ = true ∧
      (Instr.run 63 0).wellFormed ⟨4, 4⟩ = true := by decide

theorem witness_StreamTokensDetermineTheirText :
    decode ⟨1, 1⟩ (.lzb [false, true, true]) = .ok (.ref 1 1, 3) ∧
      decode ⟨4, 4⟩ (.rle8 [0xFF, 0x0F, 0x00]) = .ok (.run 63 0x0F, 2) ∧
      decode ⟨4, 4⟩ (.rle16 [0xFF, 0xAB, 0xCD]) = .ok (.unit 0xFF 0xAB 0xCD, 3) := ⟨rfl, rfl, rfl⟩

theorem witness_CtrlWordsDecodeUnderTheirMask :
    (0xFFFFFF9F : Word) &&& 0x71 = 0x11 ∧ (0x2D : Word) &&& 0x71 = 0x21 ∧ (0x80000031 : Word) &&& 0x71 = 0x31 ∧
      (0x43 : Word) &&& 0x71 = 0x41 ∧ decodeCtrl 0x8F = .error (.reservedOp 0) ∧ decodeCtrl 0x41 = .ok (.cmdConvert false) :=
  ⟨rfl, rfl, rfl, rfl, rfl, rfl⟩

theorem witness_RleTokensFollowTheirKey :
    0xC0 ≤ (0xC0 : Byte).toNat ∧ 0xC0 ≤ (0xFF : Byte).toNat ∧ (0x3F : Byte).toNat < 0x40 ∧
      (0x40 ≤ (0x40 : Byte).toNat ∧ (0x7F : Byte).toNat < 0x80) ∧
      (0x80 ≤ (0x80 : Byte).toNat ∧ (0xBF : Byte).toNat < 0xC0) := by decide

/-- Five bits left and one more word (12 bits asked for), and five bits left alone. -/
theorem witness_TakeBitsDeliversTheStream :
    (let s := lzb lzb1 4 8 0 0x15 5
     s.job.bitcnt.toNat ≤ 32 ∧ s.inPos ≤ s.srcLen ∧ 12 ≤ s.streamBits.length) ∧
      (let s := lzb lzb1 4 12 0 0x15 5
       s.job.bitcnt.toNat ≤ 32 ∧ s.inPos ≤ s.srcLen ∧ s.streamBits.length < 12) ∧
      (let s := lzb (lzb1 ++ [0]) 4 8 0 0 0
       s.job.bitcnt = 0 ∧ s.inPos = 8 ∧ 8 ≤ s.srcLen ∧ 31 < 32 * ((s.srcLen - 8) / 4)) := by decide

theorem witness_TakeBitsRefillsAtMostOnce :
    (let s := lzb lzb1 4 8 0 0 32
     s.job.bitcnt.toNat ≤ 32 ∧ (s.takeBits 32).isSome = true) ∧
      (let s := lzb lzb1 4 8 0 0 0
       s.job.bitcnt.toNat ≤ 32 ∧ (s.takeBits 1).isSome = true) ∧
      (let s := lzb lzb1 4 9 0 0 31
       s.job.bitcnt.toNat < 32 ∧ s.srcLen < s.inPos + 4) := by decide

theorem witness_LiteralStoresItsComplement :
    (let s := lzb lzb1 4 12 3 0 0
     s.mem.wf = true ∧ s.dstInSpace = true ∧ s.pos < s.dstLen) ∧
      (let s := lzb lzb1 4 8 0 0 0
       s.AtLzbToken ∧ ∃ s1 s2, s.takeBits 1 = some (1, s1) ∧ s1.takeBits 8 = some (0xBE, s2)) ∧
      (let s := lzb lzb1 4 12 3 0xFF 8
       s.AtLzbToken ∧ ∃ s1, s.takeBits 1 = some (1, s1) ∧ s1.takeBits 8 = none) :=
  ⟨by decide, ⟨by decide, _, _, rfl, rfl⟩, by decide, _, rfl, rfl⟩

/-- `offset = pos` at the last byte but one; offset 0 and `offset = pos + 1`; both fields read; each field cut. -/
theorem witness_BackReferenceRepeatsTheWindow :
    (let s := lzb lzb1 4 12 3 0 0
     s.mem.wf = true ∧ s.dstInSpace = true ∧ s.osize ≤ s.dstLen ∧ s.pos ≤ s.osize ∧
       0 < (3 : Word).toNat ∧ (3 : Word).toNat ≤ s.pos) ∧
      (let s := lzb lzb1 4 12 3 0 0
       s.op = 1 ∧ (0 : Word).toNat = 0 ∧ s.pos < (4 : Word).toNat) ∧
      (let s := lzb lzb1 4 12 1 0x04C000 23
       s.AtLzbToken ∧ ∃ s1 s2 s3, s.takeBits 1 = some (0, s1) ∧ s1.takeBits s.widths.obits = some (1, s2) ∧
         s2.takeBits s.widths.mbits = some (3, s3)) ∧
      (let s := lzb lzb1 4 12 3 0 4
       s.AtLzbToken ∧ ∃ s1, s.takeBits 1 = some (0, s1) ∧ s1.takeBits s.widths.obits = none) ∧
      (let s := lzb lzb1 4 12 3 0 8
       s.AtLzbToken ∧ ∃ o s1 s2, s.takeBits 1 = some (0, s1) ∧
         s1.takeBits s.widths.obits = some (o, s2) ∧ s2.takeBits s.widths.mbits = none) :=
  ⟨by decide, by decide, ⟨by decide, _, _, _, rfl, rfl, rfl⟩, ⟨by decide, _, rfl, rfl⟩,
    ⟨by decide, _, _, _, rfl, rfl, rfl⟩⟩

theorem witness_LiteralKeysStoreTheirComplement :
    let s := job 2 [0xBF] 1 { Job.initial with inPos := 1 }
    (Instr.klit10 0x3F, 0xBF) ∈ [(Instr.klit00 0x3F, (0x3F : BitVec 6).toNat),
      (Instr.klit01 0x3F, 0x40 + (0x3F : BitVec 6).toNat), (Instr.klit10 0x3F, 0x80 + (0x3F : BitVec 6).toNat)] ∧
      s.mem.wf = true ∧ s.dstInSpace = true ∧ s.pos < s.dstLen := by decide

theorem witness_RunRepeatsTheComplement :
    (let s := job 2 [0xFF, 0x0F] 3 { Job.initial with inPos := 2, pos := 3 }
     s.mem.wf = true ∧ s.dstInSpace = true ∧ s.pos ≤ s.dstLen) ∧
      (let s := job 2 [0x00, 0xC0, 0x12] 3 { Job.initial with inPos := 1 }
       s.AtLoop 2 ∧ s.srcInSpace = true ∧ s.pos < s.dstLen ∧ s.inPos + 2 ≤ s.srcLen ∧
         0xC0 ≤ (s.src s.inPos).toNat) ∧
      (let s := job 2 [0x00, 0xC0] 3 { Job.initial with inPos := 1 }
       s.AtLoop 2 ∧ s.srcInSpace = true ∧ s.pos < s.dstLen ∧ s.inPos + 1 = s.srcLen ∧
         0xC0 ≤ (s.src s.inPos).toNat) := by decide

theorem witness_UnitRepeatsItsTwoBytes :
    (let s := job 3 [1, 2, 3] 4 { Job.initial with inPos := 3, pos := 2 }
     s.mem.wf = true ∧ s.dstInSpace = true ∧ s.pos ≤ s.units) ∧
      (let s := job 3 [1, 2, 3] 4 Job.initial
       s.AtLoop 3 ∧ s.srcInSpace = true ∧ s.pos < s.units ∧ s.inPos + 3 ≤ s.srcLen) ∧
      (let s := job 3 [1, 2] 4 Job.initial
       s.AtLoop 3 ∧ s.srcInSpace = true ∧ s.pos < s.units ∧ s.inPos < s.srcLen ∧ s.srcLen < s.inPos + 3) ∧
      (let s := job 3 [1] 4 Job.initial
       s.AtLoop 3 ∧ s.srcInSpace = true ∧ s.pos < s.units ∧ s.inPos < s.srcLen ∧ s.srcLen < s.inPos + 3) := by
  decide

theorem witness_StoresOutsideTheDestinationFault :
    (let s := job 2 [] 1 { Job.initial with pos := 1 }
     s.dstHolds s.pos 1 = false) ∧
      (let s := job 2 [] 1 { Job.initial with pos := 2 }
       s.dstHolds s.pos (min (0 : BitVec 6).toNat (s.dstLen - s.pos)) = false) ∧
      (let s := job 3 [] 2 { Job.initial with pos := 2 }
       s.dstHolds (2 * s.pos) (2 * min (min (1 : Byte).toNat 128) (s.units - s.pos)) = false) ∧
      (let s := job 1 [] 2 { Job.initial with pos := 2, osize := 3 }
       0 < (1 : Word).toNat ∧ (1 : Word).toNat ≤ s.pos ∧
         s.dstHolds s.pos (min (1 : Word).toNat (s.osize - s.pos)) = false) ∧
      (let s := conv 8 1 1 1 [0] 1 0
       s.dstHolds (2 * (s.y * s.width + s.x)) 2 = false) := by decide

/-- The last pixel of the raster, its byte the last of the source. -/
theorem witness_OneBitPixelsAreWhiteOrBlack :
    let s := conv 1 8 8 2 [0x80, 0x40] 7 1
    s.AtPixel ∧ s.x < s.stride ∧ s.y * (s.stride / 8) + s.x / 8 < s.srcLen := by decide

theorem witness_TwoBitPixelsAreGreys :
    let s := conv 2 4 4 2 [0xE4, 0x1B] 3 1
    s.AtPixel ∧ s.x < s.stride ∧ s.y * (s.stride * 2 / 8) + s.x * 2 / 8 < s.srcLen := by decide

theorem witness_FourBitPixelsAreEgaColours :
    let s := conv 4 2 2 1 [0x7E] 1 0
    s.AtPixel ∧ s.x < s.stride ∧ s.y * (s.stride * 4 / 8) + s.x * 4 / 8 < s.srcLen := by decide

theorem witness_ByteColourPixelsExpandByPlacement :
    let s := conv 8 1 1 2 [0x41, 0x1C] 0 1
    s.AtPixel ∧ s.x < s.stride ∧ s.y * s.stride + s.x < s.srcLen := by decide

theorem witness_DirectColourPixelsAreCopied :
    let s := conv 16 2 2 1 [0x11, 0x22, 0x33, 0x44] 1 0
    s.AtPixel ∧ s.x < s.stride ∧ s.y * (2 * s.stride) + 2 * s.x + 1 < s.srcLen := by decide

/-- A column beyond STRIDE, a byte beyond the source, and half a pixel. -/
theorem witness_SkippedPixelsAreBackground :
    (let s := conv 1 0 1 1 [0xFF] 0 0
     s.AtPixel ∧ s.stride ≤ s.x) ∧
      (let s := conv 8 2 2 2 [0xFF, 0xFF, 0xFF] 1 1
       s.AtPixel ∧ s.srcLen ≤ s.y * (s.stride * 8 / 8) + s.x * 8 / 8) ∧
      (let s := conv 16 2 2 1 [0x11, 0x22, 0x33] 1 0
       s.AtPixel ∧ s.srcLen ≤ s.y * (s.stride * 16 / 8) + s.x * 16 / 8 + 1) := by decide

/-- A source that ends at the top of the address space, an even DST_LEN, a raster of exactly DST_LEN bytes. -/
theorem witness_CheckedCommandsEnterTheirLoop :
    let s := ready [] 4 8 1 2 1
    let s := { s with win := { s.win with srcAddr := 0xFFFFFFF0, srcLen := 0x10 } }
    s.RangesPass ∧ s.coversDevice = false ∧ s.dstLen % 2 = 0 ∧ s.bpp ∈ [1, 2, 4, 8, 16] ∧
      (s.bpp < 8 → s.stride * s.bpp % 8 = 0) ∧ s.width * s.height * 2 ≤ s.dstLen := by decide

theorem witness_LzbHeaderIsReadAndChecked :
    (let s := ready (lzb1.take 7) 4 0 0 0 0
     s.RangesPass ∧ s.coversDevice = false ∧ s.srcLen < 8) ∧
      (let s := ready (lzb1.take 8) 4 0 0 0 0
       s.RangesPass ∧ s.coversDevice = false ∧ 8 ≤ s.srcLen) := by decide

/-- REG-5 and REG-3, and every reserved OP. -/
theorem witness_StartChecksRejectBadJobs :
    (let s := ready [] 1 0 0 0 0
     ¬{ s with win := { s.win with srcAddr := 0xFFFFFFF0, srcLen := 0x11 } }.RangesPass ∧
       ¬{ s with win := { s.win with srcLen := 0x1001 } }.RangesPass) ∧
      (∀ op ∈ [(0 : BitVec 3), 5, 6, 7],
        let s := State.reset.latchStart op false
        s.phase = .starting ∧ s.inbox = [] ∧ s.op ∉ [1, 2, 3, 4]) := by decide

/-- RLE16-E3, CV-E2, CV-E1, CV-E3. -/
theorem witness_CommandChecksRejectBadJobs :
    (let s := ready [3, 0x12, 0x34] 3 0 0 0 0
     s.RangesPass ∧ s.dstLen % 2 = 1) ∧
      (let s := ready [0] 16 8 1 8 3
       s.RangesPass ∧ s.bpp ∉ [1, 2, 4, 8, 16]) ∧
      (let s := ready [0] 10 5 1 5 1
       s.RangesPass ∧ s.bpp < 8 ∧ s.stride * s.bpp % 8 ≠ 0) ∧
      (let s := ready [0] 7 2 2 2 8
       s.RangesPass ∧ s.bpp ∈ [1, 2, 4, 8, 16] ∧ (s.bpp < 8 → s.stride * s.bpp % 8 = 0) ∧
         s.dstLen < s.width * s.height * 2) := by decide

/-- A source whose last byte is the window's first. -/
theorem witness_JobsOverDevicesAreRefused :
    let s := ready [] 2 1 1 1 8
    let s := { s with win := { s.win with srcAddr := 0x3FFFFFFF, srcLen := 2 } }
    s.RangesPass ∧ s.coversDevice = true ∧ s.dstLen % 2 = 0 ∧ s.bpp ∈ [1, 2, 4, 8, 16] ∧
      (s.bpp < 8 → s.stride * s.bpp % 8 = 0) ∧ s.width * s.height * 2 ≤ s.dstLen := by decide

theorem witness_NoJobStateIsCarriedOver :
    (ready lzb1 4 0 0 0 0).RangesPass ∧ ¬(State.reset.withWin { Window.reset with
      srcAddr := 0xFFFFFFFF, srcLen := 2 }).RangesPass := by decide

theorem witness_FinishedLoopsReportTheirJob :
    (let s := lzb lzb1 4 12 4 0 0
     s.srcInSpace = true ∧ s.AtLoop 1 ∧ s.osize ≤ s.pos) ∧
      (let s := job 2 [1] 1 { Job.initial with inPos := 1, pos := 1 }
       s.srcInSpace = true ∧ s.AtLoop 2 ∧ s.dstLen ≤ s.pos) ∧
      (let s := job 3 [1, 2, 3] 2 { Job.initial with inPos := 3, pos := 1 }
       s.srcInSpace = true ∧ s.AtLoop 3 ∧ s.units ≤ s.pos) ∧
      (let s := conv 8 1 1 1 [0] 0 1
       s.srcInSpace = true ∧ s.AtLoop 4 ∧ s.height ≤ s.y) ∧
      (let s := conv 8 1 0 1 [0] 0 0
       s.srcInSpace = true ∧ s.AtLoop 4 ∧ s.width ≤ s.x) := by decide

/-- The first parameter, the last, and the last reserved slot. -/
theorem witness_ParametersReadBackWhenIdle :
    ∀ off ∈ [(0x08 : BitVec 6), 0x1C, 0x3C],
      let s := { State.reset with inbox := [.regWrite off 4 0xFFFFFFFF] }
      s.phase = .idle ∧ s.inReset = false ∧ off.toNat % 4 = 0 ∧ 8 ≤ off.toNat := by decide

/-- Idle without START, idle with START, and BUSY (REG-8). -/
theorem witness_CtrlWritesSetEnableAndCommand :
    (let s := { State.reset with inbox := [.regWrite 0 4 0x70] }
     s.inReset = false ∧ s.inbox = .regWrite 0 4 0x70 :: [] ∧ s.phase = .idle ∧ (0x70 : Word).getLsbD 0 = false) ∧
      (let s := { State.reset with inbox := [.regWrite 0 4 0x13] }
       s.inReset = false ∧ s.inbox = .regWrite 0 4 0x13 :: [] ∧ s.phase = .idle ∧ (0x13 : Word).getLsbD 0 = true) ∧
      (let s := { job 2 [1, 2] 2 Job.initial with inbox := [.regWrite 0 4 0x43] }
       s.inReset = false ∧ s.inbox = .regWrite 0 4 0x43 :: [] ∧ s.phase ≠ .idle) := by decide

theorem witness_StatusWriteAcknowledges :
    let s := { State.reset with inbox := [.regWrite 4 4 2] }
    s.inReset = false ∧ s.inbox = .regWrite 4 4 2 :: [] ∧ (2 : Word).getLsbD 1 = true ∧
      (0xFFFFFFFD : Word).getLsbD 1 = false := by decide

theorem witness_RegisterReadsHaveNoSideEffect :
    (let s := { State.reset with inbox := [.regRead 0x20 4] }
     s.inReset = false ∧ s.busy = false) ∧
      (let s := { job 2 [1] 1 Job.initial with inbox := [.regRead 0x2C 4] }
       s.inReset = false ∧ s.busy = true ∧ (0x2C : BitVec 6).toNat ∈ [0x20, 0x24, 0x28, 0x2C]) ∧
      (let s := { job 2 [1] 1 Job.initial with inbox := [.regRead 0x1C 4] }
       s.inReset = false ∧ s.busy = true ∧ (0x1C : BitVec 6).toNat ∉ [0x20, 0x24, 0x28, 0x2C]) := by decide

theorem witness_BadRegisterAccessesAreRefused :
    (let s := { State.reset with inReset := true, inbox := [.regRead 0 4] }
     s.inReset = true ∧ s.inbox = .regRead 0 4 :: []) ∧
      (let s := { State.reset with inbox := [.regWrite 2 4 0] }
       s.inReset = false ∧ (2 : BitVec 6).toNat % 4 ≠ 0) ∧
      (let s := { State.reset with inbox := [.regRead 0 8] }
       s.inReset = false ∧ (8 ≠ 4 ∨ (0 : BitVec 6).toNat % 4 ≠ 0)) := by decide

/-- The first source byte, the last destination byte and the byte after it; a job that writes one byte of two, at its
second byte; a destination byte that is the last source byte too. -/
theorem witness_BuffersAreTheEnginesWhileBusy :
    (let s := job 2 [1, 2] 2 Job.initial
     s.busy = true ∧ (∀ a ∈ [0x1000, 0x2001, 0x2002], s.inWindow a = false ∧ s.inDevice a = false) ∧
       s.inSrc 0x1000 = true ∧ s.inDst 0x2001 = true ∧ s.inDst 0x2002 = false) ∧
      (let s := { job 2 [1] 2 Job.initial with inbox := [.memRead 0x2001] }
       s.Inv ∧ s.inDst 0x2001 = true ∧
         ∃ t, Host.Core.run core 2 { s with inbox := [] } = .next t ∧ t.phase = .idle ∧
           s.dstAddr + t.win.dstPos.toNat ≤ 0x2001) ∧
      (let s := { overlapping with inbox := [.memRead 0x2000] }
       s.Inv ∧ s.busy = true ∧ s.inSrc 0x2000 = true ∧ s.inDst 0x2000 = true) :=
  ⟨by decide, ⟨by decide, by decide, _, rfl, by decide, by decide⟩, by decide, by decide, by decide, by decide⟩

theorem witness_HostMemoryIsOrdinary :
    (let s := { State.reset with inbox := [.memWrite 0xFFFFFFFF 7, .memRead 0xFFFFFFFF] }
     s.mem.wf = true ∧ s.inWindow 0xFFFFFFFF = false ∧ s.inDevice 0xFFFFFFFF = false ∧ s.busy = false) ∧
      (let s := { job 2 [1, 2] 2 Job.initial with inbox := [.memWrite 0x2002 0, .memRead 0x2002] }
       s.mem.wf = true ∧ s.inWindow 0x2002 = false ∧ s.inDevice 0x2002 = false ∧
         (s.busy = true → s.inSrc 0x2002 = false ∧ s.inDst 0x2002 = false)) := by decide

theorem witness_ResetAbandonsTheJob :
    (let s := { job 2 [1] 2 Job.initial with inbox := [.resetAssert] }
     s.mem.wf = true ∧ s.Inv ∧ s.busy = true ∧
       ∃ u, Host.Core.run core 2 { s with inbox := [] } = .next u ∧ u.phase = .idle ∧ u.win.dstPos.toNat ≤ 1) ∧
      (let s := { State.reset with inbox := [.resetAssert] }
       s.mem.wf = true ∧ s.busy = false) ∧
      (let s := { State.reset with inReset := true, inbox := [.resetRelease] }
       s.inReset = true ∧ s.inbox = .resetRelease :: []) :=
  ⟨⟨by decide, by decide, by decide, _, rfl, by decide, by decide⟩, by decide, by decide⟩

theorem witness_StepRunsTheDecodedInstruction :
    (let s := State.reset.latchStart 2 true
     s.phase = .starting ∧ s.inbox = [] ∧
       decode s.widths (.ctrl (startWord s.win.op s.win.ie)) = .ok (.cmdRle8 true, 1)) ∧
      (let s := job 2 [0x01, 0xC5, 0xAA] 5 { Job.initial with inPos := 1 }
       s.AtLoop 2 ∧ s.srcInSpace = true ∧ s.pos < s.dstLen ∧
         decode s.widths (.rle8 (s.nextBytes s.srcLen)) = .ok (.run 5 0xAA, 2)) ∧
      (let s := job 3 [3, 0x12, 0x34] 6 Job.initial
       s.AtLoop 3 ∧ s.srcInSpace = true ∧ s.pos < s.units ∧
         decode s.widths (.rle16 (s.nextBytes s.srcLen)) = .ok (.unit 3 0x12 0x34, 3)) ∧
      (let s := conv 16 1 1 1 [1, 2] 0 0
       s.AtLoop 4 ∧ s.srcInSpace = true ∧ s.y < s.height ∧ s.x < s.width ∧
         decode s.widths (.geom1 s.geom1Word) = .ok (.convBpp16, 1)) :=
  ⟨⟨by decide, by decide, rfl⟩, ⟨by decide, by decide, by decide, rfl⟩, ⟨by decide, by decide, by decide, rfl⟩,
    ⟨by decide, by decide, by decide, by decide, rfl⟩⟩

/-- LZB-1 at its first token, and LZB-E3's last token. -/
theorem witness_StepRunsTheDecodedLzbToken :
    (let s := lzb lzb1 4 8 0 0 0
     s.AtLoop 1 ∧ s.srcInSpace = true ∧ s.pos < s.osize ∧ s.job.bitcnt.toNat ≤ 32 ∧ s.inPos ≤ s.srcLen ∧
       decode s.widths (.lzb s.streamBits) = .ok (.lit 0xBE, 9)) ∧
      (let s := lzb lzb1 4 12 3 0x1F 5
       s.AtLoop 1 ∧ s.srcInSpace = true ∧ s.pos < s.osize ∧ s.job.bitcnt.toNat ≤ 32 ∧ s.inPos ≤ s.srcLen ∧
         decode s.widths (.lzb s.streamBits) = .error (.streamEnd 1)) :=
  ⟨⟨by decide, by decide, by decide, by decide, by decide, rfl⟩,
    ⟨by decide, by decide, by decide, by decide, by decide, rfl⟩⟩

theorem witness_ExhaustedRleSourceIsOutOfBounds :
    (let s := job 2 [1] 2 { Job.initial with inPos := 1, pos := 1 }
     s.srcInSpace = true ∧ s.inPos = s.srcLen ∧ s.AtLoop 2 ∧ s.pos < s.dstLen) ∧
      (let s := job 3 [] 2 Job.initial
       s.srcInSpace = true ∧ s.inPos = s.srcLen ∧ s.AtLoop 3 ∧ s.pos < s.units) := by decide

theorem witness_IdleBlockWaits : State.reset.phase = .idle ∧ State.reset.inbox = [] := ⟨rfl, rfl⟩

/-- A pass that goes on, a pass that ends the job, the acknowledgement, and a CTRL write with IE = 1. -/
theorem witness_InterruptFollowsEnableAndDone :
    (let s := job 2 [1, 2] 2 Job.initial
     s.Inv ∧ s.phase = .running ∧ s.inbox = [] ∧ ∃ t, step s = .next t ∧ t.phase = .running) ∧
      (let s := job 2 [1] 1 { Job.initial with inPos := 1, pos := 1 }
       s.Inv ∧ s.phase = .running ∧ s.inbox = [] ∧ ∃ t, step s = .next t ∧ t.phase = .idle) ∧
      (let s := { State.reset with inbox := [.regWrite 4 4 2] }
       s.inReset = false ∧ s.inbox = .regWrite 4 4 2 :: [] ∧ (2 : Word).getLsbD 1 = true) ∧
      (let s := { State.reset with inbox := [.regWrite 0 4 2] }
       s.inReset = false ∧ s.inbox = .regWrite 0 4 2 :: [] ∧ (2 : Word).getLsbD 1 = true ∧ (2 : Word).getLsbD 0 = false) :=
  ⟨⟨by decide, rfl, rfl, _, rfl, by decide⟩, ⟨by decide, rfl, rfl, _, rfl, by decide⟩, by decide, by decide⟩

/-- A running job of each command, and an idle machine, all good, that a step takes on. -/
theorem witness_StepKeepsTheInvariant :
    (let s := lzb lzb1 4 8 0 0 0
     s.Inv ∧ ∃ t, step s = .next t) ∧
      (let s := job 2 [0xC5, 0xAA] 5 Job.initial
       s.Inv ∧ ∃ t, step s = .next t) ∧
      (let s := job 3 [3, 0x12, 0x34] 6 Job.initial
       s.Inv ∧ ∃ t, step s = .next t) ∧
      (let s := conv 8 1 1 1 [0x41] 0 0
       s.Inv ∧ ∃ t, step s = .next t) ∧
      (let s := { State.reset with inbox := [.regWrite 0 4 0x11] }
       s.Inv ∧ ∃ t, step s = .next t) :=
  ⟨⟨by decide, _, rfl⟩, ⟨by decide, _, rfl⟩, ⟨by decide, _, rfl⟩, ⟨by decide, _, rfl⟩, ⟨by decide, _, rfl⟩⟩

theorem witness_GoodStatesNeverFault : State.reset.Inv ∧ (lzb lzb1 4 12 3 0 0).Inv :=
  ⟨by decide, by decide⟩

theorem witness_EveryJobCompletes :
    (let s := lzb lzb1 4 8 0 0 0
     s.Inv ∧ s.phase = .running ∧ s.inbox = []) ∧
      (let s := (ready lzb1 4 0 0 0 0).latchStart 1 true
       s.Inv ∧ s.phase = .starting ∧ s.inbox = [] ∧ s.coversDevice = false) :=
  ⟨by decide, by decide, rfl, rfl, by decide⟩

/-- A pass that writes, and one that ends the job. -/
theorem witness_EngineWritesOnlyTheBytesItReports :
    (let s := job 2 [0xC5, 0xAA] 5 Job.initial
     s.Inv ∧ s.phase = .running ∧ s.inbox = [] ∧ ∃ t, step s = .next t ∧ t.phase = .running ∧ t.written = 5) ∧
      (let s := job 2 [0x01] 2 { Job.initial with inPos := 1, pos := 1 }
       s.Inv ∧ s.phase = .running ∧ s.inbox = [] ∧ ∃ t, step s = .next t ∧ t.phase = .idle) :=
  ⟨⟨by decide, rfl, rfl, _, rfl, by decide, by decide⟩, ⟨by decide, rfl, rfl, _, rfl, by decide⟩⟩

/-- REG-8, for CTRL and for SRC_LEN. -/
theorem witness_JobParametersAreFixedWhileBusy :
    (∀ off ∈ [(0x00 : BitVec 6), 0x0C],
      let s := { job 2 [1, 2] 2 Job.initial with inbox := [.regWrite off 4 0x43] }
      s.busy = true ∧ s.inReset = false ∧ s.win.done = false ∧ s.win.err = false ∧ off.toNat % 4 = 0) ∧
      (let s := { job 2 [1, 2] 2 Job.initial with inbox := [.regWrite 0x0C 4 9] }
       s.busy = true ∧ ∃ t, step s = .next t ∧ t.busy = true) :=
  ⟨by decide, by decide, _, rfl, by decide⟩

theorem witness_MeaningsTouchOnlyTheDestination :
    let s := lzb lzb1 4 12 3 0 0
    s.mem.wf = true ∧ ∃ t, exec (.ref 3 15) s = .next t := ⟨by decide, _, rfl⟩

/-- The same job on two machines whose other memory and internal state differ, three moves on. -/
theorem witness_JobOutcomeDependsOnRegistersAndSource :
    let s := (ready [0xC5, 0xAA] 5 0 0 0 0).latchStart 2 true
    let s' := ({ s with mem := load s.mem 0x2000 [9, 9, 9], before := load s.mem 0x2000 [9, 9, 9] }).withJob { Job.initial with pos := 7, bitbuf := 1 }
    s.Inv ∧ s'.Inv ∧ s.phase = .starting ∧ s'.phase = .starting ∧ s.inbox = [] ∧ s'.inbox = [] ∧ s.win = s'.win ∧
      s.platform = s'.platform ∧ (∀ i, i < s.srcLen → s.src i = s'.src i) ∧
      ∃ t, Host.Core.run core 3 s = .next t ∧ t.phase = .idle ∧ t.win.dstPos = 5 :=
  ⟨by decide, by decide, rfl, rfl, rfl, rfl, rfl, rfl, by decide, _, rfl, by decide, by decide⟩

theorem witness_Rle8LiteralStreamsAreComplemented :
    (let s := job 2 [0x00, 0x7F, 0x80, 0xBF] 4 Job.initial
     s.Inv ∧ s.AtLoop 2 ∧ s.inPos = 0 ∧ s.pos = 0 ∧ s.dstLen ≤ s.srcLen ∧
       (∀ i, i < s.dstLen → (s.src i).toNat < 0xC0)) ∧
      (let s := job 2 [0xC5, 0xAA] 5 Job.initial
       s.Inv ∧ s.AtLoop 2 ∧ s.inPos = 0 ∧ s.pos = 0 ∧ s.dstLen = 5 ∧ s.srcLen = 2 ∧ s.src 0 = 0xC5 ∧
         s.src 1 = 0xAA) :=
  ⟨⟨by decide, by decide, by decide, by decide, by decide, by decide⟩,
    ⟨by decide, by decide, by decide, by decide, by decide, by decide, by decide, by decide⟩⟩

theorem witness_ConvertJobFillsTheRaster :
    let s := conv 8 2 2 2 [0xFF, 0xFF, 0xFF] 0 0
    s.Inv ∧ s.AtLoop 4 ∧ s.x = 0 ∧ s.y = 0 := ⟨by decide, by decide, by decide, by decide⟩

end Sys2Proof.Tests
end

section
/-! The register window under host writes (10_state.md R23, R27, R31, R39, R40): what a write to CTRL, to STATUS and,
while BUSY, to any register does and leaves unchanged. -/

namespace Sys2Proof.Machine

/-! ### BUSY as the phase -/

theorem State.busy_iff {s : State} : s.busy = true ↔ s.phase ≠ .idle := decide_eq_true_iff

theorem State.not_busy_iff {s : State} : s.busy = false ↔ s.phase = .idle := by
  simp [State.busy]

/-! ### Reading registers after CTRL's fields or a START are set -/

/-- CTRL with the IE and OP bits of a written word reads as that word under the mask of its storage (10_state.md
R22). -/
theorem ctrlFields_eq_masked (v : Word) :
    ((0 : BitVec 25) ++ v.extractLsb' 4 3 ++ (0 : BitVec 2) ++ BitVec.ofBool (v.getLsbD 1) ++ (0 : BitVec 1) : Word) =
      v &&& 0x72 := by
  refine BitVec.eq_of_getLsbD_eq fun i hi => ?_
  rw [BitVec.getLsbD_append, BitVec.getLsbD_append, BitVec.getLsbD_append, BitVec.getLsbD_append]
  interval_cases i <;> simp

theorem State.ctrlWord_written {s : State} {v : Word} (hie : s.win.ie = v.getLsbD 1)
    (hop : s.win.op = v.extractLsb' 4 3) : s.ctrlWord = v &&& 0x72 := by
  rw [State.ctrlWord, hie, hop, ctrlFields_eq_masked]

/-- IE and OP are read in CTRL alone. -/
theorem State.register_setCtrl (s : State) (ie : Bool) (op : BitVec 3) {off : BitVec 6} (h : off ≠ 0) :
    (s.withWin { s.win with ie := ie, op := op }).register off = s.register off := by
  simp only [State.register, if_neg h]
  rfl

/-- A START changes CTRL and STATUS alone. -/
theorem State.register_latchStart (op : BitVec 3) (ie : Bool) (s : State) {off : BitVec 6} (h0 : off ≠ 0)
    (h4 : off ≠ 4) : (s.latchStart op ie).register off = s.register off := by
  simp only [State.register, if_neg h0, if_neg h4]
  rfl

/-- STATUS after a START shows BUSY alone (40_jobs.md R90). -/
theorem State.latchStart_statusWord (op : BitVec 3) (ie : Bool) (s : State) :
    (s.latchStart op ie).statusWord = 0x1 := by
  simp [State.statusWord, State.busy, ErrCode.code]

/-! ### CTRL -/

@[simp] theorem State.writeCtrl_ie (v : Word) (s : State) : (s.writeCtrl v).win.ie = v.getLsbD 1 := by
  unfold State.writeCtrl
  split_ifs <;> rfl

/-- A CTRL write changes registers, the phase and the memory kept at START, nothing else. -/
theorem State.writeCtrl_frame (v : Word) (s : State) :
    (s.writeCtrl v).job = s.job ∧ (s.writeCtrl v).mem = s.mem ∧ (s.writeCtrl v).platform = s.platform ∧
      (s.writeCtrl v).inReset = s.inReset ∧ (s.writeCtrl v).inbox = s.inbox ∧
      (s.writeCtrl v).replies = s.replies ∧ (s.writeCtrl v).draws = s.draws := by
  unfold State.writeCtrl
  split_ifs <;> exact ⟨rfl, rfl, rfl, rfl, rfl, rfl, rfl⟩

theorem State.writeCtrl_done {v : Word} {s : State} (h : v.getLsbD 0 = false) :
    (s.writeCtrl v).win.done = s.win.done := by
  cases hb : s.busy with
  | true => rw [State.writeCtrl_busy hb, State.withWin_win]
  | false => rw [State.writeCtrl_noStart hb h, State.withWin_win]

/-- Writing IE = 0 deasserts IRQ (10_state.md R39). -/
theorem State.writeCtrl_irq_disabled {v : Word} {s : State} (h : v.getLsbD 1 = false) :
    (s.writeCtrl v).irq = false := by
  rw [State.irq, State.writeCtrl_ie, h, Bool.false_and]

/-- A START clears DONE, so it deasserts IRQ. -/
theorem State.writeCtrl_irq_started {v : Word} {s : State} (hp : s.phase = .idle) (h : v.getLsbD 0 = true) :
    (s.writeCtrl v).irq = false := by
  rw [State.writeCtrl_start (State.not_busy_iff.2 hp) h]
  exact Bool.and_false _

/-- Writing IE = 1 without START makes IRQ follow DONE. -/
theorem State.writeCtrl_irq_enabled {v : Word} {s : State} (hie : v.getLsbD 1 = true) (h : v.getLsbD 0 = false) :
    (s.writeCtrl v).irq = s.win.done := by
  rw [State.irq, State.writeCtrl_ie, State.writeCtrl_done h, hie, Bool.true_and]

/-- A CTRL write event performs the write. -/
theorem step_writeCtrl {s : State} {v : Word} {rest : List BusEvent} (hr : s.inReset = false)
    (hi : s.inbox = .regWrite 0 4 v :: rest) : step s = .next ((s.withInbox rest).writeCtrl v) :=
  step_regWrite_word hr hi rfl

/-- Settles O30: the three ways a CTRL write goes (idle without START, idle with START, BUSY), each by the lemma of
`writeCtrl` for it, and the frame they share. -/
theorem ctrlWritesSetEnableAndCommand : Obligations.CtrlWritesSetEnableAndCommand := by
  intro s v rest hr hi
  refine ⟨_, step_writeCtrl hr hi, State.writeCtrl_ie _ _, fun hp hv => ?_, fun hp hv => ?_, fun hp => ?_, ?_⟩
  · rw [State.writeCtrl_noStart (s := s.withInbox rest) (State.not_busy_iff.2 hp) hv]
    exact ⟨State.ctrlWord_written rfl rfl, hp, rfl, fun off h => State.register_setCtrl (s.withInbox rest) _ _ h⟩
  · rw [State.writeCtrl_start (s := s.withInbox rest) (State.not_busy_iff.2 hp) hv]
    exact ⟨State.ctrlWord_written rfl rfl, rfl, State.latchStart_statusWord _ _ _, Bool.and_false _, rfl,
      fun off h0 h4 => State.register_latchStart _ _ (s.withInbox rest) h0 h4⟩
  · rw [State.writeCtrl_busy (s := s.withInbox rest) (State.busy_iff.2 hp)]
    exact ⟨rfl, rfl, rfl⟩
  · obtain ⟨hjob, hmem, hplatform, hreset, hinbox, hreplies, hdraws⟩ := State.writeCtrl_frame v (s.withInbox rest)
    exact ⟨hjob, hmem, hplatform, hreset.trans hr, hinbox, hreplies, hdraws⟩

/-! ### STATUS -/

theorem State.writeStatus_acknowledge {v : Word} {s : State} (h : v.getLsbD 1 = true) :
    s.writeStatus v = s.acknowledge := if_pos h

theorem State.writeStatus_ignored {v : Word} {s : State} (h : v.getLsbD 1 = false) : s.writeStatus v = s :=
  if_neg (by rw [h]; exact Bool.false_ne_true)

theorem State.acknowledge_irq (s : State) : s.acknowledge.irq = false := Bool.and_false _

theorem Window.clear_clear {w : Window} (hd : w.done = false) (he : w.err = false) :
    { w with done := false, err := false } = w := by
  cases w
  cases hd
  cases he
  rfl

/-- With DONE and ERR clear there is nothing to acknowledge. -/
theorem State.acknowledge_clear {s : State} (hd : s.win.done = false) (he : s.win.err = false) :
    s.acknowledge = s := congrArg s.withWin (Window.clear_clear hd he)

/-- A STATUS write event performs the write. -/
theorem step_writeStatus {s : State} {v : Word} {rest : List BusEvent} (hr : s.inReset = false)
    (hi : s.inbox = .regWrite 4 4 v :: rest) : step s = .next ((s.withInbox rest).writeStatus v) :=
  step_regWrite_word hr hi rfl

/-- Settles O31: a write with bit 1 set is the acknowledgement, any other leaves the state as it is. -/
theorem statusWriteAcknowledges : Obligations.StatusWriteAcknowledges := by
  intro s v rest hr hi
  refine ⟨_, step_writeStatus hr hi, ?_⟩
  cases hv : v.getLsbD 1 with
  | true =>
    rw [State.writeStatus_acknowledge hv]
    exact ⟨fun _ => ⟨rfl, State.acknowledge_irq _⟩, nofun, rfl, rfl, rfl, rfl, hr, rfl, rfl, rfl, rfl⟩
  | false =>
    rw [State.writeStatus_ignored hv]
    exact ⟨nofun, fun _ => rfl, rfl, rfl, rfl, rfl, hr, rfl, rfl, rfl, rfl⟩

/-! ### Any register, while BUSY -/

/-- While BUSY a register write reaches CTRL's IE and STATUS alone (10_state.md R40). -/
theorem State.writeRegister_busy {off : BitVec 6} {v : Word} {s : State} (h : s.busy = true) :
    s.writeRegister off v =
      if off = 0 then s.withWin { s.win with ie := v.getLsbD 1 } else if off = 4 then s.writeStatus v else s := by
  simp only [State.writeRegister, State.writeParam_busy h, State.writeCtrl_busy h, ite_self]

theorem State.writeStatus_clear {v : Word} {s : State} (hd : s.win.done = false) (he : s.win.err = false) :
    s.writeStatus v = s := by
  rw [State.writeStatus, State.acknowledge_clear hd he, ite_self]

end Sys2Proof.Machine
end

section
/-! What an engine move leaves in the registers: the move goes on with the job, the registers as the job's START left
them, or it completes the job (40_jobs.md R90, R94). From this follow the interrupt output of a running job (10_state.md
R39) and the stability of a job's parameters (R40). -/

namespace Sys2Proof

/-- The four job commands; every other instruction is a token or a pixel of a running job. -/
def Instr.isCommand : Instr → Bool
  | .cmdLzb _ | .cmdRle8 _ | .cmdRle16 _ | .cmdConvert _ => true
  | _ => false

theorem decodeRle8_not_command {l : List Byte} {i : Instr} {n : Nat} (h : decodeRle8 l = .ok (i, n)) :
    i.isCommand = false := by
  cases l with
  | nil => cases h
  | cons k t =>
    rw [decodeRle8_cons] at h
    split_ifs at h
    · cases h
      rfl
    · cases h
      rfl
    · cases h
      rfl
    · split at h <;> cases h
      rfl

theorem decodeRle16_not_command {l : List Byte} {i : Instr} {n : Nat} (h : decodeRle16 l = .ok (i, n)) :
    i.isCommand = false := by
  unfold decodeRle16 at h
  split at h <;> cases h
  rfl

theorem decodeGeom1_not_command {w : Word} {i : Instr} (h : decodeGeom1 w = .ok i) : i.isCommand = false := by
  unfold decodeGeom1 at h
  split_ifs at h <;> cases h <;> rfl

end Sys2Proof

namespace Sys2Proof.Machine

/-! ### A fetch moves the stream position alone -/

/-- A fetch of a running job's loop: an instruction of a stream or raster, found on a state in which the internal job
state alone may differ from `s`. -/
def Fetched.InLoop (s : State) : Fetched → Prop
  | .wait => False
  | .run i s' => i.isCommand = false ∧ ∃ j, s' = s.withJob j
  | .ended _ _ s' => ∃ j, s' = s.withJob j
  | .broken _ => True

theorem State.takeBits_withJob {n v : Nat} {s s' : State} (h : s.takeBits n = some (v, s')) :
    ∃ j, s' = s.withJob j := by
  simp only [State.takeBits] at h
  split_ifs at h <;> cases h <;> exact ⟨_, rfl⟩

theorem State.takeBits_withJob_trans {n v : Nat} {s s' s'' : State} (hs : ∃ j, s' = s.withJob j)
    (h : s'.takeBits n = some (v, s'')) : ∃ j, s'' = s.withJob j := by
  obtain ⟨_, rfl⟩ := hs
  obtain ⟨j, rfl⟩ := State.takeBits_withJob h
  exact ⟨j, rfl⟩

theorem State.fetchLzb_inLoop (s : State) : s.fetchLzb.InLoop s := by
  unfold State.fetchLzb
  split
  · trivial
  · split
    · exact ⟨s.job, rfl⟩
    · rename_i c s1 h1
      have w1 := State.takeBits_withJob h1
      split
      · split
        · exact w1
        · rename_i l s2 h2
          exact ⟨rfl, State.takeBits_withJob_trans w1 h2⟩
      · split
        · exact w1
        · rename_i o s2 h2
          have w2 := State.takeBits_withJob_trans w1 h2
          split
          · exact w2
          · rename_i m s3 h3
            exact ⟨rfl, State.takeBits_withJob_trans w2 h3⟩

theorem State.fetchedBytes_inLoop (s : State) {r : Except Reject (Instr × Nat)}
    (hr : ∀ {i n}, r = .ok (i, n) → i.isCommand = false) : (s.fetchedBytes r).InLoop s := by
  unfold State.fetchedBytes
  split
  · exact ⟨hr rfl, _, rfl⟩
  · exact ⟨_, rfl⟩
  · trivial

theorem State.fetchPixel_inLoop (s : State) : s.fetchPixel.InLoop s := by
  unfold State.fetchPixel
  split
  · rename_i i h
    exact ⟨decodeGeom1_not_command h, s.job, rfl⟩
  · trivial

theorem State.fetchRunning_inLoop (s : State) : s.fetchRunning.InLoop s := by
  unfold State.fetchRunning
  split_ifs
  · trivial
  · exact ⟨s.job, rfl⟩
  · exact s.fetchLzb_inLoop
  · exact s.fetchedBytes_inLoop decodeRle8_not_command
  · exact s.fetchedBytes_inLoop decodeRle16_not_command
  · exact s.fetchPixel_inLoop
  · trivial

/-! ### The two ways a move of a job leaves the registers -/

/-- A move of a job whose registers are `w`: the loop goes on with the registers as they are, or the job completes from
some state with these registers. -/
inductive JobMove (w : Window) (t : State) : Prop
  | goesOn (win : t.win = w) (phase : t.phase = .running)
  | completes (u : State) (e : ErrCode) (p : Progress) (win : u.win = w) (eq : t = u.complete e p)

/-- Only a move that goes on leaves the block BUSY. -/
theorem JobMove.win_of_busy {w : Window} {t : State} (h : JobMove w t) (hb : t.busy = true) : t.win = w := by
  cases h with
  | goesOn win _ => exact win
  | completes u e p _ eq =>
    subst eq
    cases hb

/-- IRQ after a move of a job whose registers have DONE clear (10_state.md R39). -/
theorem JobMove.irq {w : Window} {t : State} (h : JobMove w t) (hd : w.done = false) :
    t.irq = (w.ie && decide (t.phase = .idle)) := by
  cases h with
  | goesOn win phase => simp [State.irq, win, phase, hd]
  | completes u e p win eq => simp [State.irq, eq, win]

/-- A guarded update that leaves the registers and the running phase alone goes on. -/
theorem JobMove.of_guard {P : Prop} [Decidable P] {s t u : State} {f : Fault}
    (h : (if P then .next u else .fault f : Host.Outcome State Fault Refusal) = .next t) (hu : u.win = s.win)
    (hp : u.phase = .running) : JobMove s.win t := by
  cases next_of_guard h
  exact .goesOn hu hp

/-- A token or a pixel of a running job. -/
theorem exec_jobMove {i : Instr} {s t : State} (hi : i.isCommand = false) (hp : s.phase = .running)
    (h : exec i s = .next t) : JobMove s.win t := by
  cases i with
  | cmdLzb | cmdRle8 | cmdRle16 | cmdConvert => cases hi
  | ref o m =>
    replace h : execRef o m s = .next t := h
    unfold execRef at h
    split at h
    · cases h
      exact .completes s _ _ rfl (State.raise_eq_complete _ _)
    · exact .of_guard h rfl hp
  | lit | run | klit00 | klit01 | klit10 | unit => exact .of_guard h rfl hp
  | convBpp1 | convBpp2 | convBpp4 | convBpp8 | convBpp16 => exact .of_guard h rfl hp

/-- An engine move of a running job. -/
theorem engineMove_running {s t : State} (hp : s.phase = .running) (h : engineMove s = .next t) :
    JobMove s.win t := by
  have hf := s.fetchRunning_inLoop
  rw [← State.fetch_running hp] at hf
  cases e : s.fetch with
  | wait =>
    rw [e] at hf
    exact hf.elim
  | broken f => cases (engineMove_broken e).symm.trans h
  | run i s' =>
    rw [e] at hf
    obtain ⟨hi, j, rfl⟩ := hf
    exact exec_jobMove (s := s.withJob j) hi hp ((engineMove_run e).symm.trans h)
  | ended c p s' =>
    rw [e] at hf
    obtain ⟨j, rfl⟩ := hf
    cases (engineMove_ended e).symm.trans h
    exact .completes (s.withJob j) c p rfl rfl

/-! ### The command of an accepted START -/

theorem beginJob_jobMove {s t : State} {body : State → Host.Outcome State Fault Refusal}
    (hb : body s.initJob = .next t → JobMove s.initJob.win t) (h : beginJob s body = .next t) : JobMove s.win t := by
  cases hc : s.startCheckFails with
  | true =>
    cases (beginJob_fail hc).symm.trans h
    exact .completes s _ _ rfl rfl
  | false => exact hb ((beginJob_pass hc).symm.trans h)

theorem lzbHeader_jobMove {s t : State} (h : lzbHeader s = .next t) : JobMove s.win t := by
  unfold lzbHeader at h
  split_ifs at h <;> cases h
  · exact .completes s _ _ rfl rfl
  · exact .completes s.readHeader _ _ rfl rfl
  · exact .completes s.readHeader _ _ rfl rfl
  · exact .goesOn rfl rfl

/-- Entering the loop is the last thing RLE8, RLE16 and CONVERT do. -/
theorem enterLoop_jobMove {s t : State} (h : unlessDevice s (fun s => .next s.enterLoop) = .next t) :
    JobMove s.win t := by
  cases unlessDevice_next h
  exact .goesOn rfl rfl

theorem execCmdLzb_jobMove {ie : Bool} {s t : State} (h : execCmdLzb ie s = .next t) :
    JobMove (s.startedWin 1 ie) t :=
  beginJob_jobMove (s := s.latchStart 1 ie) (fun hb => lzbHeader_jobMove (unlessDevice_next hb)) h

theorem execCmdRle8_jobMove {ie : Bool} {s t : State} (h : execCmdRle8 ie s = .next t) :
    JobMove (s.startedWin 2 ie) t :=
  beginJob_jobMove (s := s.latchStart 2 ie) enterLoop_jobMove h

theorem execCmdRle16_jobMove {ie : Bool} {s t : State} (h : execCmdRle16 ie s = .next t) :
    JobMove (s.startedWin 3 ie) t := by
  refine beginJob_jobMove (s := s.latchStart 3 ie) (fun hb => ?_) h
  split at hb
  · cases hb
    exact .completes _ _ _ rfl rfl
  · exact enterLoop_jobMove hb

theorem execCmdConvert_jobMove {ie : Bool} {s t : State} (h : execCmdConvert ie s = .next t) :
    JobMove (s.startedWin 4 ie) t := by
  refine beginJob_jobMove (s := s.latchStart 4 ie) (fun hb => ?_) h
  split_ifs at hb
  · cases hb
    exact .completes _ _ _ rfl rfl
  · cases hb
    exact .completes _ _ _ rfl rfl
  · cases hb
    exact .completes _ _ _ rfl rfl
  · exact enterLoop_jobMove hb

/-- An engine move of a job just started: the command in OP runs, and latches OP and IE as they are. -/
theorem engineMove_starting {s t : State} (hp : s.phase = .starting) (h : engineMove s = .next t) :
    JobMove (s.startedWin s.win.op s.win.ie) t := by
  have hf : s.fetch = s.fetchCommand := State.fetch_starting hp
  unfold State.fetchCommand at hf
  rw [decodeCtrl_startWord] at hf
  split_ifs at hf with h1 h2 h3 h4
  · rw [h1]
    exact execCmdLzb_jobMove ((engineMove_run hf).symm.trans h)
  · rw [h2]
    exact execCmdRle8_jobMove ((engineMove_run hf).symm.trans h)
  · rw [h3]
    exact execCmdRle16_jobMove ((engineMove_run hf).symm.trans h)
  · rw [h4]
    exact execCmdConvert_jobMove ((engineMove_run hf).symm.trans h)
  · cases (engineMove_ended hf).symm.trans h
    exact .completes (s.latchStart s.win.op s.win.ie) _ _ rfl rfl

/-! ### The interrupt output -/

/-- Settles O41: IRQ after a move of a running job by what the move does (`JobMove.irq`), after a host write by what the
write does to IE and DONE. -/
theorem interruptFollowsEnableAndDone : Obligations.InterruptFollowsEnableAndDone := by
  refine ⟨fun s => rfl, fun s t hinv hp hi h => ?_, fun s v rest hr hi hv => ?_, fun s v rest hr hi => ?_⟩
  · obtain ⟨-, hbusy, -⟩ := hinv
    obtain ⟨hdone, -⟩ := hbusy (State.busy_iff.2 (by simp [hp]))
    exact (engineMove_running hp ((step_engine hi).symm.trans h)).irq hdone
  · refine ⟨_, step_writeStatus hr hi, ?_⟩
    rw [State.writeStatus_acknowledge hv, State.acknowledge_irq]
  · exact ⟨_, step_writeCtrl hr hi, State.writeCtrl_irq_disabled,
      fun hv hp => State.writeCtrl_irq_started (s := s.withInbox rest) hp hv, State.writeCtrl_irq_enabled⟩

/-! ### A job's parameters -/

/-- The parameters a job reads, the platform and the reset input are the same in `t` as in `s`. -/
abbrev SameParameters (s t : State) : Prop :=
  t.win.op = s.win.op ∧ t.win.srcAddr = s.win.srcAddr ∧ t.win.srcLen = s.win.srcLen ∧
    t.win.dstAddr = s.win.dstAddr ∧ t.win.dstLen = s.win.dstLen ∧ t.win.stride = s.win.stride ∧
    t.win.height = s.win.height ∧ t.win.width = s.win.width ∧ t.win.bpp = s.win.bpp ∧
    t.platform = s.platform ∧ t.inReset = s.inReset

theorem SameParameters.refl (s : State) : SameParameters s s := by
  simp [SameParameters]

theorem State.writeStatus_sameParameters (v : Word) (s : State) : SameParameters s (s.writeStatus v) := by
  cases hv : v.getLsbD 1 with
  | true =>
    rw [State.writeStatus_acknowledge hv]
    exact .refl s
  | false =>
    rw [State.writeStatus_ignored hv]
    exact .refl s

theorem State.writeRegister_sameParameters {off : BitVec 6} {v : Word} {s : State} (h : s.busy = true) :
    SameParameters s (s.writeRegister off v) := by
  rw [State.writeRegister_busy h]
  split_ifs
  · exact .refl s
  · exact s.writeStatus_sameParameters v
  · exact .refl s

theorem State.readRegister_sameParameters (off : BitVec 6) (s : State) : SameParameters s (s.readRegister off) := by
  unfold State.readRegister
  split <;> exact .refl s

/-- An engine move from BUSY to BUSY. -/
theorem engineMove_sameParameters {s t : State} (hs : s.busy = true) (ht : t.busy = true)
    (h : engineMove s = .next t) : SameParameters s t := by
  obtain ⟨hplatform, hreset, -⟩ := engineMove_sameWorld h
  cases hp : s.phase with
  | idle => exact absurd hp (State.busy_iff.1 hs)
  | starting =>
    have hw := (engineMove_starting hp h).win_of_busy ht
    simp [SameParameters, hw, State.startedWin, hplatform, hreset]
  | running =>
    have hw := (engineMove_running hp h).win_of_busy ht
    simp [SameParameters, hw, hplatform, hreset]

/-- A performed register access answers the state after it. -/
theorem State.registerAccess_next {s s' t : State} {off : BitVec 6} {size : Nat}
    (h : s.registerAccess off size s' = .next t) : t = s' := by
  unfold State.registerAccess at h
  split_ifs at h
  cases h
  rfl

/-- A performed memory access is the access itself. -/
theorem State.memoryAccess_next {s t : State} {a : Nat} {r : Host.Outcome State Fault Refusal}
    (h : s.memoryAccess a r = .next t) : r = .next t := by
  unfold State.memoryAccess at h
  split_ifs at h
  exact h

theorem busMemWrite_sameParameters {a : Word} {b : Byte} {s t : State} (h : busMemWrite a b s = .next t) :
    SameParameters s t := by
  replace h := State.memoryAccess_next h
  split at h <;> cases h
  exact .refl s

theorem busMemRead_sameParameters {a : Word} {s t : State} (h : busMemRead a s = .next t) :
    SameParameters s t := by
  replace h := State.memoryAccess_next h
  split at h <;> cases h <;> exact .refl s

/-- A reset asserted ends the job, so the block is not BUSY after it. -/
theorem busResetAssert_idle {s t : State} (h : busResetAssert s = .next t) : t.busy = false := by
  cases h
  rfl

/-- A release without an assertion does nothing; the release of an asserted reset leaves the block idle. -/
theorem busResetRelease_sameParameters {s t : State} (ht : t.busy = true) (h : busResetRelease s = .next t) :
    SameParameters s t := by
  unfold busResetRelease at h
  split_ifs at h <;> cases h
  · cases ht
  · exact .refl s

/-- Every step from BUSY to BUSY, whatever the outside world does. -/
theorem step_sameParameters {s t : State} (h : step s = .next t) (hs : s.busy = true) (ht : t.busy = true) :
    SameParameters s t := by
  cases hi : s.inbox with
  | nil => exact engineMove_sameParameters hs ht ((step_engine hi).symm.trans h)
  | cons ev rest =>
    cases ev with
    | regWrite off size v =>
      cases State.registerAccess_next ((step_regWrite hi).symm.trans h)
      exact State.writeRegister_sameParameters (s := s.withInbox rest) hs
    | regRead off size =>
      cases State.registerAccess_next ((step_regRead hi).symm.trans h)
      exact State.readRegister_sameParameters off (s.withInbox rest)
    | memWrite a b => exact busMemWrite_sameParameters (s := s.withInbox rest) ((step_memWrite hi).symm.trans h)
    | memRead a => exact busMemRead_sameParameters (s := s.withInbox rest) ((step_memRead hi).symm.trans h)
    | resetAssert => cases (busResetAssert_idle ((step_resetAssert hi).symm.trans h)).symm.trans ht
    | resetRelease =>
      exact busResetRelease_sameParameters (s := s.withInbox rest) ht ((step_resetRelease hi).symm.trans h)
    | engineTurn =>
      exact engineMove_sameParameters (s := s.withInbox rest) hs ht ((step_engineTurn hi).symm.trans h)
    | waitDone =>
      replace h := (step_waitDone hi).symm.trans h
      unfold waitForDone at h
      split_ifs at h
      · cases h
        exact .refl s
      · exact engineMove_sameParameters hs ht h
    | waitIrq =>
      replace h := (step_waitIrq hi).symm.trans h
      unfold waitForIrq at h
      split_ifs at h
      · cases h
        exact .refl s
      · exact engineMove_sameParameters hs ht h

/-- Settles O47: a register write while BUSY by `writeRegister_busy` (there is no completion to acknowledge), every step
from BUSY to BUSY by `step_sameParameters`. -/
theorem jobParametersAreFixedWhileBusy : Obligations.JobParametersAreFixedWhileBusy := by
  refine ⟨fun s off v rest hb hr hd he hi ho => ?_, fun s t h hs ht => step_sameParameters h hs ht⟩
  rw [step_regWrite_word hr hi ho, State.writeRegister_busy (s := s.withInbox rest) hb,
    State.writeStatus_clear (s := s.withInbox rest) hd he, ite_self]
  split <;> rfl

end Sys2Proof.Machine
end

section
/-! Register accesses the bus refuses (20_memory.md R55, 70_reset_and_hazards.md R220). -/

namespace Sys2Proof.Machine

/-- A register access event, read or write, is an access check around some state. -/
theorem step_registerAccess {s : State} {off : BitVec 6} {size : Nat} {v : Word} {rest : List BusEvent}
    (h : s.inbox = .regWrite off size v :: rest ∨ s.inbox = .regRead off size :: rest) :
    ∃ s', step s = (s.withInbox rest).registerAccess off size s' := by
  rcases h with h | h
  · exact ⟨_, step_regWrite h⟩
  · exact ⟨_, step_regRead h⟩

/-- Settles O33: a read and a write go through the one access check, which refuses in reset and then what is not an
aligned word. -/
theorem badRegisterAccessesAreRefused : Obligations.BadRegisterAccessesAreRefused := by
  intro s off size v rest hi
  obtain ⟨s', hs⟩ := step_registerAccess hi
  rw [hs]
  exact ⟨fun hr => State.registerAccess_inReset (s := s.withInbox rest) hr,
    fun hr h => State.registerAccess_bad (s := s.withInbox rest) hr h⟩

end Sys2Proof.Machine
end

section
/-! The outcome of a job is a function of the registers at START and of the source bytes (20_memory.md R65): two
machines that hold one job stay in lockstep. `SameStart` is what they share when the job is accepted, `SameJob` what
they share in its loop: the internal job state too, and the destination bytes written so far, which alone a
back-reference reads (R50). Each operation of the engine takes related states to related outcomes. -/

namespace Sys2Proof

/-- The OP of the job whose loop runs the instruction; none for a command. -/
def Instr.loopOp : Instr → Option Nat
  | .cmdLzb _ | .cmdRle8 _ | .cmdRle16 _ | .cmdConvert _ => none
  | .lit _ | .ref _ _ => some 1
  | .run _ _ | .klit00 _ | .klit01 _ | .klit10 _ => some 2
  | .unit _ _ _ => some 3
  | .convBpp1 | .convBpp2 | .convBpp4 | .convBpp8 | .convBpp16 => some 4

theorem decodeRle8_loopOp {l : List Byte} {i : Instr} {n : Nat} (h : decodeRle8 l = .ok (i, n)) :
    i.loopOp = some 2 := by
  cases l with
  | nil => cases h
  | cons k t =>
    rw [decodeRle8_cons] at h
    split_ifs at h
    · cases h
      rfl
    · cases h
      rfl
    · cases h
      rfl
    · split at h <;> cases h
      rfl

theorem decodeRle16_loopOp {l : List Byte} {i : Instr} {n : Nat} (h : decodeRle16 l = .ok (i, n)) :
    i.loopOp = some 3 := by
  unfold decodeRle16 at h
  split at h <;> cases h
  rfl

theorem decodeGeom1_loopOp {w : Word} {i : Instr} (h : decodeGeom1 w = .ok i) : i.loopOp = some 4 := by
  unfold decodeGeom1 at h
  split_ifs at h <;> cases h <;> rfl

end Sys2Proof

namespace Sys2Proof.Machine

/-! ### Two machines with one job -/

/-- Two machines with the same registers, phase, platform and source bytes; their memory may differ elsewhere, as may
their internal job state. -/
structure SameStart (s s' : State) : Prop where
  win : s'.win = s.win
  phase : s'.phase = s.phase
  platform : s'.platform = s.platform
  wf : s.mem.wf = true
  wf' : s'.mem.wf = true
  src : ∀ i, i < s.srcLen → s'.src i = s.src i

/-- Two machines with the same initialised job, over ranges that do not meet: the internal job state and the destination
bytes written agree as well. -/
structure SameJob (s s' : State) : Prop extends SameStart s s' where
  job : s'.job = s.job
  disjoint : rangesMeet s.srcAddr s.srcLen s.dstAddr s.dstLen = false
  dst : ∀ i, i < s.written → s'.dst i = s.dst i

/-- Two machines at the same point of one job: just accepted, in its loop, or past its completion with the same report
and the same bytes written. -/
inductive SameProgress (s s' : State) : Prop
  | starting (h : SameStart s s') (phase : s.phase = .starting)
  | running (h : SameJob s s') (phase : s.phase = .running)
  | ended (win : s'.win = s.win) (phase : s.phase = .idle) (phase' : s'.phase = .idle)
      (dst : ∀ i, i < s.win.dstPos.toNat → s'.dst i = s.dst i)

theorem SameProgress.win {s s' : State} (h : SameProgress s s') : s'.win = s.win := by
  cases h with
  | starting h _ => exact h.win
  | running h _ => exact h.win
  | ended win _ _ _ => exact win

theorem SameProgress.phase {s s' : State} (h : SameProgress s s') : s'.phase = s.phase := by
  cases h with
  | starting h _ => exact h.phase
  | running h _ => exact h.phase
  | ended _ phase phase' _ => exact phase'.trans phase.symm

theorem SameProgress.dst_of_idle {s s' : State} (h : SameProgress s s') (hp : s.phase = .idle) :
    ∀ i, i < s.win.dstPos.toNat → s'.dst i = s.dst i := by
  cases h with
  | starting _ phase => cases phase.symm.trans hp
  | running _ phase => cases phase.symm.trans hp
  | ended _ _ _ dst => exact dst

/-- The job of `s` (registers, phase, internal state) on the machine `o`. All that the engine computes from registers
and internal state alone is by definition the same in `s` and in `s.jobOn o`. -/
def State.jobOn (s o : State) : State :=
  { o with win := s.win, phase := s.phase, platform := s.platform, job := s.job }

theorem SameStart.exists_jobOn {s s' : State} (h : SameStart s s') : ∃ o j, s' = (s.jobOn o).withJob j := by
  refine ⟨s', s'.job, ?_⟩
  rw [State.jobOn, ← h.win, ← h.phase, ← h.platform]
  rfl

theorem SameJob.exists_jobOn {s s' : State} (h : SameJob s s') : ∃ o, s' = s.jobOn o := by
  refine ⟨s', ?_⟩
  rw [State.jobOn, ← h.win, ← h.phase, ← h.platform, ← h.job]

/-! ### What keeps the job the same -/

theorem SameStart.latchStart {s s' : State} (h : SameStart s s') (op : BitVec 3) (ie : Bool) :
    SameStart (s.latchStart op ie) (s'.latchStart op ie) where
  win := by simp only [State.latchStart, h.win]
  phase := rfl
  platform := h.platform
  wf := h.wf
  wf' := h.wf'
  src i hi := by
    obtain ⟨o, j, rfl⟩ := h.exists_jobOn
    exact h.src i hi

/-- The initialisation of R92 makes the internal states one; nothing is written yet. -/
theorem SameStart.initJob {s s' : State} (h : SameStart s s') (hc : s.startCheckFails = false) :
    SameJob s.initJob s'.initJob where
  toSameStart := ⟨h.win, h.phase, h.platform, h.wf, h.wf', h.src⟩
  job := rfl
  disjoint := by
    simp only [State.startCheckFails, Bool.or_eq_false_iff] at hc
    exact hc.2
  dst i hi := by
    rw [State.written_initJob] at hi
    omega

/-- The internal state moves on in both machines, the output position staying where it is. -/
theorem SameJob.withJob {s s' : State} (h : SameJob s s') {j : Job} (hw : (s.withJob j).written = s.written) :
    SameJob (s.withJob j) (s'.withJob j) where
  toSameStart := ⟨h.win, h.phase, h.platform, h.wf, h.wf', h.src⟩
  job := rfl
  disjoint := h.disjoint
  dst i hi := h.dst i (hw ▸ hi)

theorem SameJob.enterLoop {s s' : State} (h : SameJob s s') : SameJob s.enterLoop s'.enterLoop where
  toSameStart := ⟨h.win, rfl, h.platform, h.wf, h.wf', h.src⟩
  job := h.job
  disjoint := h.disjoint
  dst := h.dst

theorem Stored.dst_below {s t : State} {i n k : Nat} {f : Nat → Byte} (st : Stored s t i n f) (hk : k < i) :
    t.dst k = s.dst k := by
  obtain ⟨hwin, -⟩ := st.block
  rw [State.dst, State.dstAddr, hwin]
  exact st.outside _ (by simp only [State.dstAddr]; omega)

/-- A store inside the destination range leaves the source bytes alone where the ranges do not meet (20_memory.md
R69). -/
theorem Stored.src_kept {s t : State} {i n k : Nat} {f : Nat → Byte} (st : Stored s t i n f)
    (hd : rangesMeet s.srcAddr s.srcLen s.dstAddr s.dstLen = false) (hn : i + n ≤ s.dstLen) (hk : k < s.srcLen) :
    t.src k = s.src k := by
  obtain ⟨hwin, -⟩ := st.block
  simp only [rangesMeet, Bool.and_eq_false_iff, decide_eq_false_iff_not] at hd
  rw [State.src, State.srcAddr, hwin]
  exact st.outside _ (by simp only [State.srcAddr] at hd; omega)

/-- Both machines store the same bytes right after those written, and count no more than these as written. -/
theorem SameJob.stored {s s' t t' : State} {n : Nat} {f f' : Nat → Byte} (h : SameJob s s')
    (hd : s.dstHolds s.written n = true) (st : Stored s t s.written n f) (st' : Stored s' t' s.written n f')
    (hf : ∀ i, i < n → f' i = f i) (hj : t'.job = t.job) (hw : t.written ≤ s.written + n) : SameJob t t' := by
  obtain ⟨o, rfl⟩ := h.exists_jobOn
  obtain ⟨hwin, hphase, hplatform, -⟩ := st.block
  obtain ⟨hwin', hphase', hplatform', -⟩ := st'.block
  obtain ⟨-, hn⟩ := (State.dstHolds_iff s _ _).1 hd
  refine ⟨⟨hwin'.trans hwin.symm, hphase'.trans hphase.symm, hplatform'.trans hplatform.symm, st.wf, st'.wf, ?_⟩,
    hj, by simpa [hwin] using h.disjoint, fun i hi => ?_⟩
  · intro i hi
    rw [State.srcLen, hwin] at hi
    rw [st.src_kept h.disjoint hn hi, st'.src_kept h.disjoint hn hi, h.src i hi]
  · by_cases hlt : i < s.written
    · rw [st.dst_below hlt, st'.dst_below hlt, h.dst i hlt]
    · obtain ⟨k, rfl⟩ := Nat.exists_eq_add_of_le (Nat.not_lt.1 hlt)
      rw [st.bytes k (by omega), st'.bytes k (by omega), hf k (by omega)]

/-! ### Completions -/

/-- A completion reports what the registers and the internal job state say (40_jobs.md R94). -/
theorem SameJob.complete {s s' : State} (h : SameJob s s') (e : ErrCode) (p : Progress) :
    SameProgress (s.complete e p) (s'.complete e p) := by
  obtain ⟨o, rfl⟩ := h.exists_jobOn
  refine .ended rfl rfl rfl fun i hi => h.dst i (Nat.lt_of_lt_of_le hi ?_)
  simp only [State.complete]
  split
  · exact Nat.zero_le _
  · rw [BitVec.toNat_ofNat]
    exact Nat.mod_le _ _

/-- A failed start check reports zeros, whatever the internal job state. -/
theorem SameStart.complete_checked {s s' : State} (h : SameStart s s') (e : ErrCode) :
    SameProgress (s.complete e .checked) (s'.complete e .checked) := by
  obtain ⟨o, j, rfl⟩ := h.exists_jobOn
  refine .ended ?_ rfl rfl fun i hi => ?_
  · simp [State.complete, State.jobOn, State.withJob]
  · simp [State.complete] at hi

/-! ### Outcomes in lockstep -/

/-- Two outcomes of the same kind: next states at the same point of one job, or the same reason to stop. -/
inductive SameOutcome : Host.Outcome State Fault Refusal → Host.Outcome State Fault Refusal → Prop
  | next {t t' : State} (h : SameProgress t t') : SameOutcome (.next t) (.next t')
  | fault (f : Fault) : SameOutcome (.fault f) (.fault f)
  | refused (r : Refusal) : SameOutcome (.refused r) (.refused r)

/-- Two machines that decide alike. -/
theorem SameOutcome.ite {P : Prop} [Decidable P] {a b a' b' : Host.Outcome State Fault Refusal}
    (ht : P → SameOutcome a a') (hf : ¬P → SameOutcome b b') :
    SameOutcome (if P then a else b) (if P then a' else b') := by
  split
  · exact ht ‹_›
  · exact hf ‹_›

theorem SameOutcome.exists_next {o o' : Host.Outcome State Fault Refusal} {t : State} (h : SameOutcome o o')
    (ho : o = .next t) : ∃ t', o' = .next t' ∧ SameProgress t t' := by
  cases h with
  | next h =>
    cases ho
    exact ⟨_, rfl, h⟩
  | fault | refused => cases ho

/-! ### The commands (40_jobs.md R90 to R98) -/

section Commands
variable {s s' : State}

theorem beginJob_sameOutcome {body : State → Host.Outcome State Fault Refusal} (h : SameStart s s')
    (hb : SameJob s.initJob s'.initJob → SameOutcome (body s.initJob) (body s'.initJob)) :
    SameOutcome (beginJob s body) (beginJob s' body) := by
  have hc : s'.startCheckFails = s.startCheckFails := by
    obtain ⟨o, j, rfl⟩ := h.exists_jobOn
    rfl
  unfold beginJob
  rw [hc]
  exact .ite (fun _ => .next (h.complete_checked _)) fun hp => hb (h.initJob (Bool.eq_false_iff.2 hp))

theorem unlessDevice_sameOutcome {body : State → Host.Outcome State Fault Refusal} (h : SameJob s s')
    (hb : SameOutcome (body s) (body s')) : SameOutcome (unlessDevice s body) (unlessDevice s' body) := by
  obtain ⟨o, rfl⟩ := h.exists_jobOn
  exact .ite (P := s.coversDevice = true) (fun _ => .refused _) fun _ => hb

theorem enterLoop_sameOutcome (h : SameJob s s') :
    SameOutcome (unlessDevice s fun s => .next s.enterLoop) (unlessDevice s' fun s => .next s.enterLoop) :=
  unlessDevice_sameOutcome h (.next (.running h.enterLoop rfl))

/-- A word of the source range is the same in both machines. -/
theorem SameJob.readWord (h : SameJob s s') {i : Nat} (hi : i + 4 ≤ s.srcLen) :
    s'.mem.readWord (s.srcAddr + i) = s.mem.readWord (s.srcAddr + i) := by
  have hb (k : Nat) (hk : k < 4) : s'.mem.read (s.srcAddr + i + k) = s.mem.read (s.srcAddr + i + k) := by
    obtain ⟨o, rfl⟩ := h.exists_jobOn
    rw [Nat.add_assoc]
    exact h.src (i + k) (by omega)
  have h0 : s'.mem.read (s.srcAddr + i) = s.mem.read (s.srcAddr + i) := hb 0 (by omega)
  rw [Memory.readWord, hb 3 (by omega), hb 2 (by omega), hb 1 (by omega), h0, Memory.readWord]

theorem SameJob.readHalf (h : SameJob s s') {i : Nat} (hi : i + 2 ≤ s.srcLen) :
    s'.mem.readHalf (s.srcAddr + i) = s.mem.readHalf (s.srcAddr + i) := by
  obtain ⟨o, rfl⟩ := h.exists_jobOn
  exact congrArg₂ (· ++ ·) (h.src (i + 1) (by omega)) (h.src i (by omega))

theorem SameJob.readHeader (h : SameJob s s') (hl : 8 ≤ s.srcLen) : SameJob s.readHeader s'.readHeader := by
  have h0 := h.readWord (i := 0) (by omega)
  have h4 := h.readHalf (i := 4) (by omega)
  have h6 := h.readHalf (i := 6) (by omega)
  have hr : s'.readHeader = s'.withJob s.readHeader.job := by
    simp only [State.srcAddr, Nat.add_zero] at h0 h4 h6
    simp only [State.readHeader, State.srcAddr, State.withJob_job, h.win, h.job, h0, h4, h6]
  rw [hr]
  exact h.withJob rfl

theorem lzbHeader_sameOutcome (h : SameJob s s') : SameOutcome (lzbHeader s) (lzbHeader s') := by
  obtain ⟨o, rfl⟩ := h.exists_jobOn
  refine .ite (P := s.srcLen < 8) (fun _ => .next (h.complete _ _)) fun hl => ?_
  have hr := h.readHeader (Nat.not_lt.1 hl)
  obtain ⟨o', ho⟩ := hr.exists_jobOn
  rw [ho] at hr ⊢
  refine .ite (P := s.readHeader.widths.legal = false) (fun _ => .next (hr.complete _ _)) fun _ => ?_
  exact .ite (P := s.readHeader.dstLen < s.readHeader.osize) (fun _ => .next (hr.complete _ _)) fun _ =>
    .next (.running hr.enterLoop rfl)

theorem execCmdLzb_sameOutcome (h : SameStart s s') (ie : Bool) :
    SameOutcome (execCmdLzb ie s) (execCmdLzb ie s') :=
  beginJob_sameOutcome (h.latchStart 1 ie) fun hj => unlessDevice_sameOutcome hj (lzbHeader_sameOutcome hj)

theorem execCmdRle8_sameOutcome (h : SameStart s s') (ie : Bool) :
    SameOutcome (execCmdRle8 ie s) (execCmdRle8 ie s') :=
  beginJob_sameOutcome (h.latchStart 2 ie) enterLoop_sameOutcome

theorem execCmdRle16_sameOutcome (h : SameStart s s') (ie : Bool) :
    SameOutcome (execCmdRle16 ie s) (execCmdRle16 ie s') := by
  obtain ⟨o, j, rfl⟩ := h.exists_jobOn
  exact beginJob_sameOutcome (h.latchStart 3 ie) fun hj =>
    .ite (P := s.dstLen % 2 = 1) (fun _ => .next (hj.complete _ _)) fun _ => enterLoop_sameOutcome hj

theorem execCmdConvert_sameOutcome (h : SameStart s s') (ie : Bool) :
    SameOutcome (execCmdConvert ie s) (execCmdConvert ie s') := by
  obtain ⟨o, j, rfl⟩ := h.exists_jobOn
  exact beginJob_sameOutcome (h.latchStart 4 ie) fun hj =>
    .ite (P := bppLegal s.bpp = false) (fun _ => .next (hj.complete _ _)) fun _ =>
      .ite (P := s.rowUnaligned = true) (fun _ => .next (hj.complete _ _)) fun _ =>
        .ite (P := s.dstLen < s.width * s.height * 2) (fun _ => .next (hj.complete _ _)) fun _ =>
          enterLoop_sameOutcome hj

theorem engineMove_starting_sameOutcome (h : SameStart s s') (hp : s.phase = .starting) :
    SameOutcome (engineMove s) (engineMove s') := by
  have hf : s.fetch = s.fetchCommand := State.fetch_starting hp
  have hf' : s'.fetch = s'.fetchCommand := State.fetch_starting (h.phase.trans hp)
  unfold State.fetchCommand at hf hf'
  rw [decodeCtrl_startWord] at hf hf'
  rw [h.win] at hf'
  split_ifs at hf hf'
  · rw [engineMove_run hf, engineMove_run hf']
    exact execCmdLzb_sameOutcome h _
  · rw [engineMove_run hf, engineMove_run hf']
    exact execCmdRle8_sameOutcome h _
  · rw [engineMove_run hf, engineMove_run hf']
    exact execCmdRle16_sameOutcome h _
  · rw [engineMove_run hf, engineMove_run hf']
    exact execCmdConvert_sameOutcome h _
  · rw [engineMove_ended hf, engineMove_ended hf']
    exact .next (h.complete_checked _)

end Commands

/-! ### Tokens and pixels -/

section Loop
variable {s s' : State}

/-- What is written is computed from registers and internal state. -/
theorem State.written_congr {s t : State} (hw : t.win = s.win) (hj : t.job = s.job) : t.written = s.written := by
  cases s
  cases t
  cases hw
  cases hj
  rfl

theorem State.written_bytes (h : s.op = 1 ∨ s.op = 2) : s.written = s.pos := if_pos h

theorem State.written_units (h : s.op = 3) : s.written = 2 * s.pos :=
  (if_neg (by omega)).trans (if_pos h)

theorem State.written_pixels (h : s.op = 4) : s.written = s.rasterIndex :=
  (if_neg (by omega)).trans ((if_neg (by omega)).trans (if_pos h))

theorem State.written_withJob_bytes (h : s.op = 1 ∨ s.op = 2) (j : Job) : (s.withJob j).written = j.pos.toNat :=
  State.written_bytes (s := s.withJob j) h

theorem State.written_withJob_units (h : s.op = 3) (j : Job) : (s.withJob j).written = 2 * j.pos.toNat :=
  State.written_units (s := s.withJob j) h

theorem State.written_withJob_pixels (h : s.op = 4) (j : Job) :
    (s.withJob j).written = 2 * (j.y.toNat * s.width + j.x.toNat) :=
  State.written_pixels (s := s.withJob j) h

/-- A position moved on by `n` bytes counts at most `n` more bytes as written. -/
theorem State.written_pos_add_le (h : s.op = 1 ∨ s.op = 2) (n : Nat) :
    (s.withJob { s.job with pos := BitVec.ofNat 32 (s.pos + n) }).written ≤ s.written + n := by
  rw [State.written_withJob_bytes h, State.written_bytes h, BitVec.toNat_ofNat]
  exact Nat.mod_le _ _

theorem State.written_units_add_le (h : s.op = 3) (n : Nat) :
    (s.withJob { s.job with pos := BitVec.ofNat 32 (s.pos + n) }).written ≤ s.written + 2 * n := by
  rw [State.written_withJob_units h, State.written_units h, ← Nat.mul_add, BitVec.toNat_ofNat]
  exact Nat.mul_le_mul_left 2 (Nat.mod_le _ _)

/-- Row-major order: the next pixel's place is at most one further on. -/
theorem State.written_nextPixel_le (h : s.op = 4) : (s.withJob s.nextPixel).written ≤ s.written + 2 := by
  rw [State.written_withJob_pixels h, State.written_pixels h, State.rasterIndex]
  unfold State.nextPixel
  split
  · change 2 * (s.y * s.width + (s.x + 1) % 2 ^ 16) ≤ _
    have hx := Nat.mod_le (s.x + 1) (2 ^ 16)
    omega
  · change 2 * ((s.y + 1) % 2 ^ 16 * s.width + 0) ≤ _
    have hy := Nat.mul_le_mul_right s.width (Nat.mod_le (s.y + 1) (2 ^ 16))
    rw [Nat.add_mul, Nat.one_mul] at hy
    omega

/-- A meaning that stores `n` bytes right after those written and leaves the internal state as `j`, or faults where the
destination range has no room. -/
structure Stores (s : State) (a : Host.Outcome State Fault Refusal) (n : Nat) (f : Nat → Byte) (j : Job) : Prop where
  next : s.dstHolds s.written n = true → ∃ t, a = .next t ∧ Stored s t s.written n f ∧ t.job = j
  fault : s.dstHolds s.written n = false → a = .fault .strayAccess

/-- The same store in both machines. -/
theorem SameJob.stores {n : Nat} {f f' : Nat → Byte} {a a' : Host.Outcome State Fault Refusal} {j : Job}
    (h : SameJob s s') (hp : s.phase = .running) (ha : Stores s a n f j) (ha' : Stores s' a' n f' j)
    (hf : ∀ i, i < n → f' i = f i) (hw : (s.withJob j).written ≤ s.written + n) : SameOutcome a a' := by
  obtain ⟨o, rfl⟩ := h.exists_jobOn
  cases hd : s.dstHolds s.written n with
  | true =>
    obtain ⟨t, rfl, st, hj⟩ := ha.next hd
    obtain ⟨t', rfl, st', hj'⟩ := ha'.next hd
    obtain ⟨hwin, hphase, -⟩ := st.block
    have hwt : t.written = (s.withJob j).written := State.written_congr hwin hj
    exact .next (.running (h.stored hd st st' hf (hj'.trans hj.symm) (hwt ▸ hw)) (hphase.trans hp))
  | false =>
    rw [ha.fault hd, ha'.fault hd]
    exact .fault _

theorem execLit_stores {l : Byte} (hwf : s.mem.wf = true) (h : s.op = 1) :
    Stores s (execLit l s) 1 (fun _ => ~~~l) { s.job with pos := BitVec.ofNat 32 (s.pos + 1) } := by
  constructor <;> rw [State.written_bytes (.inl h)]
  · exact execLit_next hwf
  · exact execLit_fault

theorem execRef_stores {o m : Word} (hwf : s.mem.wf = true) (h : s.op = 1) (h0 : 0 < o.toNat) (ho : o.toNat ≤ s.pos) :
    Stores s (execRef o m s) (s.refCount m) (fun i => s.dst (s.pos - o.toNat + i % o.toNat))
      { s.job with pos := BitVec.ofNat 32 (s.pos + s.refCount m) } := by
  constructor <;> rw [State.written_bytes (.inl h)]
  · exact execRef_next hwf h0 ho
  · exact execRef_fault h0 ho

theorem putKey_stores {k : Byte} (hwf : s.mem.wf = true) (h : s.op = 2) :
    Stores s (s.putKey k) 1 (fun _ => ~~~k) { s.job with pos := BitVec.ofNat 32 (s.pos + 1) } := by
  constructor <;> rw [State.written_bytes (.inr h)]
  · exact State.putKey_next hwf
  · exact State.putKey_fault

theorem execRun_stores {c : BitVec 6} {d : Byte} (hwf : s.mem.wf = true) (h : s.op = 2) :
    Stores s (execRun c d s) (s.runCount c) (fun _ => ~~~d)
      { s.job with pos := BitVec.ofNat 32 (s.pos + s.runCount c) } := by
  constructor <;> rw [State.written_bytes (.inr h)]
  · exact execRun_next hwf
  · exact execRun_fault

theorem execUnit_stores {k b0 b1 : Byte} (hwf : s.mem.wf = true) (h : s.op = 3) :
    Stores s (execUnit k b0 b1 s) (2 * s.unitCount k) (unitByte b0 b1)
      { s.job with pos := BitVec.ofNat 32 (s.pos + s.unitCount k) } := by
  constructor <;> rw [State.written_units h]
  · exact execUnit_next hwf
  · exact execUnit_fault

theorem convertPixel_stores {bpp : Nat} {v : Pixel} (hwf : s.mem.wf = true) (h : s.op = 4)
    (hs : s.srcInSpace = true) :
    Stores s (s.convertPixel bpp v) 2 (pixelHalf (if s.pixelSkipped bpp then background else v)) s.nextPixel := by
  constructor <;> rw [State.written_pixels h]
  · exact State.convertPixel_next hwf hs
  · exact fun hd => State.convertPixel_fault (.inr hd)

/-- A back-reference copies bytes the job has written (41_lzb.md R116), which are the same in both machines. -/
theorem execRef_sameOutcome {o m : Word} (h : SameJob s s') (hp : s.phase = .running) (hop : s.op = 1) :
    SameOutcome (execRef o m s) (execRef o m s') := by
  obtain ⟨u, rfl⟩ := h.exists_jobOn
  by_cases hv : o = 0 ∨ s.pos < o.toNat
  · rw [execRef_invalid hv, execRef_invalid (s := s.jobOn u) hv]
    exact .next (h.complete _ _)
  · have h0 : 0 < o.toNat := Nat.pos_of_ne_zero fun h0 => hv (.inl (BitVec.eq_of_toNat_eq h0))
    have ho : o.toNat ≤ s.pos := Nat.not_lt.1 fun ho => hv (.inr ho)
    refine h.stores hp (execRef_stores h.wf hop h0 ho) (execRef_stores h.wf' hop h0 ho) (fun i _ => ?_)
      (State.written_pos_add_le (.inl hop) _)
    have hi : s.pos - o.toNat + i % o.toNat < s.pos := by
      have := Nat.mod_lt i h0
      omega
    exact h.dst _ (by rwa [State.written_bytes (.inl hop)])

theorem putKey_sameOutcome {k : Byte} (h : SameJob s s') (hp : s.phase = .running) (hop : s.op = 2) :
    SameOutcome (s.putKey k) (s'.putKey k) := by
  obtain ⟨o, rfl⟩ := h.exists_jobOn
  exact h.stores hp (putKey_stores h.wf hop) (putKey_stores h.wf' hop) (fun _ _ => rfl)
    (State.written_pos_add_le (.inr hop) 1)

/-- A pixel the source supplies has the same value in both machines. -/
theorem convertPixel_sameOutcome {bpp : Nat} {v v' : Pixel} (h : SameJob s s') (hp : s.phase = .running)
    (hop : s.op = 4) (hv : s.pixelSkipped bpp = false → v' = v) :
    SameOutcome (s.convertPixel bpp v) (s'.convertPixel bpp v') := by
  obtain ⟨o, rfl⟩ := h.exists_jobOn
  cases hs : s.srcInSpace with
  | false =>
    rw [State.convertPixel_fault (.inl hs), State.convertPixel_fault (s := s.jobOn o) (.inl hs)]
    exact .fault _
  | true =>
    refine h.stores hp (convertPixel_stores h.wf hop hs) (convertPixel_stores h.wf' hop hs) (fun i _ => ?_)
      (State.written_nextPixel_le hop)
    change pixelHalf (if s.pixelSkipped bpp then background else v') i = _
    cases hk : s.pixelSkipped bpp with
    | true => rfl
    | false => rw [hv hk]

/-- A pixel that is not skipped has its byte in the source (43_convert.md R166). -/
theorem State.pixelByte_lt {bpp : Nat} (hb : bpp ≠ 16) (h : s.pixelSkipped bpp = false) :
    s.pixelByte bpp < s.srcLen := by
  rw [State.pixelSkipped, if_neg hb, Bool.or_eq_false_iff, decide_eq_false_iff_not, decide_eq_false_iff_not] at h
  exact Nat.not_le.1 h.2

/-- A 16 bpp pixel that is not skipped has both its bytes there. -/
theorem State.pixelByte_succ_lt (h : s.pixelSkipped 16 = false) : s.pixelByte 16 + 1 < s.srcLen := by
  rw [State.pixelSkipped, if_pos rfl, Bool.or_eq_false_iff, decide_eq_false_iff_not, decide_eq_false_iff_not] at h
  exact Nat.not_le.1 h.2

theorem SameJob.pixelByte {bpp : Nat} (h : SameJob s s') : s'.pixelByte bpp = s.pixelByte bpp := by
  obtain ⟨o, rfl⟩ := h.exists_jobOn
  rfl

theorem SameJob.pixelSrc {bpp : Nat} (h : SameJob s s') (hb : bpp ≠ 16) (hk : s.pixelSkipped bpp = false) :
    s'.src (s'.pixelByte bpp) = s.src (s.pixelByte bpp) := by
  rw [h.pixelByte, h.src _ (State.pixelByte_lt hb hk)]

theorem SameJob.indexedPixel {bpp : Nat} {palette : List Pixel} (h : SameJob s s') (hb : bpp ≠ 16)
    (hk : s.pixelSkipped bpp = false) : s'.indexedPixel palette bpp = s.indexedPixel palette bpp := by
  have hbit : s'.pixelBit bpp = s.pixelBit bpp := by simp only [State.pixelBit, State.x, h.job]
  rw [State.indexedPixel, h.pixelSrc hb hk, hbit, State.indexedPixel]

/-- A token or a pixel of the job that is running. -/
theorem exec_sameOutcome {i : Instr} (h : SameJob s s') (hp : s.phase = .running) (hi : i.loopOp = some s.op) :
    SameOutcome (exec i s) (exec i s') := by
  cases i with
  | cmdLzb | cmdRle8 | cmdRle16 | cmdConvert => cases hi
  | lit l =>
    have hop := (Option.some.inj hi).symm
    obtain ⟨o, rfl⟩ := h.exists_jobOn
    exact h.stores hp (execLit_stores h.wf hop) (execLit_stores h.wf' hop) (fun _ _ => rfl)
      (State.written_pos_add_le (.inl hop) 1)
  | ref o m => exact execRef_sameOutcome h hp (Option.some.inj hi).symm
  | run c d =>
    have hop := (Option.some.inj hi).symm
    obtain ⟨o, rfl⟩ := h.exists_jobOn
    exact h.stores hp (execRun_stores h.wf hop) (execRun_stores h.wf' hop) (fun _ _ => rfl)
      (State.written_pos_add_le (.inr hop) _)
  | klit00 | klit01 | klit10 => exact putKey_sameOutcome h hp (Option.some.inj hi).symm
  | unit k b0 b1 =>
    have hop := (Option.some.inj hi).symm
    obtain ⟨o, rfl⟩ := h.exists_jobOn
    exact h.stores hp (execUnit_stores h.wf hop) (execUnit_stores h.wf' hop) (fun _ _ => rfl)
      (State.written_units_add_le hop _)
  | convBpp1 | convBpp2 | convBpp4 =>
    exact convertPixel_sameOutcome h hp (Option.some.inj hi).symm (h.indexedPixel (by decide))
  | convBpp8 =>
    exact convertPixel_sameOutcome h hp (Option.some.inj hi).symm fun hk =>
      congrArg r332 (h.pixelSrc (by decide) hk)
  | convBpp16 =>
    refine convertPixel_sameOutcome h hp (Option.some.inj hi).symm fun hk => ?_
    have hlt := State.pixelByte_succ_lt hk
    rw [h.pixelByte, h.src _ (Nat.lt_of_succ_lt hlt), h.src _ hlt]

/-! ### The fetch -/

/-- Two fetches that find the same: an instruction of the running job, its end, or a fault. -/
inductive SameFetch : Fetched → Fetched → Prop
  | run {i : Instr} {u u' : State} (h : SameJob u u') (hp : u.phase = .running) (hi : i.loopOp = some u.op) :
    SameFetch (.run i u) (.run i u')
  | ended {e : ErrCode} {p : Progress} {u u' : State} (h : SameJob u u') : SameFetch (.ended e p u) (.ended e p u')
  | broken (f : Fault) : SameFetch (.broken f) (.broken f)

theorem SameFetch.ite {P : Prop} [Decidable P] {a b a' b' : Fetched} (ht : P → SameFetch a a')
    (hf : ¬P → SameFetch b b') : SameFetch (if P then a else b) (if P then a' else b') := by
  split
  · exact ht ‹_›
  · exact hf ‹_›

/-- A request of the bit reader fails in both machines, or delivers the same bits in both. -/
theorem SameJob.takeBits (h : SameJob s s') (n : Nat) :
    (s.takeBits n = none ∧ s'.takeBits n = none) ∨
      ∃ v j, s.takeBits n = some (v, s.withJob j) ∧ s'.takeBits n = some (v, s'.withJob j) ∧
        SameJob (s.withJob j) (s'.withJob j) := by
  obtain ⟨o, rfl⟩ := h.exists_jobOn
  by_cases hc : n ≤ s.job.bitcnt.toNat
  · exact .inr ⟨_, _, if_pos hc, if_pos hc, h.withJob rfl⟩
  by_cases hl : s.inPos + 4 > s.srcLen
  · exact .inl ⟨(if_neg hc).trans (if_pos hl), (if_neg hc).trans (if_pos hl)⟩
  have hw : (s.jobOn o).mem.readWord ((s.jobOn o).srcAddr + (s.jobOn o).inPos) =
      s.mem.readWord (s.srcAddr + s.inPos) := h.readWord (i := s.inPos) (by omega)
  refine .inr ⟨_, _, (if_neg hc).trans (if_neg hl), ((if_neg hc).trans (if_neg hl)).trans ?_, h.withJob rfl⟩
  rw [hw]
  rfl

theorem SameJob.fetchLzb (h : SameJob s s') (hp : s.phase = .running) (hop : s.op = 1) :
    SameFetch s.fetchLzb s'.fetchLzb := by
  have hw : s'.widths = s.widths := by rw [State.widths, h.job, State.widths]
  unfold State.fetchLzb
  rw [hw]
  refine .ite (fun _ => .broken _) fun _ => ?_
  rcases h.takeBits 1 with ⟨h1, h1'⟩ | ⟨c, j, h1, h1', hj⟩ <;> simp only [h1, h1']
  · exact .ended h
  refine .ite (fun _ => ?_) fun _ => ?_
  · rcases hj.takeBits lzbLiteralBits with ⟨h2, h2'⟩ | ⟨l, j2, h2, h2', hj2⟩ <;> simp only [h2, h2']
    · exact .ended hj
    · exact .run hj2 hp (congrArg some hop.symm)
  · rcases hj.takeBits s.widths.obits with ⟨h2, h2'⟩ | ⟨o, j2, h2, h2', hj2⟩ <;> simp only [h2, h2']
    · exact .ended hj
    rcases hj2.takeBits s.widths.mbits with ⟨h3, h3'⟩ | ⟨m, j3, h3, h3', hj3⟩ <;> simp only [h3, h3']
    · exact .ended hj2
    · exact .run hj3 hp (congrArg some hop.symm)

theorem SameJob.nextBytes (h : SameJob s s') (n : Nat) : s'.nextBytes n = s.nextBytes n := by
  obtain ⟨o, rfl⟩ := h.exists_jobOn
  refine List.map_congr_left fun j hj => h.src _ ?_
  have hj : j < min n (s.srcLen - s.inPos) := List.mem_range.1 hj
  change s.inPos + j < _
  omega

theorem SameJob.setIn (h : SameJob s s') (n : Nat) : SameJob (s.setIn (s.inPos + n)) (s'.setIn (s'.inPos + n)) := by
  obtain ⟨o, rfl⟩ := h.exists_jobOn
  exact h.withJob rfl

theorem SameJob.fetchedBytes {r : Except Reject (Instr × Nat)} (h : SameJob s s') (hp : s.phase = .running)
    (hr : ∀ i n, r = .ok (i, n) → i.loopOp = some s.op) : SameFetch (s.fetchedBytes r) (s'.fetchedBytes r) := by
  unfold State.fetchedBytes
  split
  · exact .run (h.setIn _) hp (hr _ _ rfl)
  · exact .ended (h.setIn _)
  · exact .broken _

theorem SameJob.fetchPixel (h : SameJob s s') (hp : s.phase = .running) (hop : s.op = 4) :
    SameFetch s.fetchPixel s'.fetchPixel := by
  have hg : s'.geom1Word = s.geom1Word := by rw [State.geom1Word, h.win, State.geom1Word]
  unfold State.fetchPixel
  rw [hg]
  split
  · rename_i i hi
    exact .run h hp ((decodeGeom1_loopOp hi).trans (congrArg some hop.symm))
  · exact .broken _

theorem SameJob.fetchRunning (h : SameJob s s') (hp : s.phase = .running) :
    SameFetch s.fetchRunning s'.fetchRunning := by
  have hlzb := h.fetchLzb hp
  have hpixel := h.fetchPixel hp
  have hbytes (n : Nat) := h.nextBytes n
  obtain ⟨o, rfl⟩ := h.exists_jobOn
  refine .ite (P := s.srcInSpace = false) (fun _ => .broken _) fun _ => ?_
  refine .ite (P := s.moreToDo = false) (fun _ => .ended h) fun _ => ?_
  refine .ite (P := s.op = 1) hlzb fun _ => ?_
  refine .ite (P := s.op = 2) (fun hop => ?_) fun _ => ?_
  · rw [State.fetchRle8, State.fetchRle8, hbytes]
    exact h.fetchedBytes hp fun i n hi => (decodeRle8_loopOp hi).trans (congrArg some hop.symm)
  refine .ite (P := s.op = 3) (fun hop => ?_) fun _ => ?_
  · rw [State.fetchRle16, State.fetchRle16, hbytes]
    exact h.fetchedBytes hp fun i n hi => (decodeRle16_loopOp hi).trans (congrArg some hop.symm)
  exact .ite (P := s.op = 4) hpixel fun _ => .broken _

/-! ### Engine moves and runs -/

theorem SameFetch.sameOutcome (h : SameFetch s.fetch s'.fetch) : SameOutcome (engineMove s) (engineMove s') := by
  generalize hf : s.fetch = a at h
  generalize hf' : s'.fetch = a' at h
  cases h with
  | run h hp hi =>
    rw [engineMove_run hf, engineMove_run hf']
    exact exec_sameOutcome h hp hi
  | ended h =>
    rw [engineMove_ended hf, engineMove_ended hf']
    exact .next (h.complete _ _)
  | broken f =>
    rw [engineMove_broken hf, engineMove_broken hf']
    exact .fault f

theorem engineMove_sameOutcome (h : SameProgress s s') : SameOutcome (engineMove s) (engineMove s') := by
  have hphase := h.phase
  cases h with
  | starting h hp => exact engineMove_starting_sameOutcome h hp
  | running h hp =>
    refine SameFetch.sameOutcome ?_
    rw [State.fetch_running hp, State.fetch_running (hphase.trans hp)]
    exact h.fetchRunning hp
  | ended win hp hp' dst =>
    rw [engineMove_wait (State.fetch_idle hp), engineMove_wait (State.fetch_idle hp')]
    exact .next (.ended win hp hp' dst)

/-- The engine alone, `k` moves on: what the one machine reaches the other reaches too. -/
theorem SameProgress.run {t : State} {k : Nat} (h : SameProgress s s') (hi : s.inbox = []) (hi' : s'.inbox = [])
    (hr : Host.Core.run core k s = .next t) : ∃ t', Host.Core.run core k s' = .next t' ∧ SameProgress t t' := by
  induction k generalizing s s' with
  | zero =>
    cases hr
    exact ⟨s', rfl, h⟩
  | succ k ih =>
    simp only [Host.Core.run] at hr
    split at hr
    · rename_i u hu
      replace hu : engineMove s = .next u := (step_engine hi).symm.trans hu
      obtain ⟨u', hu', hrel⟩ := (engineMove_sameOutcome h).exists_next hu
      obtain ⟨-, -, hinbox, -⟩ := engineMove_sameWorld hu
      obtain ⟨-, -, hinbox', -⟩ := engineMove_sameWorld hu'
      rw [run_next ((step_engine hi').trans hu')]
      exact ih hrel (hinbox.trans hi) (hinbox'.trans hi') hr
    · cases hr
    · cases hr

end Loop

/-- Settles O49: two machines that start one job are at the same point of it (`SameProgress`) after every number of
moves. -/
theorem jobOutcomeDependsOnRegistersAndSource : Obligations.JobOutcomeDependsOnRegistersAndSource := by
  intro s s' k t ⟨hwf, _⟩ ⟨hwf', _⟩ hp hp' hi hi' hwin hplatform hsrc hr
  have hstart : SameStart s s' :=
    ⟨hwin.symm, hp'.trans hp.symm, hplatform.symm, hwf, hwf', fun i h => (hsrc i h).symm⟩
  obtain ⟨t', hr', h⟩ := SameProgress.run (.starting hstart hp) hi hi' hr
  exact ⟨t', hr', h.win, h.phase, h.dst_of_idle⟩

end Sys2Proof.Machine
end

section
/-! CTRL words under the mask 0x71 (30_encoding.md R70, R71). The mask keeps START and OP, so a masked word is a start
word with IE clear exactly when START is set; a START word decodes as the start word of its OP and IE fields, whatever
its reserved bits. -/

namespace Sys2Proof

/-- A word without START is rejected, whatever its other bits. -/
theorem decodeCtrl_noStart {v : Word} (h : v.getLsbD 0 = false) : decodeCtrl v = .error .notStart := if_pos h

/-- The reserved bits of a START word are ignored. -/
theorem decodeCtrl_start {v : Word} (h : v.getLsbD 0 = true) :
    decodeCtrl v = decodeCtrl (startWord (v.extractLsb' 4 3) (v.getLsbD 1)) := by
  rw [decodeCtrl_startWord]
  exact if_neg (by simp [h])

/-- A start word decodes only for the OPs that R70 does not reserve. -/
theorem op_of_decodeCtrl_startWord {op : BitVec 3} {ie : Bool} {i : Instr} (h : decodeCtrl (startWord op ie) = .ok i) :
    op ∈ [(1 : BitVec 3), 2, 3, 4] := by
  by_contra hop
  simp only [List.mem_cons, List.not_mem_nil, or_false, not_or] at hop
  obtain ⟨h1, h2, h3, h4⟩ := hop
  rw [decodeCtrl_startWord, if_neg h1, if_neg h2, if_neg h3, if_neg h4] at h
  cases h

theorem startWord_start (op : BitVec 3) (ie : Bool) : (startWord op ie).getLsbD 0 = true := by
  revert op ie
  decide

theorem startWord_op (op : BitVec 3) (ie : Bool) : (startWord op ie).extractLsb' 4 3 = op := by
  revert op ie
  decide

theorem startMask_start (v : Word) : (v &&& 0x71).getLsbD 0 = v.getLsbD 0 := by
  simp

theorem startMask_op (v : Word) : (v &&& 0x71).extractLsb' 4 3 = v.extractLsb' 4 3 := by
  rw [BitVec.extractLsb'_and]
  exact BitVec.and_allOnes

/-- A word with START set has under the mask the pattern of its OP. -/
theorem startMask_of_start {v : Word} (h : v.getLsbD 0 = true) :
    v &&& 0x71 = startWord (v.extractLsb' 4 3) false := by
  refine BitVec.eq_of_getLsbD_eq fun i hi => ?_
  simp only [startWord, BitVec.getLsbD_append]
  interval_cases i <;> simp [h]

/-- R71's match: `0x01 | OP << 4` under the mask means START set and that OP. -/
theorem startMask_eq_startWord_iff {v : Word} {op : BitVec 3} :
    v &&& 0x71 = startWord op false ↔ v.getLsbD 0 = true ∧ v.extractLsb' 4 3 = op := by
  constructor
  · intro h
    rw [← startMask_start, ← startMask_op, h]
    exact ⟨startWord_start op false, startWord_op op false⟩
  · rintro ⟨h, rfl⟩
    exact startMask_of_start h

/-- A word that matches the pattern of an OP decodes as that OP's start word with the word's own IE. -/
theorem decodeCtrl_of_startMask {v : Word} {op : BitVec 3} (h : v &&& 0x71 = startWord op false) :
    decodeCtrl v = decodeCtrl (startWord op (v.getLsbD 1)) := by
  obtain ⟨hstart, rfl⟩ := startMask_eq_startWord_iff.1 h
  exact decodeCtrl_start hstart

/-- A word that decodes matches the pattern of a command's OP. -/
theorem startMask_of_decodeCtrl {v : Word} {i : Instr} (h : decodeCtrl v = .ok i) :
    ∃ op ∈ [(1 : BitVec 3), 2, 3, 4], v &&& 0x71 = startWord op false := by
  cases hstart : v.getLsbD 0 with
  | false =>
    rw [decodeCtrl_noStart hstart] at h
    cases h
  | true =>
    rw [decodeCtrl_start hstart] at h
    exact ⟨_, op_of_decodeCtrl_startWord h, startMask_of_start hstart⟩

/-- Settles O4: under the mask a word is the start word of its OP, and it decodes as that start word. -/
theorem ctrlWordsDecodeUnderTheirMask : Obligations.CtrlWordsDecodeUnderTheirMask := by
  intro v
  refine ⟨fun h => ?_, fun h => ?_, fun h => ?_, fun h => ?_, fun i h => ?_⟩
  · exact (decodeCtrl_of_startMask (op := 1) h).trans (decodeCtrl_startWord 1 _)
  · exact (decodeCtrl_of_startMask (op := 2) h).trans (decodeCtrl_startWord 2 _)
  · exact (decodeCtrl_of_startMask (op := 3) h).trans (decodeCtrl_startWord 3 _)
  · exact (decodeCtrl_of_startMask (op := 4) h).trans (decodeCtrl_startWord 4 _)
  · obtain ⟨op, hop, hv⟩ := startMask_of_decodeCtrl h
    rw [hv]
    exact List.mem_map_of_mem (f := (startWord · false)) hop

end Sys2Proof
end

section
/-! Jobs that end before their first memory access: by a start check of 40_jobs.md R91, with the internal state as it
was, or by a command check of R93, with the internal state initialised. Either way R94 reports zeros alone. -/

namespace Sys2Proof.Machine

/-! ### What such a completion reports -/

/-- A completion before R92 reports zeros, whatever the job state holds. -/
theorem State.complete_checked (e : ErrCode) (s : State) :
    s.complete e .checked = { s with win := s.reported e 0 0 0 0, phase := .idle } := by
  simp [State.complete, State.reported]

/-- A failing command check reports the cursor and the counts that R92 has set to 0. -/
theorem State.initJob_rejectCommand (e : ErrCode) (s : State) :
    s.initJob.rejectCommand e = { s with win := s.reported e 0 0 0 0, phase := .idle, job := Job.initial } := by
  simp [State.rejectCommand, State.complete, State.reported, State.initJob, State.withJob, Job.initial,
    State.written]

/-! ### The start checks -/

/-- A command whose range checks fail completes with its START latched and nothing else done. -/
theorem beginJob_rangesFail {op : BitVec 3} {ie : Bool} {s : State} {body : State → Host.Outcome State Fault Refusal}
    (hop : op ∈ [(1 : BitVec 3), 2, 3, 4]) (h : ¬s.RangesPass) :
    beginJob (s.latchStart op ie) body =
      .next { s with win := (s.latchStart op ie).reported .configInvalid 0 0 0 0, phase := .idle } := by
  rw [beginJob_fail ((latchStart_startCheckFails hop).2 h), State.complete_checked]
  rfl

/-- A START with a reserved OP has no command: the fetch finds the job's end (30_encoding.md R70). -/
theorem State.fetchCommand_reserved {s : State} (h : s.op ∉ [1, 2, 3, 4]) :
    s.fetchCommand = .ended .configInvalid .checked s := by
  unfold State.fetchCommand
  split
  · rename_i i hi
    exact absurd (List.mem_map_of_mem (f := BitVec.toNat) (op_of_decodeCtrl_startWord hi)) h
  · rfl

/-- Settles O22: a command whose range checks fail completes in `beginJob` (`beginJob_rangesFail`), a reserved OP
in the fetch (`State.fetchCommand_reserved`); both report zeros (`State.complete_checked`). -/
theorem startChecksRejectBadJobs : Obligations.StartChecksRejectBadJobs := by
  refine ⟨fun ie s i op hranges hi => ?_, fun s hp hinbox hop => ?_⟩
  · have hop : op ∈ [(1 : BitVec 3), 2, 3, 4] := List.mem_map_of_mem (f := Prod.snd) hi
    simp only [List.mem_cons, List.not_mem_nil, or_false, Prod.mk.injEq] at hi
    obtain ⟨rfl, rfl⟩ | ⟨rfl, rfl⟩ | ⟨rfl, rfl⟩ | ⟨rfl, rfl⟩ := hi
    · exact (beginJob_rangesFail hop hranges : execCmdLzb ie s = _)
    · exact (beginJob_rangesFail hop hranges : execCmdRle8 ie s = _)
    · exact (beginJob_rangesFail hop hranges : execCmdRle16 ie s = _)
    · exact (beginJob_rangesFail hop hranges : execCmdConvert ie s = _)
  · rw [step_engine hinbox, engineMove_ended ((State.fetch_starting hp).trans (State.fetchCommand_reserved hop)),
      State.complete_checked]

/-! ### The command checks -/

/-- A command whose range checks pass goes on, its START latched and its job state initialised. -/
theorem beginJob_rangesPass {op : BitVec 3} {ie : Bool} {s : State} {body : State → Host.Outcome State Fault Refusal}
    (hop : op ∈ [(1 : BitVec 3), 2, 3, 4]) (h : s.RangesPass) :
    beginJob (s.latchStart op ie) body = body (s.latchStart op ie).initJob :=
  beginJob_pass (Bool.eq_false_iff.2 fun hc => (latchStart_startCheckFails hop).1 hc h)

section
variable {ie : Bool} {s : State} (h : s.RangesPass)
include h

theorem execCmdRle16_odd (hodd : s.dstLen % 2 = 1) :
    execCmdRle16 ie s = .next ((s.latchStart 3 ie).initJob.rejectCommand .configInvalid) :=
  (beginJob_rangesPass (by decide) h).trans (if_pos hodd)

theorem execCmdConvert_bppIllegal (hbpp : bppLegal s.bpp = false) :
    execCmdConvert ie s = .next ((s.latchStart 4 ie).initJob.rejectCommand .configInvalid) :=
  (beginJob_rangesPass (by decide) h).trans (if_pos hbpp)

theorem execCmdConvert_rowUnaligned (hbpp : bppLegal s.bpp = true) (hrow : s.rowUnaligned = true) :
    execCmdConvert ie s = .next ((s.latchStart 4 ie).initJob.rejectCommand .configInvalid) :=
  (beginJob_rangesPass (by decide) h).trans ((if_neg (ne_false_of_eq_true hbpp)).trans (if_pos hrow))

theorem execCmdConvert_capacity (hbpp : bppLegal s.bpp = true) (hrow : s.rowUnaligned = false)
    (hcap : s.dstLen < s.width * s.height * 2) :
    execCmdConvert ie s = .next ((s.latchStart 4 ie).initJob.rejectCommand .capacity) :=
  (beginJob_rangesPass (by decide) h).trans <|
    (if_neg (ne_false_of_eq_true hbpp)).trans ((if_neg (ne_true_of_eq_false hrow)).trans (if_pos hcap))

theorem execCmdRle8_loop (hd : s.coversDevice = false) :
    execCmdRle8 ie s = .next (s.latchStart 2 ie).initJob.enterLoop :=
  (beginJob_rangesPass (by decide) h).trans (unlessDevice_memory hd)

/-- Of the two checks that raise CONFIG_INVALID the first stops a reserved BPP, the second a ragged row. -/
theorem execCmdConvert_configInvalid (hc : bppLegal s.bpp = false ∨ s.rowUnaligned = true) :
    execCmdConvert ie s = .next ((s.latchStart 4 ie).initJob.rejectCommand .configInvalid) := by
  cases hbpp : bppLegal s.bpp with
  | false => exact execCmdConvert_bppIllegal h hbpp
  | true => exact execCmdConvert_rowUnaligned h hbpp (hc.resolve_left (ne_false_of_eq_true hbpp))

end

/-- Settles O23: the check that fails decides where each command stops (`execCmdRle16_odd`,
`execCmdConvert_configInvalid`, `execCmdConvert_capacity`), and the rejected command reports zeros
(`State.initJob_rejectCommand`); RLE8 has no check to fail. -/
theorem commandChecksRejectBadJobs : Obligations.CommandChecksRejectBadJobs := by
  refine fun ie s h => ⟨fun hodd => ?_, fun hconfig => ?_, fun hbpp hrow hcap => ?_, fun hd => ?_⟩
  · exact (execCmdRle16_odd h hodd).trans (congrArg _ (State.initJob_rejectCommand _ _))
  · rw [← bppLegal_iff, ← State.rowUnaligned_iff, Bool.not_eq_true] at hconfig
    exact (execCmdConvert_configInvalid h hconfig).trans (congrArg _ (State.initJob_rejectCommand _ _))
  · have hrow : s.rowUnaligned = false := Bool.eq_false_iff.2 fun hr => by
      obtain ⟨hlt, hne⟩ := s.rowUnaligned_iff.1 hr
      exact hne (hrow hlt)
    exact (execCmdConvert_capacity h ((bppLegal_iff _).2 hbpp) hrow hcap).trans
      (congrArg _ (State.initJob_rejectCommand _ _))
  · exact ⟨_, execCmdRle8_loop h hd, rfl⟩

end Sys2Proof.Machine
end

section
/-! The bit reader (41_lzb.md R110, R111; 10_state.md R36): what a request changes, and that it takes its bits off the
front of the job's stream. -/

namespace Sys2Proof.Machine

/-! ### A request moves the reader alone -/

/-- The bit reader's own registers: the cursor, the buffered code word and how many of its bits are valid. -/
def State.withReader (s : State) (inPos bitbuf : Word) (bitcnt : BitVec 6) : State :=
  s.withJob { s.job with inPos := inPos, bitbuf := bitbuf, bitcnt := bitcnt }

/-- `s'` is `s` but for the bit reader's own registers. -/
def ReaderMoved (s s' : State) : Prop := ∃ p b c, s' = s.withReader p b c

theorem ReaderMoved.trans {s s' s'' : State} (h : ReaderMoved s s') (h' : ReaderMoved s' s'') : ReaderMoved s s'' := by
  obtain ⟨_, _, _, rfl⟩ := h
  obtain ⟨p, b, c, rfl⟩ := h'
  exact ⟨p, b, c, rfl⟩

section
variable {n : Nat} {s : State}

/-- A request the valid bits meet. -/
theorem State.takeBits_buffered (h : n ≤ s.job.bitcnt.toNat) :
    s.takeBits n = some (s.job.bitbuf.toNat / 2 ^ (s.job.bitcnt.toNat - n) % 2 ^ n,
      s.withReader s.job.inPos s.job.bitbuf (BitVec.ofNat 6 (s.job.bitcnt.toNat - n))) := if_pos h

/-- A request that needs a code word past the end of the source. -/
theorem State.takeBits_exhausted (h : s.job.bitcnt.toNat < n) (hl : s.srcLen < s.inPos + 4) :
    s.takeBits n = none := (if_neg (Nat.not_le.2 h)).trans (if_pos hl)

/-- A request that takes all valid bits and the first bits of the next code word. -/
theorem State.takeBits_refill (h : s.job.bitcnt.toNat < n) (hl : s.inPos + 4 ≤ s.srcLen) :
    s.takeBits n = some (s.job.bitbuf.toNat % 2 ^ s.job.bitcnt.toNat * 2 ^ (n - s.job.bitcnt.toNat) +
        (s.mem.readWord (s.srcAddr + s.inPos)).toNat / 2 ^ (32 - (n - s.job.bitcnt.toNat)),
      s.withReader (BitVec.ofNat 32 (s.inPos + 4)) (s.mem.readWord (s.srcAddr + s.inPos))
        (BitVec.ofNat 6 (32 - (n - s.job.bitcnt.toNat)))) :=
  (if_neg (Nat.not_le.2 h)).trans (if_neg (Nat.not_lt.2 hl))

end

/-! ### The bits of the code words -/

/-- The first `k` bits of a word are a number of `k` bits. -/
theorem firstBits_lt (w : Word) {k : Nat} (hk : k ≤ 32) : w.toNat / 2 ^ (32 - k) < 2 ^ k := by
  rw [Nat.div_lt_iff_lt_mul (by positivity), ← pow_add, Nat.add_sub_cancel' hk]
  exact w.isLt

/-- The bits of the whole code words in `len` bytes of memory from `a` on, bit 31 of each first. -/
def Memory.codeBits (m : Memory) (a len : Nat) : List Bool :=
  (List.range (len / 4)).flatMap fun j => bitsOf 32 (m.readWord (a + 4 * j)).toNat

/-- A job's stream is what the buffer holds, then the code words from the cursor on. -/
theorem State.streamBits_eq (s : State) : s.streamBits =
    bitsOf s.job.bitcnt.toNat s.job.bitbuf.toNat ++ s.mem.codeBits (s.srcAddr + s.inPos) (s.srcLen - s.inPos) := rfl

theorem Memory.codeBits_cons (m : Memory) (a : Nat) {len : Nat} (h : 4 ≤ len) :
    m.codeBits a len = bitsOf 32 (m.readWord a).toNat ++ m.codeBits (a + 4) (len - 4) := by
  have hlen : len / 4 = (len - 4) / 4 + 1 := by omega
  have haddr : ∀ j, a + 4 * (j + 1) = a + 4 + 4 * j := fun j => by omega
  simp [Memory.codeBits, hlen, List.range_succ_eq_map, List.flatMap_map, haddr]

@[simp] theorem Memory.length_codeBits (m : Memory) (a len : Nat) : (m.codeBits a len).length = 32 * (len / 4) := by
  simp [Memory.codeBits, List.length_flatMap, Nat.mul_comm]

/-- Bit `b` of the code words is bit `31 - b mod 32` of word `b div 32`. -/
theorem Memory.getElem?_codeBits (m : Memory) (a len b : Nat) (h : b < 32 * (len / 4)) :
    (m.codeBits a len)[b]? = some ((m.readWord (a + 4 * (b / 32))).getLsbD (31 - b % 32)) := by
  induction b using Nat.strong_induction_on generalizing a len with
  | _ b ih =>
    rw [Memory.codeBits_cons m a (by omega)]
    by_cases hb : b < 32
    · rw [List.getElem?_append_left (by simpa using hb), getElem?_bitsOf _ _ _ hb, Nat.div_eq_of_lt hb,
        Nat.mod_eq_of_lt hb]
      rfl
    · have haddr : a + 4 + 4 * ((b - 32) / 32) = a + 4 * (b / 32) := by omega
      have hbit : (b - 32) % 32 = b % 32 := by omega
      rw [List.getElem?_append_right (by simpa using hb), length_bitsOf,
        ih (b - 32) (by omega) (a + 4) (len - 4) (by omega), haddr, hbit]

theorem State.length_streamBits (s : State) :
    s.streamBits.length = s.job.bitcnt.toNat + 32 * ((s.srcLen - s.inPos) / 4) := by
  simp [State.streamBits_eq]

/-! ### A request takes its bits off the front of the stream -/

/-- The stream of a job whose cursor has a whole code word before the end of the source. -/
theorem State.streamBits_cons {s : State} (h : s.inPos + 4 ≤ s.srcLen) :
    s.streamBits = bitsOf s.job.bitcnt.toNat s.job.bitbuf.toNat ++
      (bitsOf 32 (s.mem.readWord (s.srcAddr + s.inPos)).toNat ++
        s.mem.codeBits (s.srcAddr + (s.inPos + 4)) (s.srcLen - (s.inPos + 4))) := by
  rw [State.streamBits_eq, Memory.codeBits_cons _ _ (by omega), Nat.add_assoc, Nat.sub_sub]

/-- The stream after the reader's registers are set. -/
theorem State.streamBits_withReader (s : State) (p b : Word) {k : Nat} (hk : k ≤ 32) :
    (s.withReader p b (BitVec.ofNat 6 k)).streamBits =
      bitsOf k b.toNat ++ s.mem.codeBits (s.srcAddr + p.toNat) (s.srcLen - p.toNat) := by
  have hcnt : (BitVec.ofNat 6 k).toNat = k := by rw [BitVec.toNat_ofNat]; omega
  rw [State.streamBits_eq]
  simp [State.withReader, hcnt]

theorem State.withReader_bitcnt_le (s : State) (p b : Word) {k : Nat} (hk : k ≤ 32) :
    (s.withReader p b (BitVec.ofNat 6 k)).job.bitcnt.toNat ≤ 32 := (Nat.mod_le k _).trans hk

/-- What a request for `n` bits that succeeds answers (41_lzb.md R111): the first `n` bits of the stream as a number,
and a state with these bits gone from the stream and the reader still within its bounds. -/
structure Delivered (s : State) (n v : Nat) (s' : State) : Prop where
  value : v = ofBits (s.streamBits.take n)
  stream : s'.streamBits = s.streamBits.drop n
  moved : ReaderMoved s s'
  bitcnt : s'.job.bitcnt.toNat ≤ 32
  cursor : s'.inPos ≤ s.srcLen

/-- All bits come from the buffer. -/
theorem State.takeBits_delivers_buffered {n : Nat} {s : State} (hc : s.job.bitcnt.toNat ≤ 32)
    (hi : s.inPos ≤ s.srcLen) (h : n ≤ s.job.bitcnt.toNat) : ∃ v s', s.takeBits n = some (v, s') ∧ Delivered s n v s' := by
  have hk : s.job.bitcnt.toNat - n ≤ 32 := by omega
  refine ⟨_, _, State.takeBits_buffered h, ?_, ?_, ⟨_, _, _, rfl⟩, s.withReader_bitcnt_le _ _ hk, hi⟩
  · rw [State.streamBits_eq, List.take_append_of_le_length (by simpa using h), take_bitsOf _ _ _ h, ofBits_bitsOf]
  · rw [State.streamBits_withReader _ _ _ hk, State.streamBits_eq, List.drop_append_of_le_length (by simpa using h),
      drop_bitsOf _ _ _ h]

/-- The buffer's bits come first, the rest from the next code word. -/
theorem State.takeBits_delivers_refill {n : Nat} {s : State} (hn : n ≤ 32) (h : s.job.bitcnt.toNat < n)
    (hl : s.inPos + 4 ≤ s.srcLen) : ∃ v s', s.takeBits n = some (v, s') ∧ Delivered s n v s' := by
  have hcur : (BitVec.ofNat 32 (s.inPos + 4)).toNat = s.inPos + 4 := by
    have := s.win.srcLen.isLt
    rw [BitVec.toNat_ofNat, Nat.mod_eq_of_lt (by simp only [State.srcLen] at hl; omega)]
  have hk : n - s.job.bitcnt.toNat ≤ 32 := by omega
  refine ⟨_, _, State.takeBits_refill h hl, ?_, ?_, ⟨_, _, _, rfl⟩, s.withReader_bitcnt_le _ _ (Nat.sub_le _ _),
    hcur.trans_le hl⟩
  · rw [State.streamBits_cons hl, List.take_append, length_bitsOf, List.take_of_length_le (by simpa using h.le),
      List.take_append_of_le_length (by simpa using hk), take_bitsOf _ _ _ hk, ofBits_append, length_bitsOf,
      ofBits_bitsOf, ofBits_bitsOf, Nat.mod_eq_of_lt (firstBits_lt _ hk)]
  · rw [State.streamBits_withReader _ _ _ (Nat.sub_le _ _), hcur, State.streamBits_cons hl, List.drop_append,
      length_bitsOf, List.drop_of_length_le (by simpa using h.le), List.nil_append,
      List.drop_append_of_le_length (by simpa using hk), drop_bitsOf _ _ _ hk]

theorem State.takeBits_delivers {n : Nat} {s : State} (hn : n ≤ 32) (hc : s.job.bitcnt.toNat ≤ 32)
    (hi : s.inPos ≤ s.srcLen) (hlen : n ≤ s.streamBits.length) :
    ∃ v s', s.takeBits n = some (v, s') ∧ Delivered s n v s' := by
  rw [State.length_streamBits] at hlen
  by_cases h : n ≤ s.job.bitcnt.toNat
  · exact State.takeBits_delivers_buffered hc hi h
  · exact State.takeBits_delivers_refill hn (Nat.not_le.1 h) (by omega)

/-- A stream with too few bits has no whole code word where the reader needs one. -/
theorem State.takeBits_short {n : Nat} {s : State} (hn : n ≤ 32) (hlen : s.streamBits.length < n) :
    s.takeBits n = none := by
  rw [State.length_streamBits] at hlen
  exact State.takeBits_exhausted (by omega) (by omega)

/-- Settles O6: a request is met from the buffer or with one refill (`State.takeBits_delivers`), or the stream is too
short for it (`State.takeBits_short`); an empty reader's stream is the code words (`Memory.getElem?_codeBits`). -/
theorem takeBitsDeliversTheStream : Obligations.TakeBitsDeliversTheStream := by
  refine ⟨fun n s _ hn hc hi => ⟨State.takeBits_short hn, fun hlen => ?_⟩, fun s b hc hi _ hb => ?_,
    fun s hc hi => ?_⟩
  · obtain ⟨v, s', htake, hvalue, hstream, ⟨p, b, c, rfl⟩, hcnt, hcursor⟩ := State.takeBits_delivers hn hc hi hlen
    exact ⟨_, hvalue ▸ htake, hstream, rfl, ⟨rfl, rfl, rfl, rfl, rfl, rfl, rfl, rfl⟩, hcnt, hcursor, rfl⟩
  · rw [State.streamBits_eq, hc, hi]
    exact Memory.getElem?_codeBits _ _ _ _ hb
  · rw [State.length_streamBits, hc, hi]
    exact Nat.zero_add _

end Sys2Proof.Machine
end

section
/-! The LZB tokens (41_lzb.md R113 to R116): what the fetch finds for each outcome of its requests, how an error ends an
LZB job past its sub-header, and what the two tokens store. -/

namespace Sys2Proof.Machine

/-! ### What a request answers -/

/-- A request that succeeds is met from the buffer or with one refill (41_lzb.md R110). -/
theorem State.takeBits_cases {n v : Nat} {s s' : State} (h : s.takeBits n = some (v, s')) :
    ReaderMoved s s' ∧ (v = s.job.bitbuf.toNat / 2 ^ (s.job.bitcnt.toNat - n) % 2 ^ n ∨
      s.job.bitcnt.toNat < n ∧ v = s.job.bitbuf.toNat % 2 ^ s.job.bitcnt.toNat * 2 ^ (n - s.job.bitcnt.toNat) +
        (s.mem.readWord (s.srcAddr + s.inPos)).toNat / 2 ^ (32 - (n - s.job.bitcnt.toNat))) := by
  by_cases hc : n ≤ s.job.bitcnt.toNat
  · cases (State.takeBits_buffered hc).symm.trans h
    exact ⟨⟨_, _, _, rfl⟩, .inl rfl⟩
  rw [Nat.not_le] at hc
  by_cases hl : s.inPos + 4 ≤ s.srcLen
  · cases (State.takeBits_refill hc hl).symm.trans h
    exact ⟨⟨_, _, _, rfl⟩, .inr ⟨hc, rfl⟩⟩
  · cases (State.takeBits_exhausted hc (Nat.not_le.1 hl)).symm.trans h

theorem State.takeBits_moved {n v : Nat} {s s' : State} (h : s.takeBits n = some (v, s')) : ReaderMoved s s' :=
  (State.takeBits_cases h).1

/-- The answer has the width asked for. -/
theorem State.takeBits_lt {n v : Nat} {s s' : State} (hn : n ≤ 32) (h : s.takeBits n = some (v, s')) : v < 2 ^ n := by
  obtain ⟨-, rfl | ⟨hc, rfl⟩⟩ := State.takeBits_cases h
  · exact Nat.mod_lt _ (by positivity)
  · generalize s.job.bitcnt.toNat = c at hc ⊢
    have hhi : s.job.bitbuf.toNat % 2 ^ c < 2 ^ c := Nat.mod_lt _ (by positivity)
    have hlo := firstBits_lt (s.mem.readWord (s.srcAddr + s.inPos)) (k := n - c) (by omega)
    calc _ < (s.job.bitbuf.toNat % 2 ^ c + 1) * 2 ^ (n - c) := by rw [Nat.add_one_mul]; omega
      _ ≤ 2 ^ c * 2 ^ (n - c) := Nat.mul_le_mul_right _ hhi
      _ = 2 ^ n := by rw [← pow_add, Nat.add_sub_cancel' hc.le]

/-! ### The fetch of a token -/

section
variable {s s1 s2 s3 : State} {o m l : Nat}

theorem State.AtLzbToken.legalWidths (h : s.AtLzbToken) : s.widths.legal = true := by
  obtain ⟨-, -, -, hw, -⟩ := h
  exact hw

theorem State.fetch_lzbToken (h : s.AtLzbToken) : s.fetch = s.fetchLzb := by
  obtain ⟨⟨hp, -, hop⟩, hsrc, hpos, -⟩ := h
  rw [State.fetch_running hp]
  simp [State.fetchRunning, State.moreToDo, hsrc, hop, hpos]

theorem State.fetchLzb_lit (hw : s.widths.legal = true) (h1 : s.takeBits 1 = some (1, s1))
    (h2 : s1.takeBits 8 = some (l, s2)) : s.fetchLzb = .run (.lit (BitVec.ofNat 8 l)) s2 := by
  simp [State.fetchLzb, hw, h1, lzbLiteralBits, h2]

theorem State.fetchLzb_litCut (hw : s.widths.legal = true) (h1 : s.takeBits 1 = some (1, s1))
    (h2 : s1.takeBits 8 = none) : s.fetchLzb = .ended .truncatedStream .headerRead s1 := by
  simp [State.fetchLzb, hw, h1, lzbLiteralBits, h2]

theorem State.fetchLzb_ref (hw : s.widths.legal = true) (h1 : s.takeBits 1 = some (0, s1))
    (h2 : s1.takeBits s.widths.obits = some (o, s2)) (h3 : s2.takeBits s.widths.mbits = some (m, s3)) :
    s.fetchLzb = .run (.ref (BitVec.ofNat 32 o) (BitVec.ofNat 32 m)) s3 := by
  simp [State.fetchLzb, hw, h1, h2, h3]

theorem State.fetchLzb_offsetCut (hw : s.widths.legal = true) (h1 : s.takeBits 1 = some (0, s1))
    (h2 : s1.takeBits s.widths.obits = none) : s.fetchLzb = .ended .truncatedStream .headerRead s1 := by
  simp [State.fetchLzb, hw, h1, h2]

theorem State.fetchLzb_lengthCut (hw : s.widths.legal = true) (h1 : s.takeBits 1 = some (0, s1))
    (h2 : s1.takeBits s.widths.obits = some (o, s2)) (h3 : s2.takeBits s.widths.mbits = none) :
    s.fetchLzb = .ended .truncatedStream .headerRead s2 := by
  simp [State.fetchLzb, hw, h1, h2, h3]

end

/-! ### An LZB job that ends past its sub-header -/

/-- Such a job reports its cursor, its position and the header fields (40_jobs.md R94). -/
theorem State.complete_headerRead {s : State} (h : s.op = 1) (e : ErrCode) : s.complete e .headerRead =
    { s with win := s.reported e s.job.inPos s.job.pos s.job.osize (s.job.obits ++ s.job.mbits), phase := .idle } := by
  have hw : BitVec.ofNat 32 s.written = s.job.pos := by
    rw [State.written_bytes (.inl h), BitVec.ofNat_toNat, BitVec.setWidth_eq]
  simp only [State.op] at h
  simp [State.complete, State.reported, h, hw]

/-- A token that the fetch runs is the step. -/
theorem step_lzbToken {s s' : State} {i : Instr} (h : s.AtLzbToken) (hf : s.fetchLzb = .run i s') :
    step s = exec i s' := by
  have hfetch := State.fetch_lzbToken h
  obtain ⟨⟨-, hinbox, -⟩, -⟩ := h
  exact (step_engine hinbox).trans (engineMove_run (hfetch.trans hf))

/-- A token cut by the end of the source ends the job where its last request left the reader. -/
theorem truncatedAt_of_fetchLzb {s s' : State} (h : s.AtLzbToken) (hm : ReaderMoved s s')
    (hf : s.fetchLzb = .ended .truncatedStream .headerRead s') : TruncatedAt s s' := by
  have hfetch := State.fetch_lzbToken h
  obtain ⟨⟨-, hinbox, hop⟩, -⟩ := h
  have hstep := (step_engine hinbox).trans (engineMove_ended (hfetch.trans hf))
  obtain ⟨p, b, c, rfl⟩ := hm
  rw [State.complete_headerRead (s := s.withReader p b c) hop] at hstep
  exact ⟨_, hstep, rfl, rfl, rfl, ⟨rfl, rfl, rfl, rfl, rfl, rfl⟩, rfl⟩

/-! ### What the tokens do -/

/-- A position that moves on by `n` inside the 32 bits of `pos`. -/
theorem pos_of_job {s t : State} {n : Nat} (h : t.job = { s.job with pos := BitVec.ofNat 32 (s.pos + n) })
    (hn : s.pos + n ≤ s.dstLen) : t.pos = s.pos + n ∧ t.job = { s.job with pos := t.job.pos } := by
  have hlt : s.pos + n < 2 ^ 32 := hn.trans_lt s.win.dstLen.isLt
  rw [State.pos, h]
  exact ⟨(BitVec.toNat_ofNat _ _).trans (Nat.mod_eq_of_lt hlt), rfl⟩

theorem State.dstHolds_of_le {s : State} (hd : s.dstInSpace = true) {i n : Nat} (h : i + n ≤ s.dstLen) :
    s.dstHolds i n = true := by
  simpa [State.dstHolds, hd] using h

/-- Settles O8: `LIT` stores one byte (`execLit_next`), the fetch asks for 8 bits after a control bit 1
(`State.fetchLzb_lit`), and a literal cut short ends the job (`truncatedAt_of_fetchLzb`). -/
theorem literalStoresItsComplement : Obligations.LiteralStoresItsComplement := by
  refine ⟨fun l s hwf hd hpos => ?_, fun s s1 s2 l h h1 h2 => ?_, fun s s1 h h1 h2 => ?_⟩
  · obtain ⟨t, hexec, hstored, hjob⟩ := execLit_next (l := l) hwf (State.dstHolds_of_le hd hpos)
    obtain ⟨hp, hj⟩ := pos_of_job hjob hpos
    exact ⟨t, hexec, hstored.bytes 0 Nat.one_pos, hp, hstored.outside, hstored.block, hj⟩
  · exact ⟨State.takeBits_lt (by decide) h2, step_lzbToken h (State.fetchLzb_lit h.legalWidths h1 h2)⟩
  · exact truncatedAt_of_fetchLzb h (State.takeBits_moved h1) (State.fetchLzb_litCut h.legalWidths h1 h2)

/-- Settles O9: `REF` repeats the window (`execRef_next`) or raises its error (`execRef_invalid`); the fetch asks for the
two fields in order (`State.fetchLzb_ref`), and a cut field ends the job (`truncatedAt_of_fetchLzb`). -/
theorem backReferenceRepeatsTheWindow : Obligations.BackReferenceRepeatsTheWindow := by
  refine ⟨fun o m s hwf hd hcap hpos h0 ho => ?_, fun o m s hop ho => ?_, fun s s1 s2 s3 o m h h1 h2 h3 => ?_,
    fun s s1 h h1 h2 => ?_, fun s s1 s2 o h h1 h2 h3 => ?_⟩
  · have hroom : s.pos + s.refCount m ≤ s.dstLen := by
      have hcount : s.refCount m ≤ s.osize - s.pos := Nat.min_le_right _ _
      omega
    obtain ⟨t, hexec, hstored, hjob⟩ := execRef_next (m := m) hwf h0 ho (State.dstHolds_of_le hd hroom)
    obtain ⟨hp, hj⟩ := pos_of_job hjob hroom
    exact ⟨t, hexec, hp, hstored.bytes, hstored.outside, hstored.block, hj⟩
  · have hinvalid : o = 0 ∨ s.pos < o.toNat := ho.imp_left fun h => BitVec.eq_of_toNat_eq h
    have hexec : exec (.ref o m) s = _ := execRef_invalid (m := m) hinvalid
    rw [State.raise_eq_complete, State.complete_headerRead hop] at hexec
    exact ⟨_, hexec, rfl, rfl, rfl, ⟨rfl, rfl, rfl, rfl, rfl, rfl⟩, rfl⟩
  · obtain ⟨⟨-, ho⟩, -, hm⟩ := (Widths.legal_iff _).1 h.legalWidths
    exact ⟨(State.takeBits_lt ho h2).trans_le (Nat.pow_le_pow_right Nat.two_pos ho),
      (State.takeBits_lt hm h3).trans_le (Nat.pow_le_pow_right Nat.two_pos hm),
      step_lzbToken h (State.fetchLzb_ref h.legalWidths h1 h2 h3)⟩
  · exact truncatedAt_of_fetchLzb h (State.takeBits_moved h1) (State.fetchLzb_offsetCut h.legalWidths h1 h2)
  · exact truncatedAt_of_fetchLzb h ((State.takeBits_moved h1).trans (State.takeBits_moved h2))
      (State.fetchLzb_lengthCut h.legalWidths h1 h2 h3)

end Sys2Proof.Machine
end

section
/-! The LZB command and its sub-header (40_jobs.md R95, 41_lzb.md R112): the fields as numbers, and the four ways the
command goes on. -/

namespace Sys2Proof.Machine

/-! ### Little-endian fields -/

/-- An appended vector's number: the left part is the high one. -/
theorem toNat_append_add {m n : Nat} (x : BitVec m) (y : BitVec n) : (x ++ y).toNat = x.toNat * 2 ^ n + y.toNat := by
  rw [BitVec.toNat_append, ← Nat.shiftLeft_add_eq_or_of_lt y.isLt, Nat.shiftLeft_eq]

theorem Memory.toNat_readHalf (m : Memory) (a : Nat) :
    (m.readHalf a).toNat = (m.read a).toNat + (m.read (a + 1)).toNat * 2 ^ 8 := by
  rw [Memory.readHalf, toNat_append_add, Nat.add_comm]

theorem Memory.toNat_readWord (m : Memory) (a : Nat) : (m.readWord a).toNat =
    (m.read a).toNat + (m.read (a + 1)).toNat * 2 ^ 8 + (m.read (a + 2)).toNat * 2 ^ 16 +
      (m.read (a + 3)).toNat * 2 ^ 24 := by
  rw [Memory.readWord, toNat_append_add, toNat_append_add, toNat_append_add]
  omega

/-! ### The command up to its sub-header -/

theorem Widths.illegal_iff (w : Widths) :
    w.legal = false ↔ w.mbits < 1 ∨ 32 < w.mbits ∨ w.obits < 1 ∨ 32 < w.obits := by
  rw [← Bool.not_eq_true, Widths.legal_iff]
  omega

/-- The job state once the sub-header is read: its three fields, the cursor past it. -/
def State.headerJob (s : State) : Job :=
  { Job.initial with
    osize := s.mem.readWord s.srcAddr, mbits := s.mem.readHalf (s.srcAddr + 4), obits := s.mem.readHalf (s.srcAddr + 6)
    inPos := 8 }

/-- It is what `State.readHeader` leaves on an initialised job, whatever START latched. -/
theorem State.latchStart_readHeader (op : BitVec 3) (ie : Bool) (s : State) :
    (s.latchStart op ie).initJob.readHeader = (s.latchStart op ie).withJob s.headerJob := rfl

/-- A check of the sub-header that fails reports the cursor past it and its fields as read, and no byte written. -/
theorem State.headerJob_complete (ie : Bool) (s : State) (e : ErrCode) :
    ((s.latchStart 1 ie).withJob s.headerJob).complete e .headerRead =
      { s with
        win := (s.latchStart 1 ie).reported e 8 0 s.headerJob.osize (s.headerJob.obits ++ s.headerJob.mbits)
        phase := .idle, job := s.headerJob } := State.complete_headerRead rfl e

section
variable {s : State} (h : s.RangesPass) (hd : s.coversDevice = false) (ie : Bool)
include h hd

/-- With passing range checks over ordinary memory, the command is its sub-header on an initialised job. -/
theorem execCmdLzb_header : execCmdLzb ie s = lzbHeader (s.latchStart 1 ie).initJob :=
  (beginJob_rangesPass (by decide) h).trans (unlessDevice_memory hd)

/-- A source too short for the sub-header: nothing of it is read or reported. -/
theorem execCmdLzb_short (hl : s.srcLen < 8) : execCmdLzb ie s =
    .next { s with win := (s.latchStart 1 ie).reported .truncatedStream 0 0 0 0, phase := .idle, job := Job.initial } :=
  (execCmdLzb_header h hd ie).trans <| (lzbHeader_short (s := (s.latchStart 1 ie).initJob) hl).trans <|
    congrArg _ (State.initJob_rejectCommand .truncatedStream (s.latchStart 1 ie))

theorem execCmdLzb_widths (hl : 8 ≤ s.srcLen) (hw : (s.withJob s.headerJob).widths.legal = false) : execCmdLzb ie s =
    .next (((s.latchStart 1 ie).withJob s.headerJob).complete .configInvalid .headerRead) :=
  (execCmdLzb_header h hd ie).trans (lzbHeader_widths (s := (s.latchStart 1 ie).initJob) hl hw)

theorem execCmdLzb_capacity (hl : 8 ≤ s.srcLen) (hw : (s.withJob s.headerJob).widths.legal = true)
    (hc : s.dstLen < s.headerJob.osize.toNat) : execCmdLzb ie s =
    .next (((s.latchStart 1 ie).withJob s.headerJob).complete .capacity .headerRead) :=
  (execCmdLzb_header h hd ie).trans (lzbHeader_capacity (s := (s.latchStart 1 ie).initJob) hl hw hc)

theorem execCmdLzb_loop (hl : 8 ≤ s.srcLen) (hw : (s.withJob s.headerJob).widths.legal = true)
    (hc : s.headerJob.osize.toNat ≤ s.dstLen) : execCmdLzb ie s =
    .next ((s.latchStart 1 ie).withJob s.headerJob).enterLoop :=
  (execCmdLzb_header h hd ie).trans (lzbHeader_loop (s := (s.latchStart 1 ie).initJob) hl hw hc)

end

/-- Settles O21: the sub-header's fields are little-endian (`Memory.toNat_readWord`, `Memory.toNat_readHalf`), and the
first of its checks that fails decides how the command ends (`execCmdLzb_short`, `execCmdLzb_widths`,
`execCmdLzb_capacity`, `execCmdLzb_loop`). -/
theorem lzbHeaderIsReadAndChecked : Obligations.LzbHeaderIsReadAndChecked := by
  refine fun ie s h hd => ⟨execCmdLzb_short h hd ie, fun hl => ⟨s.headerJob.osize, s.headerJob.mbits, s.headerJob.obits,
    s.mem.toNat_readWord _, s.mem.toNat_readHalf _, s.mem.toNat_readHalf _, ?_⟩⟩
  change execCmdLzb ie s = _
  have hwidths : (s.withJob s.headerJob).widths.legal = false ↔ s.headerJob.mbits.toNat < 1 ∨
      32 < s.headerJob.mbits.toNat ∨ s.headerJob.obits.toNat < 1 ∨ 32 < s.headerJob.obits.toNat := Widths.illegal_iff _
  cases hw : (s.withJob s.headerJob).widths.legal with
  | false =>
    have hbad := hwidths.1 hw
    rw [execCmdLzb_widths h hd ie hl hw, State.headerJob_complete, if_pos hbad, if_pos (by omega)]
    rfl
  | true =>
    have hgood := mt hwidths.2 (ne_false_of_eq_true hw)
    rw [if_neg hgood]
    by_cases hc : s.dstLen < s.headerJob.osize.toNat
    · rw [execCmdLzb_capacity h hd ie hl hw hc, State.headerJob_complete, if_pos hc, if_pos (by omega)]
      rfl
    · rw [execCmdLzb_loop h hd ie hl hw (Nat.not_lt.1 hc), if_neg hc, if_neg (by omega)]
      rfl

end Sys2Proof.Machine
end

section
/-! The RLE decoders' keys (30_encoding.md R77, 42_rle.md R141, R142): a key byte is its top two bits before its low six,
and what each value of the top two decodes to. -/

namespace Sys2Proof

theorem keyByte_eq_ofNat (q : BitVec 2) (l : BitVec 6) :
    (q ++ l : Byte) = BitVec.ofNat 8 (q.toNat * 0x40 + l.toNat) := by
  refine BitVec.eq_of_toNat_eq ((Machine.toNat_append_add q l).trans ?_)
  rw [BitVec.toNat_ofNat]
  omega

/-- A key in the quarter of the byte range that its top two bits name. -/
theorem key_eq_append {k : Byte} (q : BitVec 2) (h : q.toNat * 0x40 ≤ k.toNat) (h' : k.toNat < q.toNat * 0x40 + 0x40) :
    k = q ++ BitVec.ofNat 6 (k.toNat - q.toNat * 0x40) := by
  refine BitVec.eq_of_toNat_eq (Eq.trans ?_ (Machine.toNat_append_add q _).symm)
  rw [BitVec.toNat_ofNat]
  omega

theorem decodeRle8_klit00 (l : BitVec 6) (rest : List Byte) :
    decodeRle8 (((0 : BitVec 2) ++ l) :: rest) = .ok (.klit00 l, 1) := by
  rw [decodeRle8_cons, BitVec.extractLsb'_append_eq_left, BitVec.extractLsb'_append_eq_right, if_pos rfl]

theorem decodeRle8_klit01 (l : BitVec 6) (rest : List Byte) :
    decodeRle8 (((1 : BitVec 2) ++ l) :: rest) = .ok (.klit01 l, 1) := by
  rw [decodeRle8_cons, BitVec.extractLsb'_append_eq_left, BitVec.extractLsb'_append_eq_right]
  rfl

theorem decodeRle8_klit10 (l : BitVec 6) (rest : List Byte) :
    decodeRle8 (((2 : BitVec 2) ++ l) :: rest) = .ok (.klit10 l, 1) := by
  rw [decodeRle8_cons, BitVec.extractLsb'_append_eq_left, BitVec.extractLsb'_append_eq_right]
  rfl

theorem decodeRle8_run {k : Byte} (h : 0xC0 ≤ k.toNat) (d : Byte) (rest : List Byte) :
    decodeRle8 (k :: d :: rest) = .ok (.run (BitVec.ofNat 6 (k.toNat - 0xC0)) d, 2) := by
  have hk : k = (3 : BitVec 2) ++ BitVec.ofNat 6 (k.toNat - 0xC0) := key_eq_append 3 h k.isLt
  generalize k.toNat - 0xC0 = n at hk ⊢
  rw [hk, decodeRle8_cons, BitVec.extractLsb'_append_eq_left, BitVec.extractLsb'_append_eq_right]
  rfl

/-- A run key without its data byte: only the key is taken. -/
theorem decodeRle8_runCut {k : Byte} (h : 0xC0 ≤ k.toNat) : decodeRle8 [k] = .error (.streamEnd 1) := by
  have hk : k = (3 : BitVec 2) ++ BitVec.ofNat 6 (k.toNat - 0xC0) := key_eq_append 3 h k.isLt
  rw [hk, decodeRle8_cons, BitVec.extractLsb'_append_eq_left]
  rfl

/-- A unit key with fewer than two data bytes after it: only the key is taken. -/
theorem decodeRle16_cut {k : Byte} {rest : List Byte} (h : rest.length < 2) :
    decodeRle16 (k :: rest) = .error (.streamEnd 1) := by
  match rest, h with
  | [], _ => rfl
  | [_], _ => rfl

end Sys2Proof
end

section
/-! The fetch of an RLE token (42_rle.md R140, R142, R145, R146): the source bytes it sees, the step it makes of what they
decode to, and how an RLE job ends. -/

namespace Sys2Proof.Machine

/-! ### The source bytes a fetch sees -/

theorem State.nextBytes_eq {s : State} {n k : Nat} (h : min n (s.srcLen - s.inPos) = k) :
    s.nextBytes n = (List.range k).map fun j => s.src (s.inPos + j) := by
  rw [State.nextBytes, h]

/-- A source that has not ended gives its next byte first, and at most as many as asked for. -/
theorem State.nextBytes_cons {s : State} {n : Nat} (h : s.inPos < s.srcLen) :
    ∃ rest, s.nextBytes (n + 1) = s.src s.inPos :: rest ∧ rest.length = min n (s.srcLen - s.inPos - 1) := by
  rw [State.nextBytes_eq (k := min n (s.srcLen - s.inPos - 1) + 1) (by omega), List.range_succ_eq_map]
  exact ⟨_, rfl, by simp⟩

theorem State.nextBytes_two {s : State} (h : s.inPos + 2 ≤ s.srcLen) :
    s.nextBytes 2 = [s.src s.inPos, s.src (s.inPos + 1)] :=
  State.nextBytes_eq (k := 2) (by omega)

theorem State.nextBytes_three {s : State} (h : s.inPos + 3 ≤ s.srcLen) :
    s.nextBytes 3 = [s.src s.inPos, s.src (s.inPos + 1), s.src (s.inPos + 2)] :=
  State.nextBytes_eq (k := 3) (by omega)

/-! ### The step it makes -/

section
variable {s : State}

theorem State.fetch_rle8 (h : s.AtLoop 2) (hs : s.srcInSpace = true) (hpos : s.pos < s.dstLen) :
    s.fetch = s.fetchedBytes (decodeRle8 (s.nextBytes 2)) := by
  obtain ⟨hp, -, hop⟩ := h
  rw [State.fetch_running hp]
  simp [State.fetchRunning, State.moreToDo, State.fetchRle8, hs, hop, hpos]

theorem State.fetch_rle16 (h : s.AtLoop 3) (hs : s.srcInSpace = true) (hpos : s.pos < s.units) :
    s.fetch = s.fetchedBytes (decodeRle16 (s.nextBytes 3)) := by
  obtain ⟨hp, -, hop⟩ := h
  rw [State.fetch_running hp]
  simp [State.fetchRunning, State.moreToDo, State.fetchRle16, hs, hop, hpos]

/-- An RLE8 job whose destination is full has no token left to fetch. -/
theorem State.fetch_rle8_full (h : s.AtLoop 2) (hs : s.srcInSpace = true) (hpos : s.pos = s.dstLen) :
    s.fetch = .ended .noError .headerRead s := by
  obtain ⟨hp, -, hop⟩ := h
  rw [State.fetch_running hp]
  simp [State.fetchRunning, State.moreToDo, hs, hop, hpos]

/-- An RLE job reports its cursor and the bytes it has written, and no header fields (40_jobs.md R94). -/
theorem State.complete_rle (h : s.op = 2 ∨ s.op = 3) (e : ErrCode) : s.complete e .headerRead =
    { s with win := s.reported e s.job.inPos (BitVec.ofNat 32 s.written) 0 0, phase := .idle } := by
  have h1 : s.win.op.toNat ≠ 1 := by
    simp only [State.op] at h
    omega
  simp [State.complete, State.reported, h, h1]

/-- A token that the fetched bytes decode to is the step. -/
theorem step_fetchedToken {op : Nat} {r : Except Reject (Instr × Nat)} {i : Instr} {n : Nat} (h : s.AtLoop op)
    (hf : s.fetch = s.fetchedBytes r) (hr : r = .ok (i, n)) : step s = exec i (s.setIn (s.inPos + n)) := by
  obtain ⟨-, hinbox, -⟩ := h
  subst hr
  exact (step_engine hinbox).trans (engineMove_run hf)

/-- A token that the end of the source cuts ends the job with OUT_OF_BOUNDS and the cursor past what was read, nothing
written (42_rle.md R142, R146). -/
theorem step_fetchedCut {op : Nat} {r : Except Reject (Instr × Nat)} {n : Nat} (h : s.AtLoop op) (ho : op = 2 ∨ op = 3)
    (hf : s.fetch = s.fetchedBytes r) (hr : r = .error (.streamEnd n)) :
    ∃ t, step s = .next t ∧ t.phase = .idle ∧ t.mem = s.mem ∧ SameWorld s t ∧
      t.win = s.reported .outOfBounds (BitVec.ofNat 32 (s.inPos + n)) (BitVec.ofNat 32 s.written) 0 0 := by
  obtain ⟨-, hinbox, rfl⟩ := h
  subst hr
  have hstep := (step_engine hinbox).trans (engineMove_ended hf)
  rw [State.complete_rle (s := s.setIn (s.inPos + n)) ho] at hstep
  exact ⟨_, hstep, rfl, rfl, ⟨rfl, rfl, rfl, rfl, rfl, rfl⟩, rfl⟩

end

end Sys2Proof.Machine
end

section
/-! The RLE8 and RLE16 tokens (42_rle.md R141, R142, R146): what each stores, and which bytes of the source it is. -/

namespace Sys2Proof.Machine

/-! ### Literal keys -/

/-- Instruction `i` is the literal of the key byte `k`: `k` alone decodes to it, and it stores the complement of `k`. -/
structure LiteralKey (i : Instr) (k : Byte) : Prop where
  decodes : ∀ rest, decodeRle8 (k :: rest) = .ok (i, 1)
  puts : ∀ s, exec i s = s.putKey k

theorem klit00_literalKey (l : BitVec 6) : LiteralKey (.klit00 l) ((0 : BitVec 2) ++ l) :=
  ⟨decodeRle8_klit00 l, fun _ => rfl⟩

theorem klit01_literalKey (l : BitVec 6) : LiteralKey (.klit01 l) ((1 : BitVec 2) ++ l) :=
  ⟨decodeRle8_klit01 l, fun _ => rfl⟩

theorem klit10_literalKey (l : BitVec 6) : LiteralKey (.klit10 l) ((2 : BitVec 2) ++ l) :=
  ⟨decodeRle8_klit10 l, fun _ => rfl⟩

/-- Every key below the run keys is one of the three literals. -/
theorem exists_literalKey {k : Byte} (h : k.toNat < 0xC0) : ∃ i, LiteralKey i k := by
  rcases Nat.lt_or_ge k.toNat 0x40 with h0 | h0
  · exact ⟨_, key_eq_append 0 (Nat.zero_le _) h0 ▸ klit00_literalKey _⟩
  rcases Nat.lt_or_ge k.toNat 0x80 with h1 | h1
  · exact ⟨_, key_eq_append 1 h0 h1 ▸ klit01_literalKey _⟩
  · exact ⟨_, key_eq_append 2 h1 h ▸ klit10_literalKey _⟩

theorem LiteralKey.exec_next {i : Instr} {k : Byte} (h : LiteralKey i k) {s : State} (hwf : s.mem.wf = true)
    (hd : s.dstInSpace = true) (hpos : s.pos < s.dstLen) :
    ∃ t, exec i s = .next t ∧ Stored s t s.pos 1 (fun _ => ~~~k) ∧
      t.job = { s.job with pos := BitVec.ofNat 32 (s.pos + 1) } :=
  h.puts s ▸ State.putKey_next hwf (State.dstHolds_of_le hd hpos)

/-- The three forms by the number of their key byte. -/
theorem literalKey_of_mem {l : BitVec 6} {i : Instr} {k : Nat}
    (h : (i, k) ∈ [(Instr.klit00 l, l.toNat), (Instr.klit01 l, 0x40 + l.toNat), (Instr.klit10 l, 0x80 + l.toNat)]) :
    k ≤ 0xFF ∧ LiteralKey i (BitVec.ofNat 8 k) := by
  have hl := l.isLt
  simp only [List.mem_cons, List.not_mem_nil, or_false, Prod.mk.injEq] at h
  obtain ⟨rfl, rfl⟩ | ⟨rfl, rfl⟩ | ⟨rfl, rfl⟩ := h
  · exact ⟨by omega, by simpa [keyByte_eq_ofNat] using klit00_literalKey l⟩
  · exact ⟨by omega, by simpa [keyByte_eq_ofNat] using klit01_literalKey l⟩
  · exact ⟨by omega, by simpa [keyByte_eq_ofNat] using klit10_literalKey l⟩

/-- Settles O10: each form is the literal of its key byte (`literalKey_of_mem`), which stores its complement
(`LiteralKey.exec_next`). -/
theorem literalKeysStoreTheirComplement : Obligations.LiteralKeysStoreTheirComplement := by
  intro l i k s h
  obtain ⟨hk, hkey⟩ := literalKey_of_mem h
  refine ⟨hkey.decodes, fun hwf hd hpos => ?_⟩
  obtain ⟨t, hexec, hstored, hjob⟩ := hkey.exec_next hwf hd hpos
  obtain ⟨hp, hj⟩ := pos_of_job hjob hpos
  have hbyte : (t.dst s.pos).toNat = 0xFF - k := by
    rw [← Nat.add_zero s.pos, hstored.bytes 0 Nat.one_pos, BitVec.toNat_not, BitVec.toNat_ofNat]
    omega
  exact ⟨t, hexec, hbyte, hp, hstored.outside, hstored.block, hj⟩

/-! ### Runs -/

theorem State.pos_add_runCount_le {s : State} (c : BitVec 6) (h : s.pos ≤ s.dstLen) :
    s.pos + s.runCount c ≤ s.dstLen := by
  have := Nat.min_le_right c.toNat (s.dstLen - s.pos)
  rw [State.runCount]
  omega

theorem step_run {s : State} (h : s.AtLoop 2) (hs : s.srcInSpace = true) (hpos : s.pos < s.dstLen)
    (hlen : s.inPos + 2 ≤ s.srcLen) (hk : 0xC0 ≤ (s.src s.inPos).toNat) :
    step s = exec (.run (BitVec.ofNat 6 ((s.src s.inPos).toNat - 0xC0)) (s.src (s.inPos + 1)))
      (s.setIn (s.inPos + 2)) :=
  step_fetchedToken h (State.fetch_rle8 h hs hpos) (State.nextBytes_two hlen ▸ decodeRle8_run hk _ _)

/-- Settles O11: `RUN` fills its part of the destination (`execRun_next`), a run key with its data byte decodes to it
(`step_run`), and a run key without one ends the job (`decodeRle8_runCut`). -/
theorem runRepeatsTheComplement : Obligations.RunRepeatsTheComplement := by
  refine ⟨fun c d s hwf hd hpos => ?_, fun s => step_run, fun s h hs hpos hlen hk => ?_⟩
  · have hroom := State.pos_add_runCount_le c hpos
    obtain ⟨t, hexec, hstored, hjob⟩ := execRun_next (c := c) (d := d) hwf (State.dstHolds_of_le hd hroom)
    obtain ⟨hp, hj⟩ := pos_of_job hjob hroom
    exact ⟨t, hexec, hp, hstored.bytes, hstored.outside, hstored.block, hj⟩
  · have hbytes : s.nextBytes 2 = [s.src s.inPos] := State.nextBytes_eq (k := 1) (by omega)
    obtain ⟨t, hstep, hidle, hmem, hworld, hwin⟩ :=
      step_fetchedCut h (.inl rfl) (State.fetch_rle8 h hs hpos) (hbytes ▸ decodeRle8_runCut hk)
    obtain ⟨-, -, hop⟩ := h
    rw [hlen, State.written_bytes (.inr hop)] at hwin
    exact ⟨t, hstep, hidle, hmem, hworld, by simpa using hwin⟩

/-! ### Units -/

theorem State.pos_add_unitCount_le {s : State} (k : Byte) (h : s.pos ≤ s.units) :
    s.pos + s.unitCount k ≤ s.units := by
  have := Nat.min_le_right (min k.toNat rle16Clamp) (s.units - s.pos)
  rw [State.unitCount]
  omega

/-- `units` units are at most the bytes of the destination range, two each. -/
theorem State.two_mul_units_le (s : State) : 2 * s.units ≤ s.dstLen := Nat.mul_div_le s.dstLen 2

theorem unitByte_even (b0 b1 : Byte) (i : Nat) : unitByte b0 b1 (2 * i) = b0 := if_pos (Nat.mul_mod_right 2 i)

theorem unitByte_odd (b0 b1 : Byte) (i : Nat) : unitByte b0 b1 (2 * i + 1) = b1 := if_neg (by omega)

/-- Units stored from unit `p` on stand with B0 at the even and B1 at the odd byte. -/
theorem Stored.unit_bytes {s t : State} {b0 b1 : Byte} {p n i : Nat}
    (h : Stored s t (2 * p) (2 * n) (unitByte b0 b1)) (hi : i < n) :
    t.dst (2 * (p + i)) = b0 ∧ t.dst (2 * (p + i) + 1) = b1 := by
  rw [Nat.mul_add, Nat.add_assoc]
  exact ⟨(h.bytes _ (by omega)).trans (unitByte_even b0 b1 i), (h.bytes _ (by omega)).trans (unitByte_odd b0 b1 i)⟩

/-- Settles O12: `UNIT` fills its part of the destination (`execUnit_next`, `Stored.unit_bytes`), a key with two bytes
after it decodes to it (`decodeRle16_three`), and a key with fewer ends the job (`decodeRle16_cut`). -/
theorem unitRepeatsItsTwoBytes : Obligations.UnitRepeatsItsTwoBytes := by
  refine ⟨fun k b0 b1 s hwf hd hpos => ?_, fun s h hs hpos hlen => ?_, fun s h hs hpos hin hlen => ?_⟩
  · have hunits := State.pos_add_unitCount_le k hpos
    have hbytes := s.two_mul_units_le
    obtain ⟨t, hexec, hstored, hjob⟩ :=
      execUnit_next (k := k) (b0 := b0) (b1 := b1) hwf (State.dstHolds_of_le hd (by omega))
    obtain ⟨hp, hj⟩ := pos_of_job hjob (by omega)
    exact ⟨t, hexec, hp, fun i hi => hstored.unit_bytes hi, hstored.outside, hstored.block, hj⟩
  · exact step_fetchedToken h (State.fetch_rle16 h hs hpos)
      (State.nextBytes_three hlen ▸ decodeRle16_three _ _ _ [])
  · obtain ⟨rest, hbytes, hrest⟩ := State.nextBytes_cons (n := 2) hin
    obtain ⟨t, hstep, hidle, hmem, hworld, hwin⟩ :=
      step_fetchedCut h (.inr rfl) (State.fetch_rle16 h hs hpos) (hbytes ▸ decodeRle16_cut (by omega))
    obtain ⟨-, -, hop⟩ := h
    rw [State.written_units hop] at hwin
    exact ⟨t, hstep, hidle, hmem, hworld, hwin⟩

end Sys2Proof.Machine
end

section
/-! A whole RLE8 job (42_rle.md R140, R143): a stream of literals is complemented key by key until the destination is
full, and then the job completes; one run can fill the destination as well. -/

namespace Sys2Proof.Machine

/-! ### The job at its start, and its completion -/

/-- A good running RLE8 job: canonical memory, its two ranges in the address space and apart (40_jobs.md R91). -/
structure Rle8Running (s : State) : Prop where
  loop : s.AtLoop 2
  wf : s.mem.wf = true
  srcInSpace : s.srcInSpace = true
  dstInSpace : s.dstInSpace = true
  apart : rangesMeet s.srcAddr s.srcLen s.dstAddr s.dstLen = false

theorem Rle8Running.of_inv {s : State} (hinv : s.Inv) (hloop : s.AtLoop 2) : Rle8Running s := by
  obtain ⟨hwf, -, -, -, -, hrun⟩ := hinv
  have ⟨hphase, _, _⟩ := hloop
  obtain ⟨hchecks, -⟩ := hrun hphase
  simp only [State.startCheckFails, Bool.or_eq_false_iff, Bool.not_eq_false'] at hchecks
  obtain ⟨⟨⟨-, hsrc⟩, hdst⟩, hapart⟩ := hchecks
  exact ⟨hloop, hwf, hsrc, hdst, hapart⟩

/-- A store in the destination range, after the cursor moved on, leaves the job good. -/
theorem Rle8Running.stored {s t : State} {v i n : Nat} {f : Nat → Byte} (h : Rle8Running s)
    (st : Stored (s.setIn v) t i n f) : Rle8Running t := by
  obtain ⟨hwin, hphase, -, -, hinbox, -⟩ := st.block
  obtain ⟨⟨hrunning, hempty, hop⟩, -, hsrc, hdst, hapart⟩ := h
  rw [State.setIn_win] at hwin
  have hsrc' : t.srcInSpace = true := by rwa [State.srcInSpace, State.srcAddr, State.srcLen, hwin]
  have hdst' : t.dstInSpace = true := by rwa [State.dstInSpace, State.dstAddr, State.dstLen, hwin]
  have hapart' : rangesMeet t.srcAddr t.srcLen t.dstAddr t.dstLen = false := by simpa [hwin] using hapart
  have hloop : t.AtLoop 2 := ⟨hphase.trans hrunning, hinbox.trans hempty, by rwa [State.op, hwin]⟩
  exact ⟨hloop, st.wf, hsrc', hdst', hapart'⟩

/-- With its destination full the job completes with code NONE, reporting its cursor and DST_LEN. -/
theorem Rle8Running.step_full {s : State} (h : Rle8Running s) (hpos : s.pos = s.dstLen) :
    ∃ t, step s = .next t ∧ t.phase = .idle ∧ t.win = s.reported .noError s.job.inPos s.win.dstLen 0 0 ∧
      ∀ i, t.dst i = s.dst i := by
  have hfetch := State.fetch_rle8_full h.loop h.srcInSpace hpos
  obtain ⟨-, hinbox, hop⟩ := h.loop
  have hstep := (step_engine hinbox).trans (engineMove_ended hfetch)
  rw [State.complete_rle (.inl hop), State.written_bytes (.inr hop), hpos] at hstep
  exact ⟨_, hstep, rfl, by simp, fun _ => rfl⟩

/-! ### A stream of literals -/

/-- The job `t` that `s` has become after the first `p` source bytes, all of them literals: each stands complemented in
the destination, and the source is as it was. -/
structure LiteralsDone (s t : State) (p : Nat) : Prop where
  running : Rle8Running t
  win : t.win = s.win
  inPos : t.inPos = p
  pos : t.pos = p
  src : ∀ i, i < s.srcLen → t.src i = s.src i
  dst : ∀ i, i < p → t.dst i = ~~~(s.src i)

/-- The job `u` that `s` has become at its end: every destination byte is the complement of its source byte, and the
report is code NONE with both positions at DST_LEN. -/
structure LiteralsComplemented (s u : State) : Prop where
  idle : u.phase = .idle
  win : u.win = s.reported .noError s.win.dstLen s.win.dstLen 0 0
  dst : ∀ i, i < s.dstLen → u.dst i = ~~~(s.src i)

theorem LiteralsDone.start {s : State} (h : Rle8Running s) (hin : s.inPos = 0) (hpos : s.pos = 0) :
    LiteralsDone s s 0 :=
  ⟨h, rfl, hin, hpos, fun _ _ => rfl, fun _ hi => absurd hi (Nat.not_lt_zero _)⟩

/-- The literal at the cursor stores the complement of its key byte; cursor and position move on by one. -/
theorem Rle8Running.step_literal {s : State} (h : Rle8Running s) (hin : s.inPos < s.srcLen) (hpos : s.pos < s.dstLen)
    (hlit : (s.src s.inPos).toNat < 0xC0) :
    ∃ t, step s = .next t ∧ Stored (s.setIn (s.inPos + 1)) t s.pos 1 (fun _ => ~~~(s.src s.inPos)) ∧
      t.inPos = s.inPos + 1 ∧ t.pos = s.pos + 1 := by
  obtain ⟨i, hkey⟩ := exists_literalKey hlit
  obtain ⟨rest, hbytes, -⟩ := State.nextBytes_cons (n := 1) hin
  have hstep := step_fetchedToken h.loop (State.fetch_rle8 h.loop h.srcInSpace hpos) (hbytes ▸ hkey.decodes rest)
  obtain ⟨t, hexec, hstored, hjob⟩ := hkey.exec_next (s := s.setIn (s.inPos + 1)) h.wf h.dstInSpace hpos
  have hin' : t.inPos = s.inPos + 1 := by
    rw [State.inPos, hjob]
    exact (BitVec.toNat_ofNat _ _).trans (Nat.mod_eq_of_lt (Nat.lt_of_le_of_lt hin s.win.srcLen.isLt))
  obtain ⟨hpos', -⟩ := pos_of_job hjob hpos
  exact ⟨t, hstep.trans hexec, hstored, hin', hpos'⟩

/-- One more literal. -/
theorem LiteralsDone.step_next {s t : State} {p : Nat} (h : LiteralsDone s t p) (hp : p < s.dstLen)
    (hlen : s.dstLen ≤ s.srcLen) (hlit : (s.src p).toNat < 0xC0) :
    ∃ u, step t = .next u ∧ LiteralsDone s u (p + 1) := by
  obtain ⟨hrun, hwin, rfl, hpos, hsrc, hdst⟩ := h
  have hsrcLen : t.srcLen = s.srcLen := by rw [State.srcLen, hwin]
  have hdstLen : t.dstLen = s.dstLen := by rw [State.dstLen, hwin]
  have hbyte : t.src t.inPos = s.src t.inPos := hsrc _ (by omega)
  obtain ⟨u, hstep, hstored, hin', hpos'⟩ := hrun.step_literal (by omega) (by omega) (hbyte ▸ hlit)
  obtain ⟨hwin', -⟩ := hstored.block
  refine ⟨u, hstep, hrun.stored hstored, hwin'.trans hwin, hin', by omega, fun i hi => ?_, fun i hi => ?_⟩
  · exact (hstored.src_kept hrun.apart (show t.pos + 1 ≤ t.dstLen by omega) (hsrcLen ▸ hi)).trans (hsrc i hi)
  · rcases Nat.lt_succ_iff_lt_or_eq.1 hi with hlt | rfl
    · exact (hstored.dst_below (hpos ▸ hlt)).trans (hdst i hlt)
    · have hlast := hstored.bytes 0 Nat.one_pos
      rwa [Nat.add_zero, hpos, hbyte] at hlast

theorem LiteralsDone.finish {s t : State} (h : LiteralsDone s t s.dstLen) :
    ∃ u, step t = .next u ∧ LiteralsComplemented s u := by
  obtain ⟨hrun, hwin, hin, hpos, -, hdst⟩ := h
  obtain ⟨u, hstep, hidle, hwin', hsame⟩ := hrun.step_full (by rw [hpos, State.dstLen, State.dstLen, hwin])
  have hin' : t.job.inPos = s.win.dstLen := BitVec.eq_of_toNat_eq hin
  have hreport : u.win = s.reported .noError s.win.dstLen s.win.dstLen 0 0 := by
    rw [hwin', hin', State.reported, State.reported, hwin]
  exact ⟨u, hstep, hidle, hreport, fun i hi => (hsame i).trans (hdst i hi)⟩

/-- The rest of the job, `n` literals and the completion. -/
theorem LiteralsDone.run {s : State} (hlen : s.dstLen ≤ s.srcLen) (hlit : ∀ i, i < s.dstLen → (s.src i).toNat < 0xC0)
    (n : Nat) {t : State} {p : Nat} (h : LiteralsDone s t p) (hn : p + n = s.dstLen) :
    ∃ u, Host.Core.run core (n + 1) t = .next u ∧ LiteralsComplemented s u := by
  induction n generalizing t p with
  | zero =>
    obtain rfl : p = s.dstLen := hn
    obtain ⟨u, hstep, hu⟩ := h.finish
    exact ⟨u, run_next hstep, hu⟩
  | succ n ih =>
    have hp : p < s.dstLen := by omega
    obtain ⟨t', hstep, h'⟩ := h.step_next hp hlen (hlit p hp)
    rw [run_next hstep]
    exact ih h' (by omega)

/-! ### One run -/

/-- A run that reaches the end of the destination range fills the rest of it. -/
theorem Rle8Running.step_fillingRun {s : State} (h : Rle8Running s) (hpos : s.pos < s.dstLen)
    (hlen : s.inPos + 2 ≤ s.srcLen) (hk : 0xC0 + (s.dstLen - s.pos) ≤ (s.src s.inPos).toNat) :
    ∃ t, step s = .next t ∧ Rle8Running t ∧ t.win = s.win ∧ t.pos = s.dstLen ∧
      ∀ i, i < s.dstLen - s.pos → t.dst (s.pos + i) = ~~~(s.src (s.inPos + 1)) := by
  generalize hc : BitVec.ofNat 6 ((s.src s.inPos).toNat - 0xC0) = c
  have hcount : (s.setIn (s.inPos + 2)).runCount c = s.dstLen - s.pos := by
    refine Nat.min_eq_right (?_ : s.dstLen - s.pos ≤ c.toNat)
    rw [← hc, BitVec.toNat_ofNat]
    omega
  have hstep := step_run h.loop h.srcInSpace hpos hlen (by omega)
  obtain ⟨t, hexec, hstored, hjob⟩ := execRun_next (c := c) (d := s.src (s.inPos + 1)) (s := s.setIn (s.inPos + 2)) h.wf
    (State.dstHolds_of_le h.dstInSpace (State.pos_add_runCount_le c hpos.le))
  rw [hc] at hstep
  obtain ⟨hwin, -⟩ := hstored.block
  obtain ⟨hpos', -⟩ := pos_of_job hjob (State.pos_add_runCount_le c hpos.le)
  rw [hcount] at hstored hpos'
  exact ⟨t, hstep.trans hexec, h.stored hstored, hwin, hpos'.trans (Nat.add_sub_cancel' hpos.le), hstored.bytes⟩

/-- Settles O50: each literal leaves one more byte complemented (`LiteralsDone.step_next`, by induction over those left
in `LiteralsDone.run`); the run `C5 AA` fills its five bytes in one step (`Rle8Running.step_fillingRun`). -/
theorem rle8LiteralStreamsAreComplemented : Obligations.Rle8LiteralStreamsAreComplemented := by
  refine ⟨fun s hinv h hin hpos hlen hlit => ?_, fun s hinv h hin hpos hdst hsrc h0 h1 => ?_⟩
  · have hstart := LiteralsDone.start (Rle8Running.of_inv hinv h) hin hpos
    obtain ⟨t, hrun, hidle, hwin, hdst⟩ := hstart.run hlen hlit s.dstLen (Nat.zero_add _)
    exact ⟨t, hrun, hidle, hwin ▸ rfl, hwin ▸ rfl, hwin ▸ rfl, hdst⟩
  · obtain ⟨t, hstep, hrun, hwin, hpos', hbytes⟩ := (Rle8Running.of_inv hinv h).step_fillingRun (by omega) (by omega)
      (by rw [hin, h0, hdst, hpos]; decide)
    obtain ⟨u, hstep', hidle, hwin', hsame⟩ := hrun.step_full (by rw [hpos', State.dstLen, State.dstLen, hwin])
    rw [hpos, hin, hdst, h1] at hbytes
    refine ⟨u, (run_next hstep).trans (run_next hstep'), hidle, hwin' ▸ rfl, fun i hi => (hsame i).trans ?_⟩
    rw [← Nat.zero_add i, hbytes i hi]
    decide

end Sys2Proof.Machine
end

section
/-! The pixel formats (43_convert.md R160 to R172): the value each gives a pixel the source supplies, the skip rule, and
the two bytes one pass of the loop writes. -/

namespace Sys2Proof.Machine

/-! ### The bits of a packed pixel (43_convert.md R164) -/

/-- A 1 bpp pixel is one bit, first pixel in bit 7. -/
theorem packedIndex_one (b : Byte) (x : Nat) : packedIndex b 1 (x * 1) = (b.getLsbD (7 - x % 8)).toNat := by
  have hbit : 8 - 1 - x * 1 % 8 = 7 - x % 8 := by omega
  rw [packedIndex, hbit, pow_one, BitVec.getLsbD, Nat.toNat_testBit]

/-- A 2 bpp pixel is one of four pairs of bits, first pixel in bits 7:6. -/
theorem packedIndex_two (b : Byte) (x : Nat) : packedIndex b 2 (x * 2) = b.toNat / 2 ^ (6 - 2 * (x % 4)) % 4 := by
  have hbit : 8 - 2 - x * 2 % 8 = 6 - 2 * (x % 4) := by omega
  rw [packedIndex, hbit]
  rfl

/-- A 4 bpp pixel is the high nibble for even `x`, the low one for odd. -/
theorem packedIndex_four (b : Byte) (x : Nat) :
    packedIndex b 4 (x * 4) = if x % 2 = 0 then b.toNat / 16 else b.toNat % 16 := by
  have hb := b.isLt
  rcases Nat.mod_two_eq_zero_or_one x with hx | hx
  · have hbit : 8 - 4 - x * 4 % 8 = 4 := by omega
    rw [packedIndex, hbit, if_pos hx]
    omega
  · have hbit : 8 - 4 - x * 4 % 8 = 0 := by omega
    rw [packedIndex, hbit, if_neg (by omega)]
    omega

/-- `PAL1` at one bit: white for 0, black for 1. -/
theorem pal1_getD_toNat (c : Bool) (d : Pixel) : pal1.getD c.toNat d = if c then 0x0000 else 0xFFFF := by
  cases c <;> rfl

theorem State.indexedPixel_pal1 (s : State) : s.indexedPixel pal1 1 =
    if (s.src (s.pixelByte 1)).getLsbD (7 - s.x % 8) then 0x0000 else 0xFFFF := by
  rw [State.indexedPixel, State.pixelBit, packedIndex_one, pal1_getD_toNat]

theorem State.indexedPixel_pal2 (s : State) : s.indexedPixel pal2 2 =
    pal2.getD ((s.src (s.pixelByte 2)).toNat / 2 ^ (6 - 2 * (s.x % 4)) % 4) background := by
  rw [State.indexedPixel, State.pixelBit, packedIndex_two]

theorem State.indexedPixel_pal4 (s : State) : s.indexedPixel pal4 4 =
    pal4.getD (if s.x % 2 = 0 then (s.src (s.pixelByte 4)).toNat / 16 else (s.src (s.pixelByte 4)).toNat % 16)
      background := by
  rw [State.indexedPixel, State.pixelBit, packedIndex_four]

/-- `R332(P)` places each channel as a product with the weight of its field's top bits (43_convert.md R161). -/
theorem toNat_r332 (p : Byte) :
    (r332 p).toNat = p.toNat / 32 * 2 ^ 13 + p.toNat / 4 % 8 * 2 ^ 8 + p.toNat % 4 * 2 ^ 3 := by
  have hp := p.isLt
  have hzero (n : Nat) : (0 : BitVec n).toNat = 0 := BitVec.toNat_zero
  simp only [r332, toNat_append_add, BitVec.extractLsb'_toNat, Nat.shiftRight_eq_div_pow, hzero]
  omega

/-! ### The skip rule (43_convert.md R166) -/

theorem State.pixelSkipped_iff (s : State) (bpp : Nat) : s.pixelSkipped bpp = true ↔
    s.stride ≤ s.x ∨ s.srcLen ≤ s.pixelByte bpp ∨ bpp = 16 ∧ s.srcLen ≤ s.pixelByte bpp + 1 := by
  rw [State.pixelSkipped, Bool.or_eq_true, decide_eq_true_eq]
  by_cases hb : bpp = 16
  · rw [if_pos hb, decide_eq_true_eq]
    omega
  · rw [if_neg hb, decide_eq_true_eq]
    omega

theorem State.pixelSupplied_iff (s : State) (bpp : Nat) : s.pixelSkipped bpp = false ↔
    s.x < s.stride ∧ s.pixelByte bpp < s.srcLen ∧ (bpp = 16 → s.pixelByte bpp + 1 < s.srcLen) := by
  rw [← Bool.not_eq_true, State.pixelSkipped_iff]
  omega

/-- A pixel of at most 8 bits is supplied with its byte. -/
theorem State.pixelSupplied_of_lt {s : State} {bpp : Nat} (hb : bpp ≠ 16) (hx : s.x < s.stride)
    (hi : s.pixelByte bpp < s.srcLen) : s.pixelSkipped bpp = false :=
  (s.pixelSupplied_iff bpp).2 ⟨hx, hi, fun h => absurd h hb⟩

/-- A skipped pixel of the raster is the background (43_convert.md R162). -/
theorem State.pixelAt_skipped {s : State} (h : s.pixelSkipped s.bpp = true) : s.pixelAt s.x s.y = background := by
  rw [State.pixelSkipped_iff, State.pixelByte, State.rowBytes, State.pixelBit] at h
  by_cases hx : s.stride ≤ s.x
  · exact if_pos hx
  refine (if_neg hx).trans ?_
  by_cases hb : s.bpp = 16
  · exact (if_pos hb).trans (if_pos (by omega))
  · exact (if_neg hb).trans (if_pos (by omega))

/-! ### The formats -/

/-- The value the format of a legal depth gives a pixel the source supplies. -/
def State.pixelValue (s : State) (bpp : Nat) : Pixel :=
  if bpp = 16 then s.src (s.pixelByte 16) ++ s.src (s.pixelByte 16 + 1)
  else if bpp = 8 then r332 (s.src (s.pixelByte 8))
  else if bpp = 4 then s.indexedPixel pal4 4
  else if bpp = 2 then s.indexedPixel pal2 2
  else s.indexedPixel pal1 1

/-- The places of a pair of bits as powers of four. -/
theorem two_pow_six_sub (k : Nat) : 2 ^ (6 - 2 * k) = 4 ^ (3 - k) := by
  have hexp : 6 - 2 * k = 2 * (3 - k) := by omega
  rw [hexp]
  exact pow_mul 2 2 (3 - k)

/-- A supplied pixel of the raster has the value of its format. -/
theorem State.pixelAt_supplied {s : State} (hl : bppLegal s.bpp = true) (hk : s.pixelSkipped s.bpp = false) :
    s.pixelAt s.x s.y = s.pixelValue s.bpp := by
  obtain ⟨hx, hi, hi'⟩ := (s.pixelSupplied_iff _).1 hk
  rw [State.pixelByte, State.rowBytes, State.pixelBit] at hi hi'
  simp only [State.pixelAt, if_neg (Nat.not_le.2 hx), if_neg (Nat.not_le.2 hi)]
  simp only [bppLegal_iff, List.mem_cons, List.not_mem_nil, or_false] at hl
  rcases hl with hb | hb | hb | hb | hb
  · rw [hb]
    exact s.indexedPixel_pal1.symm
  · rw [hb, ← two_pow_six_sub]
    exact s.indexedPixel_pal2.symm
  · rw [hb]
    exact s.indexedPixel_pal4.symm
  · rw [hb]
    rfl
  · rw [if_neg (Nat.not_le.2 (hi' hb)), hb]
    rfl

theorem State.pixelAt_eq {s : State} (hl : bppLegal s.bpp = true) :
    s.pixelAt s.x s.y = if s.pixelSkipped s.bpp then background else s.pixelValue s.bpp := by
  cases hk : s.pixelSkipped s.bpp with
  | true => exact State.pixelAt_skipped hk
  | false => exact State.pixelAt_supplied hl hk

/-- Instruction `i` is the pixel format of depth `bpp`: GEOM1 selects it by that depth, and it is one pass of the loop
with the depth's value. -/
structure PixelFormat (i : Instr) (bpp : Nat) : Prop where
  fetched : ∀ s : State, s.bpp = bpp → s.fetchPixel = .run i s
  converts : ∀ s, exec i s = s.convertPixel bpp (s.pixelValue bpp)

/-- A pixel's fetch goes by the BPP field alone (30_encoding.md R80). -/
theorem State.fetchPixel_of_bpp {s : State} {i : Instr} (b : BitVec 5) (hb : s.bpp = b.toNat)
    (h : ∀ width : BitVec 16, decodeGeom1 ((0 : BitVec 11) ++ b ++ width) = .ok i) : s.fetchPixel = .run i s := by
  have hb : s.win.bpp = b := BitVec.eq_of_toNat_eq hb
  rw [State.fetchPixel, State.geom1Word, hb, h]

theorem convBpp1_pixelFormat : PixelFormat .convBpp1 1 :=
  ⟨fun _ hb => State.fetchPixel_of_bpp 1 hb (decodeGeom1_word 1), fun _ => rfl⟩

theorem convBpp2_pixelFormat : PixelFormat .convBpp2 2 :=
  ⟨fun _ hb => State.fetchPixel_of_bpp 2 hb (decodeGeom1_word 2), fun _ => rfl⟩

theorem convBpp4_pixelFormat : PixelFormat .convBpp4 4 :=
  ⟨fun _ hb => State.fetchPixel_of_bpp 4 hb (decodeGeom1_word 4), fun _ => rfl⟩

theorem convBpp8_pixelFormat : PixelFormat .convBpp8 8 :=
  ⟨fun _ hb => State.fetchPixel_of_bpp 8 hb (decodeGeom1_word 8), fun _ => rfl⟩

theorem convBpp16_pixelFormat : PixelFormat .convBpp16 16 :=
  ⟨fun _ hb => State.fetchPixel_of_bpp 16 hb (decodeGeom1_word 16), fun _ => rfl⟩

theorem pixelFormat_of_mem {i : Instr} {bpp : Nat} (h : (i, bpp) ∈ [(Instr.convBpp1, 1), (Instr.convBpp2, 2),
    (Instr.convBpp4, 4), (Instr.convBpp8, 8), (Instr.convBpp16, 16)]) : PixelFormat i bpp := by
  simp only [List.mem_cons, List.not_mem_nil, or_false, Prod.mk.injEq] at h
  obtain ⟨rfl, rfl⟩ | ⟨rfl, rfl⟩ | ⟨rfl, rfl⟩ | ⟨rfl, rfl⟩ | ⟨rfl, rfl⟩ := h
  · exact convBpp1_pixelFormat
  · exact convBpp2_pixelFormat
  · exact convBpp4_pixelFormat
  · exact convBpp8_pixelFormat
  · exact convBpp16_pixelFormat

/-- Every legal depth has its format. -/
theorem exists_pixelFormat {bpp : Nat} (h : bppLegal bpp = true) : ∃ i, PixelFormat i bpp := by
  simp only [bppLegal_iff, List.mem_cons, List.not_mem_nil, or_false] at h
  rcases h with rfl | rfl | rfl | rfl | rfl
  · exact ⟨_, convBpp1_pixelFormat⟩
  · exact ⟨_, convBpp2_pixelFormat⟩
  · exact ⟨_, convBpp4_pixelFormat⟩
  · exact ⟨_, convBpp8_pixelFormat⟩
  · exact ⟨_, convBpp16_pixelFormat⟩

/-! ### One pass of the loop (43_convert.md R163, R165) -/

/-- The place of a pixel of the raster in row-major order. -/
theorem rowMajor_lt {w h x y : Nat} (hx : x < w) (hy : y < h) : y * w + x < w * h := by
  have hrow : (y + 1) * w ≤ w * h := (Nat.mul_le_mul_right _ hy).trans_eq (Nat.mul_comm _ _)
  rw [Nat.add_mul] at hrow
  omega

theorem State.AtPixel.holds {s : State} (h : s.AtPixel) : s.dstHolds s.rasterIndex 2 = true := by
  obtain ⟨-, -, hdst, hx, hy, hcap⟩ := h
  have hlt := rowMajor_lt hx hy
  refine State.dstHolds_of_le hdst ?_
  rw [State.rasterIndex]
  omega

/-- The loop moves on in row-major order, inside the 16 bits of its coordinates. -/
theorem State.place_of_nextPixel {s t : State} (hy : s.y < s.height) (h : t.job = s.nextPixel) :
    (if s.x + 1 < s.width then t.x = s.x + 1 ∧ t.y = s.y else t.x = 0 ∧ t.y = s.y + 1) ∧
      t.job = { s.job with x := t.job.x, y := t.job.y } := by
  have hw := s.win.width.isLt
  have hh := s.win.height.isLt
  by_cases hlt : s.x + 1 < s.width
  · have hj : t.job = { s.job with x := BitVec.ofNat 16 (s.x + 1) } := h.trans (if_pos hlt)
    rw [if_pos hlt, State.x.eq_def t, State.y.eq_def t, hj]
    exact ⟨⟨(BitVec.toNat_ofNat _ _).trans (Nat.mod_eq_of_lt (hlt.trans hw)), rfl⟩, rfl⟩
  · have hj : t.job = { s.job with x := 0, y := BitVec.ofNat 16 (s.y + 1) } := h.trans (if_neg hlt)
    rw [if_neg hlt, State.x.eq_def t, State.y.eq_def t, hj]
    exact ⟨⟨rfl, (BitVec.toNat_ofNat _ _).trans (Nat.mod_eq_of_lt (Nat.lt_of_le_of_lt hy hh))⟩, rfl⟩

/-- A stored pixel stands high byte first at its raster index. -/
theorem Stored.pixel_bytes {s t : State} {n : Nat} {v : Pixel} (h : Stored s t n 2 (pixelHalf v)) :
    t.dst n = v.extractLsb' 8 8 ∧ t.dst (n + 1) = v.extractLsb' 0 8 :=
  ⟨h.bytes 0 Nat.two_pos, h.bytes 1 Nat.one_lt_two⟩

theorem pixelWritten_of_stored {s t : State} {v : Pixel} (hy : s.y < s.height)
    (h : Stored s t s.rasterIndex 2 (pixelHalf v)) (hj : t.job = s.nextPixel) : PixelWritten s t v := by
  obtain ⟨hhigh, hlow⟩ := h.pixel_bytes
  obtain ⟨hplace, hjob⟩ := State.place_of_nextPixel hy hj
  exact ⟨hhigh, hlow, h.outside, hplace, hjob, h.block⟩

section
variable {i : Instr} {bpp : Nat} {s : State} (hf : PixelFormat i bpp) (h : s.AtPixel)
include hf h

/-- A format stores its value, or the background for a skipped pixel, and moves on. -/
theorem PixelFormat.exec_next : ∃ t, exec i s = .next t ∧
    Stored s t s.rasterIndex 2 (pixelHalf (if s.pixelSkipped bpp then background else s.pixelValue bpp)) ∧
      t.job = s.nextPixel := by
  have hroom := h.holds
  obtain ⟨hwf, hsrc, -⟩ := h
  rw [hf.converts]
  exact State.convertPixel_next hwf hsrc hroom

theorem PixelFormat.exec_pixelWritten : ∃ t, exec i s = .next t ∧
    PixelWritten s t (if s.pixelSkipped bpp then background else s.pixelValue bpp) := by
  obtain ⟨t, hexec, hstored, hjob⟩ := hf.exec_next h
  obtain ⟨-, -, -, -, hy, -⟩ := h
  exact ⟨t, hexec, pixelWritten_of_stored hy hstored hjob⟩

theorem PixelFormat.exec_supplied (hk : s.pixelSkipped bpp = false) :
    ∃ t, exec i s = .next t ∧ PixelWritten s t (s.pixelValue bpp) := by
  simpa only [hk, Bool.false_eq_true, if_false] using hf.exec_pixelWritten h

theorem PixelFormat.exec_skipped (hk : s.pixelSkipped bpp = true) :
    ∃ t, exec i s = .next t ∧ PixelWritten s t background := by
  simpa only [hk, if_true] using hf.exec_pixelWritten h

end

/-! ### The obligations -/

/-- Settles O14: the value is that of the pixel's bit (`State.indexedPixel_pal1`), and one pass writes it
(`PixelFormat.exec_supplied`). -/
theorem oneBitPixelsAreWhiteOrBlack : Obligations.OneBitPixelsAreWhiteOrBlack := by
  intro s h hx hi
  have hbyte : s.pixelByte 1 = s.y * (s.stride / 8) + s.x / 8 := by
    rw [State.pixelByte, State.rowBytes, State.pixelBit, Nat.mul_one, Nat.mul_one]
  rw [← hbyte] at hi ⊢
  rw [← State.indexedPixel_pal1]
  exact convBpp1_pixelFormat.exec_supplied h (State.pixelSupplied_of_lt (by decide) hx hi)

/-- The entry of a palette that an index below its length selects. -/
theorem getElem?_eq_some_getD {palette : List Pixel} {n : Nat} (h : n < palette.length) (d : Pixel) :
    palette[n]? = some (palette.getD n d) := by
  rw [List.getElem?_eq_getElem h, List.getD_eq_getElem _ _ h]

/-- Settles O15: the value is the palette's entry for the pixel's two bits (`State.indexedPixel_pal2`). -/
theorem twoBitPixelsAreGreys : Obligations.TwoBitPixelsAreGreys := by
  intro s h hx hi
  obtain ⟨t, hexec, hwritten⟩ :=
    convBpp2_pixelFormat.exec_supplied h (State.pixelSupplied_of_lt (by decide) hx hi)
  exact ⟨t, _, hexec, hwritten, (getElem?_eq_some_getD (palette := pal2) (Nat.mod_lt _ (by decide)) background).trans
    (congrArg some s.indexedPixel_pal2.symm)⟩

/-- Settles O16: the value is the palette's entry for the pixel's nibble (`State.indexedPixel_pal4`). -/
theorem fourBitPixelsAreEgaColours : Obligations.FourBitPixelsAreEgaColours := by
  intro s h hx hi
  obtain ⟨t, hexec, hwritten⟩ :=
    convBpp4_pixelFormat.exec_supplied h (State.pixelSupplied_of_lt (by decide) hx hi)
  have hbyte := (s.src (s.pixelByte 4)).isLt
  have hindex : (if s.x % 2 = 0 then (s.src (s.pixelByte 4)).toNat / 16 else (s.src (s.pixelByte 4)).toNat % 16) <
      pal4.length := by
    change _ < 16
    split <;> omega
  exact ⟨t, _, hexec, hwritten,
    (getElem?_eq_some_getD hindex background).trans (congrArg some s.indexedPixel_pal4.symm)⟩

/-- Settles O17: the value is `R332` of the pixel's byte, by placement (`toNat_r332`). -/
theorem byteColourPixelsExpandByPlacement : Obligations.ByteColourPixelsExpandByPlacement := by
  intro s h hx hi
  have hbyte : s.pixelByte 8 = s.y * s.stride + s.x := by
    rw [State.pixelByte, State.rowBytes, State.pixelBit, Nat.mul_div_cancel _ (by decide),
      Nat.mul_div_cancel _ (by decide)]
  rw [← hbyte] at hi ⊢
  obtain ⟨t, hexec, hwritten⟩ :=
    convBpp8_pixelFormat.exec_supplied h (State.pixelSupplied_of_lt (by decide) hx hi)
  exact ⟨t, _, hexec, hwritten, toNat_r332 _⟩

/-- Settles O18: the value is the pixel's two bytes, the first the high one, and the raster holds the high byte
first. -/
theorem directColourPixelsAreCopied : Obligations.DirectColourPixelsAreCopied := by
  intro s h hx hi
  have hbyte : s.pixelByte 16 = s.y * (2 * s.stride) + 2 * s.x := by
    have hrow : s.stride * 16 / 8 = 2 * s.stride := by omega
    have hcol : s.x * 16 / 8 = 2 * s.x := by omega
    rw [State.pixelByte, State.rowBytes, State.pixelBit, hrow, hcol]
  rw [← hbyte] at hi ⊢
  obtain ⟨t, hexec, hwritten⟩ := convBpp16_pixelFormat.exec_supplied h
    ((s.pixelSupplied_iff 16).2 ⟨hx, Nat.lt_of_succ_lt hi, fun _ => hi⟩)
  have ⟨hhigh, hlow, _⟩ := hwritten
  exact ⟨t, _, hexec, hwritten, hhigh.trans BitVec.extractLsb'_append_eq_left,
    hlow.trans BitVec.extractLsb'_append_eq_right⟩

/-- Settles O19: the three causes are the skip rule (`State.pixelSkipped_iff`), and one pass writes the background
(`PixelFormat.exec_skipped`). -/
theorem skippedPixelsAreBackground : Obligations.SkippedPixelsAreBackground :=
  fun s _ bpp hi h hcause => (pixelFormat_of_mem hi).exec_skipped h ((s.pixelSkipped_iff bpp).2 hcause)

end Sys2Proof.Machine
end

section
/-! A whole CONVERT job (43_convert.md R163, R165): pixel by pixel in row-major order each is written once, until the
raster is full, and then the job completes. -/

namespace Sys2Proof.Machine

/-! ### The fetch and the completion of a CONVERT job -/

section
variable {s : State} (h : s.AtLoop 4) (hs : s.srcInSpace = true)
include h hs

theorem State.fetch_convert (hx : s.x < s.width) (hy : s.y < s.height) : s.fetch = s.fetchPixel := by
  obtain ⟨hp, -, hop⟩ := h
  rw [State.fetch_running hp]
  simp [State.fetchRunning, State.moreToDo, hs, hop, hx, hy]

/-- Past the last pixel of the raster there is none left to fetch. -/
theorem State.fetch_convert_full (hfull : s.y < s.height → s.width ≤ s.x) :
    s.fetch = .ended .noError .headerRead s := by
  obtain ⟨hp, -, hop⟩ := h
  have hmore : s.moreToDo = false := by simpa [State.moreToDo, hop] using hfull
  rw [State.fetch_running hp]
  simp [State.fetchRunning, hs, hmore]

end

/-- A CONVERT job reports the bytes it has written, and no cursor and no header fields (40_jobs.md R94). -/
theorem State.complete_convert {s : State} (h : s.op = 4) (e : ErrCode) : s.complete e .headerRead =
    { s with win := s.reported e 0 (BitVec.ofNat 32 s.written) 0 0, phase := .idle } := by
  simp only [State.op] at h
  simp [State.complete, State.reported, h]

/-- The pixels of a raster are a function of the registers and the source bytes. -/
theorem State.pixelAt_congr {s t : State} (hwin : t.win = s.win) (hsrc : ∀ i, i < s.srcLen → t.src i = s.src i)
    (x y : Nat) : t.pixelAt x y = s.pixelAt x y := by
  simp only [State.pixelAt, State.stride, State.bpp, State.srcLen, hwin]
  refine ite_congr rfl (fun _ => rfl) fun _ => ite_congr rfl (fun _ => ?_) fun _ => ?_
  · refine ite_congr rfl (fun _ => rfl) fun hi => ?_
    rw [hsrc _ (Nat.lt_of_succ_lt (Nat.not_le.1 hi)), hsrc _ (Nat.not_le.1 hi)]
  · refine ite_congr rfl (fun _ => rfl) fun hi => ?_
    rw [hsrc _ (Nat.not_le.1 hi)]

/-! ### The job between two pixels -/

/-- A good running CONVERT job: canonical memory, its two ranges in the address space and apart (40_jobs.md R91), a
legal depth and room for the raster (R93). -/
structure ConvertRunning (s : State) : Prop where
  loop : s.AtLoop 4
  wf : s.mem.wf = true
  srcInSpace : s.srcInSpace = true
  dstInSpace : s.dstInSpace = true
  apart : rangesMeet s.srcAddr s.srcLen s.dstAddr s.dstLen = false
  bpp : bppLegal s.bpp = true
  capacity : s.width * s.height * 2 ≤ s.dstLen

theorem ConvertRunning.of_inv {s : State} (hinv : s.Inv) (hloop : s.AtLoop 4) : ConvertRunning s := by
  obtain ⟨hwf, -, -, -, -, hrun⟩ := hinv
  have ⟨hphase, _, hop⟩ := hloop
  obtain ⟨hchecks, -, -, -, -, -, hconvert⟩ := hrun hphase
  simp only [State.startCheckFails, Bool.or_eq_false_iff, Bool.not_eq_false'] at hchecks
  obtain ⟨⟨⟨-, hsrc⟩, hdst⟩, hapart⟩ := hchecks
  obtain ⟨hbpp, -, hcap, -⟩ := hconvert hop
  exact ⟨hloop, hwf, hsrc, hdst, hapart, hbpp, hcap⟩

/-- A store leaves the job good. -/
theorem ConvertRunning.stored {s t : State} {i n : Nat} {f : Nat → Byte} (h : ConvertRunning s)
    (st : Stored s t i n f) : ConvertRunning t := by
  obtain ⟨hwin, hphase, -, -, hinbox, -⟩ := st.block
  obtain ⟨⟨hrunning, hempty, hop⟩, -, hsrc, hdst, hapart, hbpp, hcap⟩ := h
  have hsrc' : t.srcInSpace = true := by rwa [State.srcInSpace, State.srcAddr, State.srcLen, hwin]
  have hdst' : t.dstInSpace = true := by rwa [State.dstInSpace, State.dstAddr, State.dstLen, hwin]
  have hloop : t.AtLoop 4 := ⟨hphase.trans hrunning, hinbox.trans hempty, by rwa [State.op, hwin]⟩
  exact ⟨hloop, st.wf, hsrc', hdst', by simpa [hwin] using hapart, by rwa [State.bpp, hwin],
    by simpa [hwin] using hcap⟩

/-- The engine's move at a pixel of the raster writes it and moves on. -/
theorem ConvertRunning.step_pixel {s : State} (h : ConvertRunning s) (hat : s.AtPixel) :
    ∃ t, step s = .next t ∧ Stored s t s.rasterIndex 2 (pixelHalf (s.pixelAt s.x s.y)) ∧ t.job = s.nextPixel := by
  have ⟨_, _, _, hx, hy, _⟩ := hat
  obtain ⟨i, hf⟩ := exists_pixelFormat h.bpp
  have hfetch := (State.fetch_convert h.loop h.srcInSpace hx hy).trans (hf.fetched s rfl)
  obtain ⟨-, hinbox, -⟩ := h.loop
  rw [State.pixelAt_eq h.bpp, step_engine hinbox, engineMove_run hfetch]
  exact hf.exec_next hat

/-- Past the last pixel the job completes with code NONE, reporting SRC_POS 0 and the bytes written. -/
theorem ConvertRunning.step_full {s : State} (h : ConvertRunning s) (hfull : s.y < s.height → s.width ≤ s.x) :
    ∃ t, step s = .next t ∧ t.phase = .idle ∧ t.win = s.reported .noError 0 (BitVec.ofNat 32 s.rasterIndex) 0 0 ∧
      t.mem = s.mem ∧ ∀ i, t.dst i = s.dst i := by
  have hfetch := State.fetch_convert_full h.loop h.srcInSpace hfull
  obtain ⟨-, hinbox, hop⟩ := h.loop
  have hstep := (step_engine hinbox).trans (engineMove_ended hfetch)
  rw [State.complete_convert hop, State.written_pixels hop] at hstep
  exact ⟨_, hstep, rfl, rfl, rfl, fun _ => rfl⟩

/-! ### Row-major order -/

/-- A place in a row and its row are known by the place in the raster. -/
theorem rowMajor_inj {w x y x' y' : Nat} (hx : x < w) (hx' : x' < w) (h : y * w + x = y' * w + x') :
    x = x' ∧ y = y' := by
  have hxx : x = x' := by
    rw [← Nat.mul_add_mod_of_lt hx (a := y), h, Nat.mul_add_mod_of_lt hx']
  subst hxx
  exact ⟨rfl, Nat.eq_of_mul_eq_mul_right (Nat.zero_lt_of_lt hx) (Nat.add_right_cancel h)⟩

/-- The next pixel's place is one further on, at the start of its row or inside it. -/
theorem State.rowMajor_nextPixel {s t : State} (hat : s.AtPixel) (hj : t.job = s.nextPixel) :
    t.y * s.width + t.x = s.y * s.width + s.x + 1 ∧ (t.x < s.width ∨ t.x = 0) := by
  obtain ⟨-, -, -, hx, hy, -⟩ := hat
  obtain ⟨hplace, -⟩ := State.place_of_nextPixel hy hj
  split at hplace
  · obtain ⟨hx', hy'⟩ := hplace
    rw [hx', hy']
    omega
  · obtain ⟨hx', hy'⟩ := hplace
    rw [hx', hy', Nat.add_mul]
    omega

/-- The pixel (x, y) of the raster of `s` stands in `t`, high byte first. -/
abbrev PixelStands (s t : State) (x y : Nat) : Prop :=
  t.dst (2 * (y * s.width + x)) = (s.pixelAt x y).extractLsb' 8 8 ∧
    t.dst (2 * (y * s.width + x) + 1) = (s.pixelAt x y).extractLsb' 0 8

/-- The job `t` that `s` has become after its first `n` pixels: they stand in the destination, nothing else in memory
changed, and the source is as it was. -/
structure PixelsDone (s t : State) (n : Nat) : Prop where
  running : ConvertRunning t
  win : t.win = s.win
  place : t.y * s.width + t.x = n
  column : t.x < s.width ∨ t.x = 0
  src : ∀ i, i < s.srcLen → t.src i = s.src i
  outside : SameMemoryOutside s t s.dstAddr (2 * n)
  pixels : ∀ x y, x < s.width → y * s.width + x < n → PixelStands s t x y

theorem PixelsDone.start {s : State} (h : ConvertRunning s) (hx : s.x = 0) (hy : s.y = 0) : PixelsDone s s 0 :=
  ⟨h, rfl, by simp only [hx, hy, Nat.zero_mul], .inr hx, fun _ _ => rfl, fun _ _ => rfl,
    fun _ _ _ h => absurd h (Nat.not_lt_zero _)⟩

section
variable {s t : State} {n : Nat} (h : PixelsDone s t n)
include h

/-- With pixels left, the job is at one of them. -/
theorem PixelsDone.atPixel (hn : n < s.width * s.height) : t.AtPixel := by
  obtain ⟨⟨-, hwf, hsrc, hdst, -, -, hcap⟩, hwin, hplace, hcol, -⟩ := h
  have hw : 0 < s.width := Nat.pos_of_mul_pos_right (Nat.zero_lt_of_lt hn)
  have hx : t.x < s.width := by omega
  have hy : t.y < s.height := by
    refine Nat.lt_of_mul_lt_mul_right (a := s.width) ?_
    rw [Nat.mul_comm s.height]
    omega
  exact ⟨hwf, hsrc, hdst, by rwa [State.width, hwin], by rwa [State.height, hwin], hcap⟩

/-- One more pixel. -/
theorem PixelsDone.step_next (hn : n < s.width * s.height) : ∃ u, step t = .next u ∧ PixelsDone s u (n + 1) := by
  have hat := h.atPixel hn
  obtain ⟨hrun, hwin, rfl, -, hsrc, houtside, hpixels⟩ := h
  have hwidth : t.width = s.width := by rw [State.width, hwin]
  have hsrcLen : t.srcLen = s.srcLen := by rw [State.srcLen, hwin]
  have hdstAddr : t.dstAddr = s.dstAddr := by rw [State.dstAddr, hwin]
  obtain ⟨u, hstep, hstored, hjob⟩ := hrun.step_pixel hat
  obtain ⟨-, hroom⟩ := (State.dstHolds_iff _ _ _).1 hat.holds
  obtain ⟨hplace, hcol⟩ := State.rowMajor_nextPixel hat hjob
  obtain ⟨-, -, -, hx, -⟩ := hat
  have hlast := hstored.pixel_bytes
  rw [State.pixelAt_congr hwin hsrc] at hlast
  rw [State.rasterIndex, hwidth] at hstored hroom hlast
  rw [hwidth] at hplace hcol hx
  obtain ⟨hwin', -⟩ := hstored.block
  refine ⟨u, hstep, hrun.stored hstored, hwin'.trans hwin, hplace, hcol, fun i hi => ?_, fun b hb => ?_,
    fun x y hxw hxy => ?_⟩
  · exact (hstored.src_kept hrun.apart hroom (hsrcLen ▸ hi)).trans (hsrc i hi)
  · exact (hstored.outside b (by omega)).trans (houtside b (by omega))
  · rcases Nat.lt_succ_iff_lt_or_eq.1 hxy with hlt | heq
    · obtain ⟨hhigh, hlow⟩ := hpixels x y hxw hlt
      exact ⟨(hstored.dst_below (by omega)).trans hhigh, (hstored.dst_below (by omega)).trans hlow⟩
    · obtain ⟨rfl, rfl⟩ := rowMajor_inj hxw hx heq
      exact hlast

end

/-- The job `u` that `s` has become at its end: every pixel stands, no other byte changed, and the report is code NONE
with SRC_POS 0 and DST_POS the bytes of the raster. -/
structure RasterFilled (s u : State) : Prop where
  idle : u.phase = .idle
  win : u.win = s.reported .noError 0 (BitVec.ofNat 32 (2 * (s.width * s.height))) 0 0
  outside : SameMemoryOutside s u s.dstAddr (2 * (s.width * s.height))
  pixels : ∀ x y, x < s.width → y < s.height → PixelStands s u x y

theorem PixelsDone.finish {s t : State} (h : PixelsDone s t (s.width * s.height)) :
    ∃ u, step t = .next u ∧ RasterFilled s u := by
  obtain ⟨hrun, hwin, hplace, -, -, houtside, hpixels⟩ := h
  have hwidth : t.width = s.width := by rw [State.width, hwin]
  have hheight : t.height = s.height := by rw [State.height, hwin]
  have hfull (hy : t.y < t.height) : t.width ≤ t.x := by
    rw [hheight] at hy
    rw [hwidth, ← Nat.not_lt]
    exact fun hx => (rowMajor_lt hx hy).ne hplace
  obtain ⟨u, hstep, hidle, hwin', hmem, hdst⟩ := hrun.step_full hfull
  rw [State.rasterIndex, hwidth, hplace, State.reported, hwin] at hwin'
  refine ⟨u, hstep, hidle, hwin', fun b hb => ?_, fun x y hx hy => ?_⟩
  · rw [hmem]
    exact houtside b hb
  · rw [PixelStands, hdst, hdst]
    exact hpixels x y hx (rowMajor_lt hx hy)

/-- The rest of the job, `k` pixels and the completion. -/
theorem PixelsDone.run {s : State} (k : Nat) {t : State} {n : Nat} (h : PixelsDone s t n)
    (hn : n + k = s.width * s.height) : ∃ u, Host.Core.run core (k + 1) t = .next u ∧ RasterFilled s u := by
  induction k generalizing t n with
  | zero =>
    obtain rfl : n = s.width * s.height := hn
    obtain ⟨u, hstep, hu⟩ := h.finish
    exact ⟨u, run_next hstep, hu⟩
  | succ k ih =>
    obtain ⟨t', hstep, h'⟩ := h.step_next (by omega)
    rw [run_next hstep]
    exact ih h' (by omega)

/-- Settles O51: each engine move leaves one more pixel written (`PixelsDone.step_next`, by induction over those left in
`PixelsDone.run`), and the last one completes the job (`PixelsDone.finish`). -/
theorem convertJobFillsTheRaster : Obligations.ConvertJobFillsTheRaster := by
  intro s hinv h hx hy
  have hgood := ConvertRunning.of_inv hinv h
  obtain ⟨t, hrun, hidle, hwin, houtside, hpixels⟩ := (PixelsDone.start hgood hx hy).run _ (Nat.zero_add _)
  have hfits : s.width * s.height * 2 < 2 ^ 32 := Nat.lt_of_le_of_lt hgood.capacity s.win.dstLen.isLt
  rw [Nat.mul_assoc]
  refine ⟨t, hrun, hidle, hwin ▸ rfl, hwin ▸ rfl, ?_, houtside, hpixels⟩
  rw [hwin]
  exact (BitVec.toNat_ofNat _ _).trans (Nat.mod_eq_of_lt (Nat.mul_comm _ 2 ▸ hfits))

end Sys2Proof.Machine
end

section
/-! A running job left alone completes (40_jobs.md R99, 60_exceptions.md R198): what a good running job is, what it is
for an engine move to make progress on it, and why moves that make progress end the job. -/

namespace Sys2Proof.Machine

/-! ### Good running jobs -/

/-- A running job of the command `op`, left alone: canonical memory and both ranges in the address space (40_jobs.md
R91). -/
structure StreamRunning (op : Nat) (s : State) : Prop where
  loop : s.AtLoop op
  wf : s.mem.wf = true
  srcInSpace : s.srcInSpace = true
  dstInSpace : s.dstInSpace = true

/-- A running LZB job whose bit reader is within its bounds and whose output fits the destination (41_lzb.md R112). -/
structure LzbRunning (s : State) : Prop extends StreamRunning 1 s where
  widths : s.widths.legal = true
  capacity : s.osize ≤ s.dstLen
  pos : s.pos ≤ s.osize
  cursor : s.inPos ≤ s.srcLen
  bitcnt : s.job.bitcnt.toNat ≤ 32

/-- What a running job of each command needs for its loop to end. -/
inductive GoodJob (s : State) : Prop
  | lzb (h : LzbRunning s)
  | rle8 (h : StreamRunning 2 s) (hpos : s.pos ≤ s.dstLen)
  | rle16 (h : StreamRunning 3 s) (hpos : s.pos ≤ s.units)
  | convert (h : ConvertRunning s)

theorem StreamRunning.of_inv {op : Nat} {s : State} (hinv : s.Inv) (hloop : s.AtLoop op) : StreamRunning op s := by
  obtain ⟨hwf, -, -, -, -, hrun⟩ := hinv
  have ⟨hphase, _, _⟩ := hloop
  obtain ⟨hchecks, -⟩ := hrun hphase
  simp only [State.startCheckFails, Bool.or_eq_false_iff, Bool.not_eq_false'] at hchecks
  obtain ⟨⟨⟨-, hsrc⟩, hdst⟩, -⟩ := hchecks
  exact ⟨hloop, hwf, hsrc, hdst⟩

theorem GoodJob.of_inv {s : State} (hinv : s.Inv) (hp : s.phase = .running) (hi : s.inbox = []) : GoodJob s := by
  have ⟨_, _, _, _, _, hrun⟩ := hinv
  obtain ⟨hchecks, -, -, hlzb, hrle8, hrle16, -⟩ := hrun hp
  have hop : s.op ∈ [1, 2, 3, 4] := Decidable.by_contra fun hreserved =>
    Bool.false_ne_true (hchecks.symm.trans (State.startCheckFails_reserved hreserved))
  simp only [List.mem_cons, List.not_mem_nil, or_false] at hop
  rcases hop with hop | hop | hop | hop
  · obtain ⟨hwidths, hcap, hpos, -, hcursor, hcnt⟩ := hlzb hop
    exact .lzb ⟨.of_inv hinv ⟨hp, hi, hop⟩, hwidths, hcap, hpos, hcursor, hcnt⟩
  · obtain ⟨-, hpos⟩ := hrle8 hop
    exact .rle8 (.of_inv hinv ⟨hp, hi, hop⟩) hpos
  · obtain ⟨-, -, hpos⟩ := hrle16 hop
    exact .rle16 (.of_inv hinv ⟨hp, hi, hop⟩) hpos
  · exact .convert (.of_inv hinv ⟨hp, hi, hop⟩)

/-- The internal job state is no part of it. -/
theorem StreamRunning.withJob {op : Nat} {s : State} (h : StreamRunning op s) (j : Job) :
    StreamRunning op (s.withJob j) := ⟨h.loop, h.wf, h.srcInSpace, h.dstInSpace⟩

theorem StreamRunning.stored {op : Nat} {s t : State} {i n : Nat} {f : Nat → Byte} (h : StreamRunning op s)
    (st : Stored s t i n f) : StreamRunning op t := by
  obtain ⟨hwin, hphase, -, -, hinbox, -⟩ := st.block
  obtain ⟨⟨hrunning, hempty, hop⟩, -, hsrc, hdst⟩ := h
  have hsrc' : t.srcInSpace = true := by rwa [State.srcInSpace, State.srcAddr, State.srcLen, hwin]
  have hdst' : t.dstInSpace = true := by rwa [State.dstInSpace, State.dstAddr, State.dstLen, hwin]
  exact ⟨⟨hphase.trans hrunning, hinbox.trans hempty, by rwa [State.op, hwin]⟩, st.wf, hsrc', hdst'⟩

/-! ### Progress -/

/-- The job has ended and the host can see that it has (40_jobs.md R94). -/
abbrev State.Completed (t : State) : Prop := t.phase = .idle ∧ t.win.done = true

/-- The next move completes the job, or leaves a good one with less work. -/
def MakesProgress (s : State) : Prop :=
  ∃ t, step s = .next t ∧ (t.Completed ∨ GoodJob t ∧ t.workLeft < s.workLeft)

/-- The token `i`, its fields fetched, completes the job, or leaves a good one with the work that the fetch left. -/
def TokenGoesOn (i : Instr) (s : State) : Prop :=
  ∃ t, exec i s = .next t ∧ (t.Completed ∨ GoodJob t ∧ t.workLeft = s.workLeft)

theorem MakesProgress.of_ended {s s' : State} {e : ErrCode} {p : Progress} (hi : s.inbox = [])
    (hf : s.fetch = .ended e p s') : MakesProgress s :=
  ⟨_, (step_engine hi).trans (engineMove_ended hf), .inl ⟨rfl, rfl⟩⟩

/-- A token that took part of the stream made progress. -/
theorem MakesProgress.of_token {s s' : State} {i : Instr} (hi : s.inbox = []) (hf : s.fetch = .run i s')
    (hlt : s'.workLeft < s.workLeft) (htoken : TokenGoesOn i s') : MakesProgress s := by
  obtain ⟨t, hexec, hcases⟩ := htoken
  exact ⟨t, ((step_engine hi).trans (engineMove_run hf)).trans hexec,
    hcases.imp_right fun ⟨hgood, hwork⟩ => ⟨hgood, hwork.trans_lt hlt⟩⟩

theorem State.workLeft_lzb {s : State} (h : s.op = 1) : s.workLeft = s.streamBits.length := if_pos h

theorem State.workLeft_rle {s : State} (h : s.op = 2 ∨ s.op = 3) : s.workLeft = s.srcLen - s.inPos :=
  (if_neg (by omega)).trans (if_pos h)

theorem State.workLeft_convert {s : State} (h : s.op = 4) :
    s.workLeft = s.height * s.width - (s.y * s.width + s.x) := (if_neg (by omega)).trans (if_neg (by omega))

end Sys2Proof.Machine
end

section
/-! Progress of a running LZB job: each request takes its bits off the stream, so a token that the source holds whole
leaves fewer of them, and any other ends the job (41_lzb.md R110, R113 to R116). -/

namespace Sys2Proof.Machine

/-! ### The requests of a token -/

/-- The job `s'` that `s` has become by taking `n` bits off its stream, the bit reader alone moved. -/
structure BitsTaken (s : State) (n : Nat) (s' : State) : Prop where
  running : LzbRunning s'
  moved : ReaderMoved s s'
  left : s'.streamBits.length + n = s.streamBits.length

theorem BitsTaken.trans {s s' s'' : State} {n m : Nat} (h : BitsTaken s n s') (h' : BitsTaken s' m s'') :
    BitsTaken s (n + m) s'' :=
  ⟨h'.running, h.moved.trans h'.moved, by rw [← h.left, ← h'.left]; omega⟩

theorem State.fetchLzb_controlCut {s : State} (hw : s.widths.legal = true) (h1 : s.takeBits 1 = none) :
    s.fetchLzb = .ended .truncatedStream .headerRead s := by
  simp [State.fetchLzb, hw, h1]

/-- A job whose output is complete has no token left to fetch. -/
theorem State.fetch_lzb_full {s : State} (h : s.AtLoop 1) (hs : s.srcInSpace = true) (hpos : s.osize ≤ s.pos) :
    s.fetch = .ended .noError .headerRead s := by
  obtain ⟨hp, -, hop⟩ := h
  rw [State.fetch_running hp]
  simp [State.fetchRunning, State.moreToDo, hs, hop, hpos]

section
variable {s : State} (h : LzbRunning s)
include h

/-- A request fails, or the job goes on with that many bits fewer. -/
theorem LzbRunning.takeBits {n : Nat} (hn : n ≤ 32) :
    s.takeBits n = none ∨ ∃ v s', s.takeBits n = some (v, s') ∧ BitsTaken s n s' := by
  rcases Nat.lt_or_ge s.streamBits.length n with hlen | hlen
  · exact .inl (State.takeBits_short hn hlen)
  obtain ⟨v, s', htake, -, hstream, ⟨p, b, c, rfl⟩, hcnt, hcursor⟩ :=
    State.takeBits_delivers hn h.bitcnt h.cursor hlen
  refine .inr ⟨v, _, htake, ⟨h.withJob _, h.widths, h.capacity, h.pos, hcursor, hcnt⟩, ⟨p, b, c, rfl⟩, ?_⟩
  rw [hstream, List.length_drop, Nat.sub_add_cancel hlen]

/-- The fetch of a token ends the job, or finds the token with its bits, at least one, gone from the stream. -/
theorem LzbRunning.fetchLzb : (∃ s', s.fetchLzb = .ended .truncatedStream .headerRead s') ∨
    ∃ i s' n, s.fetchLzb = .run i s' ∧ BitsTaken s (1 + n) s' ∧ ((∃ l, i = .lit l) ∨ ∃ o m, i = .ref o m) := by
  have hw := h.widths
  obtain ⟨⟨-, ho⟩, -, hm⟩ := (Widths.legal_iff _).1 hw
  obtain h1 | ⟨c, s1, h1, b1⟩ := h.takeBits (n := 1) (by decide)
  · exact .inl ⟨_, State.fetchLzb_controlCut hw h1⟩
  have hc : c < 2 := State.takeBits_lt (by decide) h1
  obtain rfl | rfl : c = 1 ∨ c = 0 := by omega
  · obtain h2 | ⟨l, s2, h2, b2⟩ := b1.running.takeBits (n := 8) (by decide)
    · exact .inl ⟨_, State.fetchLzb_litCut hw h1 h2⟩
    · exact .inr ⟨_, _, _, State.fetchLzb_lit hw h1 h2, b1.trans b2, .inl ⟨_, rfl⟩⟩
  · obtain h2 | ⟨o, s2, h2, b2⟩ := b1.running.takeBits ho
    · exact .inl ⟨_, State.fetchLzb_offsetCut hw h1 h2⟩
    obtain h3 | ⟨m, s3, h3, b3⟩ := b2.running.takeBits hm
    · exact .inl ⟨_, State.fetchLzb_lengthCut hw h1 h2 h3⟩
    · exact .inr ⟨_, _, _, State.fetchLzb_ref hw h1 h2 h3, b1.trans (b2.trans b3), .inr ⟨_, _, rfl⟩⟩

/-! ### The effect of a token -/

/-- A store that moves the position on within the output leaves the job good and its stream as long as it was. -/
theorem LzbRunning.stored {t : State} {n : Nat} {f : Nat → Byte} (st : Stored s t s.pos n f)
    (hj : t.job = { s.job with pos := BitVec.ofNat 32 (s.pos + n) }) (hn : s.pos + n ≤ s.osize) :
    LzbRunning t ∧ t.workLeft = s.workLeft := by
  obtain ⟨hwin, -⟩ := st.block
  obtain ⟨hpos, hjob⟩ := pos_of_job hj (hn.trans h.capacity)
  have hosize : t.osize = s.osize := by rw [State.osize, hjob]
  have hdstLen : t.dstLen = s.dstLen := by rw [State.dstLen, hwin]
  have hinPos : t.inPos = s.inPos := by rw [State.inPos, hjob]
  have hsrcLen : t.srcLen = s.srcLen := by rw [State.srcLen, hwin]
  have hbitcnt : t.job.bitcnt = s.job.bitcnt := by rw [hjob]
  have hwidths : t.widths = s.widths := by rw [State.widths, hjob]; rfl
  obtain ⟨hrun, hw, hcap, -, hcursor, hcnt⟩ := h
  have hrun' := hrun.stored st
  obtain ⟨-, -, hop⟩ := hrun.loop
  obtain ⟨-, -, hop'⟩ := hrun'.loop
  refine ⟨⟨hrun', hwidths ▸ hw, ?_, ?_, ?_, hbitcnt ▸ hcnt⟩, ?_⟩
  · rwa [hosize, hdstLen]
  · rwa [hpos, hosize]
  · rwa [hinPos, hsrcLen]
  · rw [State.workLeft_lzb hop', State.workLeft_lzb hop, State.length_streamBits, State.length_streamBits, hbitcnt,
      hsrcLen, hinPos]

theorem LzbRunning.lit_goesOn (hpos : s.pos < s.osize) (l : Byte) : TokenGoesOn (.lit l) s := by
  obtain ⟨t, hexec, hstored, hjob⟩ :=
    execLit_next (l := l) h.wf (State.dstHolds_of_le h.dstInSpace (Nat.lt_of_lt_of_le hpos h.capacity))
  exact ⟨t, hexec, .inr ((h.stored hstored hjob hpos).imp_left .lzb)⟩

/-- A back-reference that reaches before the output ends the job; any other is copied, cut at the end of the output. -/
theorem LzbRunning.ref_goesOn (o m : Word) : TokenGoesOn (.ref o m) s := by
  by_cases hvalid : o = 0 ∨ s.pos < o.toNat
  · exact ⟨_, execRef_invalid hvalid, .inl ⟨rfl, rfl⟩⟩
  rw [not_or, Nat.not_lt] at hvalid
  obtain ⟨hne, ho⟩ := hvalid
  have hroom : s.pos + s.refCount m ≤ s.osize := by
    have hcount : s.refCount m ≤ s.osize - s.pos := Nat.min_le_right _ _
    have hpos := h.pos
    omega
  have h0 : 0 < o.toNat := Nat.pos_of_ne_zero fun h0 => hne (BitVec.eq_of_toNat_eq h0)
  obtain ⟨t, hexec, hstored, hjob⟩ :=
    execRef_next (m := m) h.wf h0 ho (State.dstHolds_of_le h.dstInSpace (hroom.trans h.capacity))
  exact ⟨t, hexec, .inr ((h.stored hstored hjob hroom).imp_left .lzb)⟩

theorem LzbRunning.makesProgress : MakesProgress s := by
  have ⟨_, hinbox, hop⟩ := h.loop
  rcases Nat.lt_or_ge s.pos s.osize with hpos | hpos
  · have hfetch := State.fetch_lzbToken ⟨h.loop, h.srcInSpace, hpos, h.widths, h.bitcnt⟩
    obtain ⟨s', hf⟩ | ⟨i, s', n, hf, ⟨hrun, ⟨p, b, c, rfl⟩, hleft⟩, htoken⟩ := h.fetchLzb
    · exact .of_ended hinbox (hfetch.trans hf)
    · have hless : (s.withReader p b c).workLeft < s.workLeft := by
        rw [State.workLeft_lzb hop, State.workLeft_lzb (s := s.withReader p b c) hop]
        omega
      refine .of_token hinbox (hfetch.trans hf) hless ?_
      obtain ⟨l, rfl⟩ | ⟨o, m, rfl⟩ := htoken
      · exact hrun.lit_goesOn hpos l
      · exact hrun.ref_goesOn o m
  · exact .of_ended hinbox (State.fetch_lzb_full h.loop h.srcInSpace hpos)

end

end Sys2Proof.Machine
end

section
/-! Progress of a running RLE8 or RLE16 job: a token that the source holds whole takes at least its key byte, and a
source that ends inside one ends the job (42_rle.md R140 to R146). -/

namespace Sys2Proof.Machine

/-! ### What a decoder answers -/

/-- What a decoder answers on `len` bytes: they end inside a token, or start with a whole one, of at least one byte,
that is one of `Token`. -/
def TokenOrEnd (Token : Instr → Prop) (len : Nat) (r : Except Reject (Instr × Nat)) : Prop :=
  (∃ n, r = .error (.streamEnd n)) ∨ ∃ i n, r = .ok (i, n) ∧ 0 < n ∧ n ≤ len ∧ Token i

/-- The RLE8 tokens: the literals of the keys below 0xC0, and the runs. -/
abbrev Rle8Token (i : Instr) : Prop := (∃ k, LiteralKey i k) ∨ ∃ c d, i = .run c d

theorem decodeRle8_tokenOrEnd (l : List Byte) : TokenOrEnd Rle8Token l.length (decodeRle8 l) := by
  cases l with
  | nil => exact .inl ⟨0, decodeRle8_nil⟩
  | cons k t =>
    rcases Nat.lt_or_ge k.toNat 0xC0 with hk | hk
    · obtain ⟨i, hkey⟩ := exists_literalKey hk
      exact .inr ⟨i, 1, hkey.decodes t, Nat.one_pos, Nat.succ_pos _, .inl ⟨k, hkey⟩⟩
    · cases t with
      | nil => exact .inl ⟨1, decodeRle8_runCut hk⟩
      | cons d rest =>
        exact .inr ⟨_, 2, decodeRle8_run hk d rest, Nat.two_pos, Nat.le_add_left 2 _, .inr ⟨_, _, rfl⟩⟩

/-- RLE16 has one token. -/
abbrev Rle16Token (i : Instr) : Prop := ∃ k b0 b1, i = .unit k b0 b1

theorem decodeRle16_tokenOrEnd (l : List Byte) : TokenOrEnd Rle16Token l.length (decodeRle16 l) := by
  match l with
  | [] => exact .inl ⟨0, rfl⟩
  | [_] => exact .inl ⟨1, decodeRle16_cut Nat.zero_lt_two⟩
  | [_, _] => exact .inl ⟨1, decodeRle16_cut Nat.one_lt_two⟩
  | k :: b0 :: b1 :: t =>
    exact .inr ⟨_, 3, decodeRle16_three k b0 b1 t, Nat.succ_pos 2, Nat.le_add_left 3 _, k, b0, b1, rfl⟩

theorem State.length_nextBytes (s : State) (n : Nat) : (s.nextBytes n).length = min n (s.srcLen - s.inPos) := by
  simp [State.nextBytes]

/-- A job whose units are all written has no token left to fetch. -/
theorem State.fetch_rle16_full {s : State} (h : s.AtLoop 3) (hs : s.srcInSpace = true) (hpos : s.units ≤ s.pos) :
    s.fetch = .ended .noError .headerRead s := by
  obtain ⟨hp, -, hop⟩ := h
  rw [State.fetch_running hp]
  simp [State.fetchRunning, State.moreToDo, hs, hop, hpos]

section
variable {op : Nat} {s : State} (h : StreamRunning op s) (ho : op = 2 ∨ op = 3)
include h ho

/-- The fetch of a token ends the job, or moves the cursor past the token, at least one byte on. -/
theorem StreamRunning.fetchedBytes_makesProgress {Token : Instr → Prop} {r : Except Reject (Instr × Nat)} {n : Nat}
    (hf : s.fetch = s.fetchedBytes r) (hr : TokenOrEnd Token (s.nextBytes n).length r)
    (htoken : ∀ i v, Token i → TokenGoesOn i (s.setIn v)) : MakesProgress s := by
  obtain ⟨-, hinbox, hop⟩ := h.loop
  obtain ⟨m, rfl⟩ | ⟨i, m, rfl, hm, hlen, hi⟩ := hr
  · exact .of_ended hinbox hf
  · refine .of_token hinbox hf ?_ (htoken i _ hi)
    have hroom := s.length_nextBytes n
    have hcur : (s.setIn (s.inPos + m)).inPos = s.inPos + m := by
      have := s.win.srcLen.isLt
      exact (BitVec.toNat_ofNat _ _).trans (Nat.mod_eq_of_lt (by simp only [State.srcLen] at hroom; omega))
    have hrle : s.op = 2 ∨ s.op = 3 := hop.symm ▸ ho
    rw [State.workLeft_rle hrle, State.workLeft_rle (s := s.setIn (s.inPos + m)) hrle, hcur]
    change s.srcLen - (s.inPos + m) < s.srcLen - s.inPos
    omega

/-- A store that moves the position on leaves the cursor where the fetch put it. -/
theorem StreamRunning.stored_pos {t : State} {i n m : Nat} {f : Nat → Byte} (st : Stored s t i m f)
    (hj : t.job = { s.job with pos := BitVec.ofNat 32 (s.pos + n) }) (hn : s.pos + n ≤ s.dstLen) :
    StreamRunning op t ∧ t.pos = s.pos + n ∧ t.dstLen = s.dstLen ∧ t.workLeft = s.workLeft := by
  obtain ⟨hwin, -⟩ := st.block
  obtain ⟨hpos, hjob⟩ := pos_of_job hj hn
  have hrun := h.stored st
  obtain ⟨-, -, hop⟩ := h.loop
  have hrle : s.op = 2 ∨ s.op = 3 := hop.symm ▸ ho
  have hrle' : t.op = 2 ∨ t.op = 3 := by rwa [State.op, hwin]
  refine ⟨hrun, hpos, by rw [State.dstLen, hwin], ?_⟩
  rw [State.workLeft_rle hrle, State.workLeft_rle hrle', State.srcLen, State.srcLen, State.inPos, State.inPos, hwin,
    hjob]

end

/-! ### The effect of a token -/

section
variable {s : State} (h : StreamRunning 2 s)
include h

theorem StreamRunning.rle8Stored_goesOn {i : Instr} {n : Nat} {f : Nat → Byte} (hn : s.pos + n ≤ s.dstLen)
    (hexec : ∃ t, exec i s = .next t ∧ Stored s t s.pos n f ∧
      t.job = { s.job with pos := BitVec.ofNat 32 (s.pos + n) }) : TokenGoesOn i s := by
  obtain ⟨t, hexec, hstored, hjob⟩ := hexec
  obtain ⟨hrun, hpos, hdstLen, hwork⟩ := h.stored_pos (.inl rfl) hstored hjob hn
  exact ⟨t, hexec, .inr ⟨.rle8 hrun (by rwa [hpos, hdstLen]), hwork⟩⟩

theorem Rle8Token.goesOn {i : Instr} (hi : Rle8Token i) (hpos : s.pos < s.dstLen) : TokenGoesOn i s := by
  obtain ⟨k, hkey⟩ | ⟨c, d, rfl⟩ := hi
  · exact h.rle8Stored_goesOn hpos (hkey.exec_next h.wf h.dstInSpace hpos)
  · have hroom := State.pos_add_runCount_le c hpos.le
    exact h.rle8Stored_goesOn hroom (execRun_next h.wf (State.dstHolds_of_le h.dstInSpace hroom))

theorem StreamRunning.rle8_makesProgress (hpos : s.pos ≤ s.dstLen) : MakesProgress s := by
  have ⟨_, hinbox, _⟩ := h.loop
  rcases Nat.lt_or_eq_of_le hpos with hlt | heq
  · exact h.fetchedBytes_makesProgress (.inl rfl) (State.fetch_rle8 h.loop h.srcInSpace hlt)
      (decodeRle8_tokenOrEnd _) fun _ _ hi => hi.goesOn (h.withJob _) hlt
  · exact .of_ended hinbox (State.fetch_rle8_full h.loop h.srcInSpace heq)

end

section
variable {s : State} (h : StreamRunning 3 s)
include h

theorem Rle16Token.goesOn {i : Instr} (hi : Rle16Token i) (hpos : s.pos ≤ s.units) : TokenGoesOn i s := by
  obtain ⟨k, b0, b1, rfl⟩ := hi
  have hunits := State.pos_add_unitCount_le k hpos
  have hbytes := s.two_mul_units_le
  obtain ⟨t, hexec, hstored, hjob⟩ :=
    execUnit_next (k := k) (b0 := b0) (b1 := b1) h.wf (State.dstHolds_of_le h.dstInSpace (by omega))
  obtain ⟨hrun, hpos', hdstLen, hwork⟩ := h.stored_pos (.inr rfl) hstored hjob (by omega)
  have hunits' : t.units = s.units := by rw [State.units, hdstLen, State.units]
  exact ⟨t, hexec, .inr ⟨.rle16 hrun (by rwa [hpos', hunits']), hwork⟩⟩

theorem StreamRunning.rle16_makesProgress (hpos : s.pos ≤ s.units) : MakesProgress s := by
  have ⟨_, hinbox, _⟩ := h.loop
  rcases Nat.lt_or_eq_of_le hpos with hlt | heq
  · exact h.fetchedBytes_makesProgress (.inr rfl) (State.fetch_rle16 h.loop h.srcInSpace hlt)
      (decodeRle16_tokenOrEnd _) fun _ _ hi => hi.goesOn (h.withJob _) hpos
  · exact .of_ended hinbox (State.fetch_rle16_full h.loop h.srcInSpace heq.ge)

end

end Sys2Proof.Machine
end

section
/-! Every job completes (60_exceptions.md R198): a good running job, because every move makes progress (40_jobs.md R99);
a started one, because its command completes it or enters the loop with a good one. -/

namespace Sys2Proof.Machine

/-! ### Running jobs -/

/-- A pixel of the raster is written and the next one is a place further on; past the last one the job completes. -/
theorem ConvertRunning.makesProgress {s : State} (h : ConvertRunning s) : MakesProgress s := by
  have ⟨_, hinbox, hop⟩ := h.loop
  by_cases hin : s.x < s.width ∧ s.y < s.height
  · obtain ⟨hx, hy⟩ := hin
    have hat : s.AtPixel := ⟨h.wf, h.srcInSpace, h.dstInSpace, hx, hy, h.capacity⟩
    obtain ⟨t, hstep, hstored, hjob⟩ := h.step_pixel hat
    obtain ⟨hplace, -⟩ := State.rowMajor_nextPixel hat hjob
    obtain ⟨hwin, -⟩ := hstored.block
    have hgood := h.stored hstored
    obtain ⟨-, -, hop'⟩ := hgood.loop
    refine ⟨t, hstep, .inr ⟨.convert hgood, ?_⟩⟩
    have hlt := rowMajor_lt hx hy
    have hwidth : t.width = s.width := by rw [State.width, hwin]
    have hheight : t.height = s.height := by rw [State.height, hwin]
    rw [State.workLeft_convert hop, State.workLeft_convert hop', hwidth, hheight, hplace, Nat.mul_comm s.height]
    omega
  · exact .of_ended hinbox (State.fetch_convert_full h.loop h.srcInSpace (by omega))

/-- Every move of a good running job makes progress. -/
theorem GoodJob.makesProgress {s : State} (h : GoodJob s) : MakesProgress s := by
  cases h with
  | lzb h => exact h.makesProgress
  | rle8 h hpos => exact h.rle8_makesProgress hpos
  | rle16 h hpos => exact h.rle16_makesProgress hpos
  | convert h => exact h.makesProgress

/-- By induction over the work left. -/
theorem GoodJob.completes {s : State} (h : GoodJob s) :
    ∃ k t, k ≤ s.workLeft + 1 ∧ Host.Core.run core k s = .next t ∧ t.Completed := by
  induction hn : s.workLeft using Nat.strong_induction_on generalizing s with
  | _ n ih =>
    obtain ⟨t, hstep, hdone | ⟨hgood, hlt⟩⟩ := h.makesProgress
    · exact ⟨1, t, Nat.le_add_left 1 n, run_next hstep, hdone⟩
    · obtain ⟨k, u, hk, hrun, hdone⟩ := ih t.workLeft (hn ▸ hlt) hgood rfl
      exact ⟨k + 1, u, by omega, (run_next hstep).trans hrun, hdone⟩

/-! ### Started jobs -/

/-- A move of a job just started: the job completes, or its loop begins with a good one. -/
def Begins (o : Host.Outcome State Fault Refusal) : Prop := ∃ t, o = .next t ∧ (t.Completed ∨ GoodJob t)

theorem Begins.of_complete {o : Host.Outcome State Fault Refusal} {s : State} {e : ErrCode} {p : Progress}
    (h : o = .next (s.complete e p)) : Begins o := ⟨_, h, .inl ⟨rfl, rfl⟩⟩

theorem execCmdRle16_loop {s : State} (ie : Bool) (h : s.RangesPass) (hd : s.coversDevice = false)
    (heven : s.dstLen % 2 ≠ 1) : execCmdRle16 ie s = .next (s.latchStart 3 ie).initJob.enterLoop :=
  (beginJob_rangesPass (by decide) h).trans ((if_neg heven).trans (unlessDevice_memory hd))

theorem execCmdConvert_loop {s : State} (ie : Bool) (h : s.RangesPass) (hd : s.coversDevice = false)
    (hbpp : bppLegal s.bpp = true) (hrow : s.rowUnaligned = false) (hcap : s.width * s.height * 2 ≤ s.dstLen) :
    execCmdConvert ie s = .next (s.latchStart 4 ie).initJob.enterLoop :=
  (beginJob_rangesPass (by decide) h).trans <| (if_neg (ne_false_of_eq_true hbpp)).trans <|
    (if_neg (ne_true_of_eq_false hrow)).trans <| (if_neg (Nat.not_lt.2 hcap)).trans (unlessDevice_memory hd)

/-- A command whose range checks fail completes, so what is left to see is what it does where they pass. -/
theorem Begins.of_rangesPass {s : State} {op : BitVec 3} {ie : Bool}
    {body : State → Host.Outcome State Fault Refusal} (hop : op ∈ [(1 : BitVec 3), 2, 3, 4])
    (h : s.RangesPass → Begins (beginJob (s.latchStart op ie) body)) : Begins (beginJob (s.latchStart op ie) body) := by
  by_cases hpass : s.RangesPass
  · exact h hpass
  · exact .of_complete (beginJob_fail ((latchStart_startCheckFails hop).2 hpass))

/-- The third range check is that the ranges do not meet. -/
theorem State.rangesMeet_of_rangesPass {s : State} (h : s.RangesPass) :
    rangesMeet s.srcAddr s.srcLen s.dstAddr s.dstLen = false := by
  obtain ⟨-, -, hapart⟩ := h
  exact Bool.eq_false_iff.2 fun hmeet => hapart (by simpa [rangesMeet, and_assoc] using hmeet)

section
variable {s : State} (hwf : s.mem.wf = true) (hi : s.inbox = [])
include hwf hi

/-- The loop begins with passing range checks behind it, whatever the internal job state is set to. -/
theorem StreamRunning.enterLoop (op : BitVec 3) (ie : Bool) (h : s.RangesPass) (j : Job) :
    StreamRunning op.toNat ((s.latchStart op ie).withJob j).enterLoop := by
  obtain ⟨hsrc, hdst, -⟩ := h
  exact ⟨⟨rfl, hi, rfl⟩, hwf, decide_eq_true hsrc, decide_eq_true hdst⟩

variable (hd : s.coversDevice = false) (ie : Bool)
include hd

theorem execCmdLzb_begins : Begins (execCmdLzb ie s) := by
  refine .of_rangesPass (op := 1) (by decide) fun h => ?_
  rcases Nat.lt_or_ge s.srcLen 8 with hl | hl
  · exact .of_complete ((execCmdLzb_header h hd ie).trans (lzbHeader_short (s := (s.latchStart 1 ie).initJob) hl))
  cases hw : (s.withJob s.headerJob).widths.legal with
  | false => exact .of_complete (execCmdLzb_widths h hd ie hl hw)
  | true =>
    rcases Nat.lt_or_ge s.dstLen s.headerJob.osize.toNat with hc | hc
    · exact .of_complete (execCmdLzb_capacity h hd ie hl hw hc)
    · exact ⟨_, execCmdLzb_loop h hd ie hl hw hc,
        .inr (.lzb ⟨.enterLoop hwf hi 1 ie h s.headerJob, hw, hc, Nat.zero_le _, hl, Nat.zero_le _⟩)⟩

theorem execCmdRle8_begins : Begins (execCmdRle8 ie s) :=
  .of_rangesPass (op := 2) (by decide) fun h =>
    ⟨_, execCmdRle8_loop h hd, .inr (.rle8 (.enterLoop hwf hi 2 ie h Job.initial) (Nat.zero_le _))⟩

theorem execCmdRle16_begins : Begins (execCmdRle16 ie s) := by
  refine .of_rangesPass (op := 3) (by decide) fun h => ?_
  by_cases hodd : s.dstLen % 2 = 1
  · exact .of_complete (execCmdRle16_odd h hodd)
  · exact ⟨_, execCmdRle16_loop ie h hd hodd,
      .inr (.rle16 (.enterLoop hwf hi 3 ie h Job.initial) (Nat.zero_le _))⟩

theorem execCmdConvert_begins : Begins (execCmdConvert ie s) := by
  refine .of_rangesPass (op := 4) (by decide) fun h => ?_
  cases hbpp : bppLegal s.bpp with
  | false => exact .of_complete (execCmdConvert_bppIllegal h hbpp)
  | true =>
    cases hrow : s.rowUnaligned with
    | true => exact .of_complete (execCmdConvert_rowUnaligned h hbpp hrow)
    | false =>
      rcases Nat.lt_or_ge s.dstLen (s.width * s.height * 2) with hcap | hcap
      · exact .of_complete (execCmdConvert_capacity h hbpp hrow hcap)
      · obtain ⟨hloop, hwf', hsrc, hdst⟩ := StreamRunning.enterLoop hwf hi 4 ie h Job.initial
        exact ⟨_, execCmdConvert_loop ie h hd hbpp hrow hcap,
          .inr (.convert ⟨hloop, hwf', hsrc, hdst, State.rangesMeet_of_rangesPass h, hbpp, hcap⟩)⟩

/-- The first move of a started job over ordinary memory. -/
theorem step_starting_begins (hp : s.phase = .starting) : Begins (step s) := by
  have hf : s.fetch = s.fetchCommand := State.fetch_starting hp
  rw [step_engine hi]
  unfold State.fetchCommand at hf
  rw [decodeCtrl_startWord] at hf
  split_ifs at hf
  · exact engineMove_run hf ▸ execCmdLzb_begins hwf hi hd _
  · exact engineMove_run hf ▸ execCmdRle8_begins hwf hi hd _
  · exact engineMove_run hf ▸ execCmdRle16_begins hwf hi hd _
  · exact engineMove_run hf ▸ execCmdConvert_begins hwf hi hd _
  · exact .of_complete (engineMove_ended hf)

end

/-- Settles O45: a good running job has less work left after every move that does not complete it
(`GoodJob.makesProgress`, by induction in `GoodJob.completes`), and a started one completes in its first move or is a
good running one after it (`step_starting_begins`). -/
theorem everyJobCompletes : Obligations.EveryJobCompletes := by
  refine ⟨fun s hinv hp hi => (GoodJob.of_inv hinv hp hi).completes, fun s ⟨hwf, _⟩ hp hi hd => ?_⟩
  obtain ⟨t, hstep, hdone | hgood⟩ := step_starting_begins hwf hi hd hp
  · exact ⟨1, t, run_next hstep, hdone⟩
  · obtain ⟨k, u, -, hrun, hdone⟩ := hgood.completes
    exact ⟨k + 1, u, (run_next hstep).trans hrun, hdone⟩

end Sys2Proof.Machine
end

section
/-! The bit reader in numbers (41_lzb.md R110): when a request fails, and where one that succeeds leaves the cursor and
the count of valid bits. -/

namespace Sys2Proof.Machine

/-- A count of valid bits fits the six bits of `bitcnt`. -/
theorem toNat_bitcnt {k : Nat} (hk : k ≤ 32) : (BitVec.ofNat 6 k).toNat = k :=
  (BitVec.toNat_ofNat _ _).trans (Nat.mod_eq_of_lt (by omega))

/-- A cursor inside the source fits the 32 bits of `in`. -/
theorem State.toNat_cursor {s : State} {m : Nat} (h : m ≤ s.srcLen) : (BitVec.ofNat 32 m).toNat = m :=
  (BitVec.toNat_ofNat _ _).trans (Nat.mod_eq_of_lt (h.trans_lt s.win.srcLen.isLt))

/-- A request fails exactly when it needs a refill that would pass the end of the source. -/
theorem State.takeBits_eq_none_iff {n : Nat} {s : State} :
    s.takeBits n = none ↔ s.job.bitcnt.toNat < n ∧ s.srcLen < s.inPos + 4 := by
  refine ⟨fun h => ?_, fun ⟨hc, hl⟩ => State.takeBits_exhausted hc hl⟩
  rcases Nat.lt_or_ge s.job.bitcnt.toNat n with hc | hc
  · rcases Nat.lt_or_ge s.srcLen (s.inPos + 4) with hl | hl
    · exact ⟨hc, hl⟩
    · cases (State.takeBits_refill hc hl).symm.trans h
  · cases (State.takeBits_buffered hc).symm.trans h

/-- Where a request for `n` bits that succeeds leaves the reader: the valid bits meet it, or it takes them all and some
of one more code word. -/
inductive ReaderStep (s : State) (n : Nat) (s' : State) : Prop
  | buffered (enough : n ≤ s.job.bitcnt.toNat) (inPos : s'.inPos = s.inPos)
      (bitcnt : s'.job.bitcnt.toNat = s.job.bitcnt.toNat - n)
  | refilled (short : s.job.bitcnt.toNat < n) (room : s.inPos + 4 ≤ s.srcLen) (inPos : s'.inPos = s.inPos + 4)
      (bitcnt : s'.job.bitcnt.toNat + n = s.job.bitcnt.toNat + 32)

theorem State.takeBits_readerStep {n v : Nat} {s s' : State} (hn : n ≤ 32) (hcnt : s.job.bitcnt.toNat ≤ 32)
    (h : s.takeBits n = some (v, s')) : ReaderStep s n s' := by
  rcases Nat.lt_or_ge s.job.bitcnt.toNat n with hc | hc
  · rcases Nat.lt_or_ge s.srcLen (s.inPos + 4) with hl | hl
    · cases (State.takeBits_exhausted hc hl).symm.trans h
    · cases (State.takeBits_refill hc hl).symm.trans h
      refine .refilled hc hl (State.toNat_cursor hl) ?_
      have hk : (BitVec.ofNat 6 (32 - (n - s.job.bitcnt.toNat))).toNat = 32 - (n - s.job.bitcnt.toNat) :=
        toNat_bitcnt (Nat.sub_le _ _)
      change (BitVec.ofNat 6 (32 - (n - s.job.bitcnt.toNat))).toNat + n = _
      omega
  · cases (State.takeBits_buffered hc).symm.trans h
    exact .buffered hc rfl (toNat_bitcnt ((Nat.sub_le _ _).trans hcnt))

/-- Settles O7: a request fails where a refill it needs does not fit (`State.takeBits_eq_none_iff`), has the width asked
for (`State.takeBits_lt`), and refills not at all or once (`ReaderStep`). -/
theorem takeBitsRefillsAtMostOnce : Obligations.TakeBitsRefillsAtMostOnce := by
  refine fun n s _ hn hcnt => ⟨State.takeBits_eq_none_iff, fun v s' h => ⟨State.takeBits_lt hn h, ?_⟩⟩
  cases State.takeBits_readerStep hn hcnt h with
  | buffered enough inPos bitcnt => exact ⟨fun _ => ⟨inPos, bitcnt⟩, fun hlt => absurd enough (Nat.not_le.2 hlt)⟩
  | refilled short room inPos bitcnt => exact ⟨fun hle => absurd hle (Nat.not_le.2 short), fun _ => ⟨inPos, bitcnt⟩⟩

end Sys2Proof.Machine
end

section
/-! What an engine move of a good running job does (40_jobs.md R99, R100): it stores the next destination bytes and the
loop goes on, or it completes the job and stores nothing; it never faults. -/

namespace Sys2Proof.Machine

/-! ### Good running jobs -/

/-- The loop of each command is where it can be. -/
abbrev State.LoopInv (s : State) : Prop :=
  (s.op = 1 → s.LzbInv) ∧ (s.op = 2 → s.Rle8Inv) ∧ (s.op = 3 → s.Rle16Inv) ∧ (s.op = 4 → s.ConvertInv)

theorem State.LoopInv.of_lzb {s : State} (hop : s.op = 1) (h : s.LzbInv) : s.LoopInv :=
  ⟨fun _ => h, fun _ => by omega, fun _ => by omega, fun _ => by omega⟩

theorem State.LoopInv.of_rle8 {s : State} (hop : s.op = 2) (h : s.Rle8Inv) : s.LoopInv :=
  ⟨fun _ => by omega, fun _ => h, fun _ => by omega, fun _ => by omega⟩

theorem State.LoopInv.of_rle16 {s : State} (hop : s.op = 3) (h : s.Rle16Inv) : s.LoopInv :=
  ⟨fun _ => by omega, fun _ => by omega, fun _ => h, fun _ => by omega⟩

theorem State.LoopInv.of_convert {s : State} (hop : s.op = 4) (h : s.ConvertInv) : s.LoopInv :=
  ⟨fun _ => by omega, fun _ => by omega, fun _ => by omega, fun _ => h⟩

/-- It is a statement about the registers and the internal job state alone. -/
theorem State.LoopInv.congr {s t : State} (h : s.LoopInv) (hwin : t.win = s.win) (hjob : t.job = s.job) :
    t.LoopInv := by
  cases s
  cases t
  cases hwin
  cases hjob
  exact h

/-- A running job that passed its checks and whose loop is where it can be, over canonical memory. -/
structure RunningJob (s : State) : Prop where
  phase : s.phase = .running
  wf : s.mem.wf = true
  command : s.op ∈ [1, 2, 3, 4]
  srcInSpace : s.srcInSpace = true
  dstInSpace : s.dstInSpace = true
  loop : s.LoopInv

theorem State.startCheckFails_eq_false {s : State} (h : s.startCheckFails = false) :
    s.op ∈ [1, 2, 3, 4] ∧ s.srcInSpace = true ∧ s.dstInSpace = true ∧
      rangesMeet s.srcAddr s.srcLen s.dstAddr s.dstLen = false := by
  have hop : s.op ∈ [1, 2, 3, 4] := Decidable.by_contra fun hreserved =>
    Bool.false_ne_true (h.symm.trans (State.startCheckFails_reserved hreserved))
  simp only [State.startCheckFails, Bool.or_eq_false_iff, Bool.not_eq_false'] at h
  obtain ⟨⟨⟨-, hsrc⟩, hdst⟩, hapart⟩ := h
  exact ⟨hop, hsrc, hdst, hapart⟩

theorem RunningJob.of_inv {s : State} (h : s.Inv) (hp : s.phase = .running) : RunningJob s := by
  obtain ⟨hwf, -, -, -, -, hrun⟩ := h
  obtain ⟨hchecks, -, -, hloop⟩ := hrun hp
  obtain ⟨hop, hsrc, hdst, -⟩ := State.startCheckFails_eq_false hchecks
  exact ⟨hp, hwf, hop, hsrc, hdst, hloop⟩

/-- A fetch that keeps the loop where it can be keeps the job good. -/
theorem RunningJob.withJob {s : State} (h : RunningJob s) {j : Job} (hl : (s.withJob j).LoopInv) :
    RunningJob (s.withJob j) := ⟨h.phase, h.wf, h.command, h.srcInSpace, h.dstInSpace, hl⟩

/-- A good running job has written no more than its destination holds. -/
theorem RunningJob.written_le {s : State} (h : RunningJob s) : s.written ≤ s.dstLen := by
  have hop := h.command
  obtain ⟨hlzb, hrle8, hrle16, hconvert⟩ := h.loop
  simp only [List.mem_cons, List.not_mem_nil, or_false] at hop
  rcases hop with hop | hop | hop | hop
  · obtain ⟨-, hcap, hpos, -⟩ := hlzb hop
    exact (State.written_bytes (.inl hop)).trans_le (hpos.trans hcap)
  · obtain ⟨-, hpos⟩ := hrle8 hop
    exact (State.written_bytes (.inr hop)).trans_le hpos
  · obtain ⟨-, -, hpos⟩ := hrle16 hop
    have hunits := s.two_mul_units_le
    rw [State.written_units hop]
    omega
  · obtain ⟨-, -, hcap, hy, hx, hend⟩ := hconvert hop
    have hplace : s.y * s.width + s.x ≤ s.width * s.height := by
      rcases Nat.lt_or_eq_of_le hy with hlt | heq
      · rcases hx with hx | hx
        · exact (rowMajor_lt hx hlt).le
        · rw [hx, Nat.add_zero, Nat.mul_comm]
          exact Nat.mul_le_mul_left _ hy
      · rw [hend heq, heq, Nat.add_zero, Nat.mul_comm]
    rw [State.written_pixels hop, State.rasterIndex]
    omega

/-! ### The two ways a move goes -/

/-- `t` is `s` after a move of its job: the next `n` destination bytes stored and counted as written, the loop where it
can be, or the job completed with the bytes written so far reported. -/
inductive JobAdvances (s t : State) : Prop
  | stores (n : Nat) (f : Nat → Byte) (stored : Stored s t s.written n f) (room : s.written + n ≤ s.dstLen)
      (written : t.written = s.written + n) (loop : t.LoopInv)
  | completes (j : Job) (e : ErrCode) (written : (s.withJob j).written = s.written)
      (eq : t = (s.withJob j).complete e .headerRead)

/-- The outcome is a next state the job of `s` has advanced to. -/
def Advances (s : State) (o : Host.Outcome State Fault Refusal) : Prop := ∃ t, o = .next t ∧ JobAdvances s t

section
variable {s : State}

/-- A token that advances the job after its fetch advances it from before. -/
theorem Advances.of_withJob {o : Host.Outcome State Fault Refusal} {j : Job} (hw : (s.withJob j).written = s.written)
    (h : Advances (s.withJob j) o) : Advances s o := by
  obtain ⟨t, ho, h⟩ := h
  refine ⟨t, ho, ?_⟩
  cases h with
  | stores n f stored room written loop =>
    rw [hw] at stored room written
    exact .stores n f ⟨stored.block, stored.wf, stored.outside, stored.bytes⟩ room written loop
  | completes j' e written eq => exact .completes j' e (written.trans hw) eq

theorem Advances.of_ended {s' : State} {e : ErrCode} {j : Job} (hf : s.fetch = .ended e .headerRead s')
    (hs : s' = s.withJob j) (hw : (s.withJob j).written = s.written) : Advances s (engineMove s) := by
  subst hs
  exact ⟨_, engineMove_ended hf, .completes j e hw rfl⟩

theorem Advances.of_stores {o : Host.Outcome State Fault Refusal} {n : Nat} {f : Nat → Byte} {j : Job}
    (h : RunningJob s) (ha : Stores s o n f j) (hn : s.written + n ≤ s.dstLen)
    (hw : (s.withJob j).written = s.written + n) (hl : (s.withJob j).LoopInv) : Advances s o := by
  obtain ⟨t, ho, stored, hjob⟩ := ha.next (State.dstHolds_of_le h.dstInSpace hn)
  obtain ⟨hwin, -⟩ := stored.block
  exact ⟨t, ho, .stores n f stored hn ((State.written_congr (s := s.withJob j) hwin hjob).trans hw)
    (hl.congr hwin hjob)⟩

/-- A position moved on by `n` bytes inside the destination counts `n` more as written. -/
theorem State.written_pos_add (h : s.op = 1 ∨ s.op = 2) {n : Nat} (hn : s.pos + n ≤ s.dstLen) :
    (s.withJob { s.job with pos := BitVec.ofNat 32 (s.pos + n) }).written = s.written + n := by
  rw [State.written_withJob_bytes h, State.written_bytes h]
  exact (pos_of_job (t := s.withJob { s.job with pos := BitVec.ofNat 32 (s.pos + n) }) rfl hn).1

theorem State.written_units_add (h : s.op = 3) {n : Nat} (hn : s.pos + n ≤ s.dstLen) :
    (s.withJob { s.job with pos := BitVec.ofNat 32 (s.pos + n) }).written = s.written + 2 * n := by
  rw [State.written_withJob_units h, State.written_units h, ← Nat.mul_add]
  exact congrArg (2 * ·) (pos_of_job (t := s.withJob { s.job with pos := BitVec.ofNat 32 (s.pos + n) }) rfl hn).1

/-! ### The fetch -/

variable (hp : s.phase = .running) (hs : s.srcInSpace = true)
include hp hs

/-- A loop whose test fails ends the job (40_jobs.md R94). -/
theorem State.fetch_done (hm : s.moreToDo = false) : s.fetch = .ended .noError .headerRead s := by
  rw [State.fetch_running hp]
  simp [State.fetchRunning, hs, hm]

/-- A loop whose test holds reads the next token or pixel of its command. -/
theorem State.fetch_more (hm : s.moreToDo = true) : s.fetch =
    if s.op = 1 then s.fetchLzb else if s.op = 2 then s.fetchRle8 else if s.op = 3 then s.fetchRle16
    else if s.op = 4 then s.fetchPixel else .broken .corruptJob := by
  rw [State.fetch_running hp]
  simp [State.fetchRunning, hs, hm]

end

/-! ### LZB -/

section
variable {s : State}

/-- A request of the bit reader keeps the loop where it can be. -/
theorem State.LzbInv.takeBits {n v : Nat} {s' : State} (h : s.LzbInv) (hn : n ≤ 32)
    (htake : s.takeBits n = some (v, s')) : s'.LzbInv := by
  obtain ⟨hw, hcap, hpos, hheader, hcursor, hcnt⟩ := h
  have hstep := State.takeBits_readerStep hn hcnt htake
  obtain ⟨p, b, c, rfl⟩ := State.takeBits_moved htake
  refine ⟨hw, hcap, hpos, ?_⟩
  change _ ∧ _ ≤ s.srcLen ∧ _
  cases hstep with
  | buffered enough inPos bitcnt => omega
  | refilled short room inPos bitcnt => omega

/-- The fetch of a token ends the job, or finds the token with the reader moved past it. -/
theorem State.LzbInv.fetchLzb (h : s.LzbInv) :
    (∃ s', s.fetchLzb = .ended .truncatedStream .headerRead s' ∧ ReaderMoved s s') ∨
      ∃ i s', s.fetchLzb = .run i s' ∧ ReaderMoved s s' ∧ s'.LzbInv ∧ ((∃ l, i = .lit l) ∨ ∃ o m, i = .ref o m) := by
  have ⟨hw, _⟩ := h
  obtain ⟨⟨-, ho⟩, -, hm⟩ := (Widths.legal_iff _).1 hw
  cases h1 : s.takeBits 1 with
  | none => exact .inl ⟨s, State.fetchLzb_controlCut hw h1, s.job.inPos, s.job.bitbuf, s.job.bitcnt, rfl⟩
  | some r1 =>
    obtain ⟨c, s1⟩ := r1
    have m1 := State.takeBits_moved h1
    have i1 := h.takeBits (by decide) h1
    have hc : c < 2 := State.takeBits_lt (by decide) h1
    obtain rfl | rfl : c = 1 ∨ c = 0 := by omega
    · cases h2 : s1.takeBits 8 with
      | none => exact .inl ⟨s1, State.fetchLzb_litCut hw h1 h2, m1⟩
      | some r2 =>
        obtain ⟨l, s2⟩ := r2
        exact .inr ⟨_, s2, State.fetchLzb_lit hw h1 h2, m1.trans (State.takeBits_moved h2),
          i1.takeBits (by decide) h2, .inl ⟨_, rfl⟩⟩
    · cases h2 : s1.takeBits s.widths.obits with
      | none => exact .inl ⟨s1, State.fetchLzb_offsetCut hw h1 h2, m1⟩
      | some r2 =>
        obtain ⟨o, s2⟩ := r2
        have m2 := m1.trans (State.takeBits_moved h2)
        have i2 := i1.takeBits ho h2
        cases h3 : s2.takeBits s.widths.mbits with
        | none => exact .inl ⟨s2, State.fetchLzb_lengthCut hw h1 h2 h3, m2⟩
        | some r3 =>
          obtain ⟨m, s3⟩ := r3
          exact .inr ⟨_, s3, State.fetchLzb_ref hw h1 h2 h3, m2.trans (State.takeBits_moved h3),
            i2.takeBits hm h3, .inr ⟨_, _, rfl⟩⟩

/-- A back-reference that is not invalid reaches bytes the job has written (41_lzb.md R115). -/
theorem refReaches_of_valid {o : Word} (hv : ¬(o = 0 ∨ s.pos < o.toNat)) : 0 < o.toNat ∧ o.toNat ≤ s.pos := by
  rw [not_or, Nat.not_lt] at hv
  obtain ⟨hne, ho⟩ := hv
  exact ⟨Nat.pos_of_ne_zero fun h0 => hne (BitVec.eq_of_toNat_eq h0), ho⟩

variable (h : RunningJob s)
include h

/-- A token that stores `n` bytes within the output. -/
theorem RunningJob.lzbStores_advances {o : Host.Outcome State Fault Refusal} {n : Nat} {f : Nat → Byte}
    (hop : s.op = 1) (ha : Stores s o n f { s.job with pos := BitVec.ofNat 32 (s.pos + n) })
    (hn : s.pos + n ≤ s.osize) : Advances s o := by
  obtain ⟨hlzb, -⟩ := h.loop
  obtain ⟨hw, hcap, -, hcursor⟩ := hlzb hop
  have hroom : s.pos + n ≤ s.dstLen := hn.trans hcap
  obtain ⟨hpos, -⟩ := pos_of_job (t := s.withJob { s.job with pos := BitVec.ofNat 32 (s.pos + n) }) rfl hroom
  refine .of_stores h ha ?_ (State.written_pos_add (.inl hop) hroom) (.of_lzb hop ⟨hw, hcap, ?_, hcursor⟩)
  · rwa [State.written_bytes (.inl hop)]
  · rw [hpos]
    exact hn

/-- A back-reference that reaches before the output completes the job; any other is copied, cut at the end of the
output. -/
theorem RunningJob.ref_advances (hop : s.op = 1) (o m : Word) : Advances s (execRef o m s) := by
  by_cases hv : o = 0 ∨ s.pos < o.toNat
  · exact ⟨_, execRef_invalid hv, .completes s.job _ rfl (State.raise_eq_complete _ _)⟩
  obtain ⟨h0, ho⟩ := refReaches_of_valid hv
  obtain ⟨hlzb, -⟩ := h.loop
  obtain ⟨-, -, hpos, -⟩ := hlzb hop
  have hcount : s.refCount m ≤ s.osize - s.pos := Nat.min_le_right _ _
  exact h.lzbStores_advances hop (execRef_stores h.wf hop h0 ho) (by omega)

theorem RunningJob.lzb_advances (hop : s.op = 1) (hm : s.moreToDo = true) : Advances s (engineMove s) := by
  have hfetch := (State.fetch_more h.phase h.srcInSpace hm).trans (if_pos hop)
  have hpos : s.pos < s.osize := by simpa only [State.moreToDo, if_pos hop, decide_eq_true_eq] using hm
  obtain ⟨hlzb, -⟩ := h.loop
  obtain ⟨s', hf, p, b, c, rfl⟩ | ⟨i, s', hf, ⟨p, b, c, rfl⟩, hinv, htoken⟩ := (hlzb hop).fetchLzb
  · exact .of_ended (hfetch.trans hf) rfl rfl
  · have hrun : RunningJob (s.withReader p b c) := h.withJob (.of_lzb hop hinv)
    rw [engineMove_run (hfetch.trans hf)]
    refine .of_withJob (j := (s.withReader p b c).job) rfl ?_
    obtain ⟨l, rfl⟩ | ⟨o, m, rfl⟩ := htoken
    · exact hrun.lzbStores_advances hop (execLit_stores (l := l) h.wf hop) hpos
    · exact hrun.ref_advances hop o m

end

/-! ### RLE8 and RLE16 -/

section
variable {s : State}

/-- The fetch of an RLE token ends the job, or moves the cursor past the token, inside the source. -/
theorem Advances.of_fetchedBytes {Token : Instr → Prop} {r : Except Reject (Instr × Nat)} {n : Nat}
    (hcursor : s.inPos ≤ s.srcLen) (hf : s.fetch = s.fetchedBytes r)
    (hr : TokenOrEnd Token (s.nextBytes n).length r)
    (htoken : ∀ i m, Token i → (s.setIn m).inPos ≤ s.srcLen → Advances (s.setIn m) (exec i (s.setIn m))) :
    Advances s (engineMove s) := by
  have hw (m : Nat) : (s.setIn m).written = s.written := rfl
  obtain ⟨m, rfl⟩ | ⟨i, m, rfl, -, hlen, hi⟩ := hr
  · exact .of_ended hf rfl (hw _)
  · rw [s.length_nextBytes] at hlen
    rw [engineMove_run hf]
    refine .of_withJob (hw _) (htoken i _ hi ?_)
    have hm : s.inPos + m ≤ s.srcLen := by omega
    exact (State.toNat_cursor hm).trans_le hm

variable (h : RunningJob s)
include h

/-- A token that stores `n` bytes within the destination. -/
theorem RunningJob.rle8Stores_advances {o : Host.Outcome State Fault Refusal} {n : Nat} {f : Nat → Byte}
    (hop : s.op = 2) (ha : Stores s o n f { s.job with pos := BitVec.ofNat 32 (s.pos + n) })
    (hn : s.pos + n ≤ s.dstLen) : Advances s o := by
  obtain ⟨-, hrle8, -⟩ := h.loop
  obtain ⟨hcursor, -⟩ := hrle8 hop
  obtain ⟨hpos, -⟩ := pos_of_job (t := s.withJob { s.job with pos := BitVec.ofNat 32 (s.pos + n) }) rfl hn
  refine .of_stores h ha ?_ (State.written_pos_add (.inr hop) hn) (.of_rle8 hop ⟨hcursor, hpos.trans_le hn⟩)
  rwa [State.written_bytes (.inr hop)]

theorem RunningJob.rle8Token_advances (hop : s.op = 2) (hpos : s.pos < s.dstLen) {i : Instr} (hi : Rle8Token i) :
    Advances s (exec i s) := by
  obtain ⟨k, hkey⟩ | ⟨c, d, rfl⟩ := hi
  · rw [hkey.puts]
    exact h.rle8Stores_advances hop (putKey_stores h.wf hop) hpos
  · exact h.rle8Stores_advances hop (execRun_stores h.wf hop) (State.pos_add_runCount_le c hpos.le)

theorem RunningJob.rle8_advances (hop : s.op = 2) (hm : s.moreToDo = true) : Advances s (engineMove s) := by
  have hfetch : s.fetch = s.fetchRle8 := by rw [State.fetch_more h.phase h.srcInSpace hm]; simp [hop]
  have hlt : s.pos < s.dstLen := by simpa [State.moreToDo, hop] using hm
  obtain ⟨-, hrle8, -⟩ := h.loop
  obtain ⟨hcursor, hpos⟩ := hrle8 hop
  refine .of_fetchedBytes hcursor hfetch (decodeRle8_tokenOrEnd _) fun i m hi hin => ?_
  have hrun : RunningJob (s.setIn m) := h.withJob (.of_rle8 hop ⟨hin, hpos⟩)
  exact hrun.rle8Token_advances hop hlt hi

theorem RunningJob.rle16Token_advances (hop : s.op = 3) {i : Instr} (hi : Rle16Token i) : Advances s (exec i s) := by
  obtain ⟨k, b0, b1, rfl⟩ := hi
  obtain ⟨-, -, hrle16, -⟩ := h.loop
  obtain ⟨heven, hcursor, hpos⟩ := hrle16 hop
  have hunits := State.pos_add_unitCount_le k hpos
  have hbytes := s.two_mul_units_le
  have hroom : s.pos + s.unitCount k ≤ s.dstLen := by omega
  obtain ⟨hpos', -⟩ :=
    pos_of_job (t := s.withJob { s.job with pos := BitVec.ofNat 32 (s.pos + s.unitCount k) }) rfl hroom
  refine .of_stores h (execUnit_stores h.wf hop) ?_ (State.written_units_add hop hroom)
    (.of_rle16 hop ⟨heven, hcursor, hpos'.trans_le hunits⟩)
  rw [State.written_units hop]
  omega

theorem RunningJob.rle16_advances (hop : s.op = 3) (hm : s.moreToDo = true) : Advances s (engineMove s) := by
  have hfetch : s.fetch = s.fetchRle16 := by rw [State.fetch_more h.phase h.srcInSpace hm]; simp [hop]
  obtain ⟨-, -, hrle16, -⟩ := h.loop
  obtain ⟨heven, hcursor, hpos⟩ := hrle16 hop
  refine .of_fetchedBytes hcursor hfetch (decodeRle16_tokenOrEnd _) fun i m hi hin => ?_
  have hrun : RunningJob (s.setIn m) := h.withJob (.of_rle16 hop ⟨heven, hin, hpos⟩)
  exact hrun.rle16Token_advances hop hi

/-! ### CONVERT -/

theorem RunningJob.convert_advances (hop : s.op = 4) (hm : s.moreToDo = true) : Advances s (engineMove s) := by
  have hfetch : s.fetch = s.fetchPixel := by rw [State.fetch_more h.phase h.srcInSpace hm]; simp [hop]
  obtain ⟨hy, hx⟩ : s.y < s.height ∧ s.x < s.width := by simpa [State.moreToDo, hop] using hm
  obtain ⟨-, -, -, hconvert⟩ := h.loop
  obtain ⟨hbpp, hrow, hcap, -⟩ := hconvert hop
  have hat : s.AtPixel := ⟨h.wf, h.srcInSpace, h.dstInSpace, hx, hy, hcap⟩
  obtain ⟨i, hformat⟩ := exists_pixelFormat hbpp
  rw [engineMove_run (hfetch.trans (hformat.fetched s rfl)), hformat.converts]
  obtain ⟨hplace, -⟩ := State.place_of_nextPixel (t := s.withJob s.nextPixel) hy rfl
  obtain ⟨hmajor, -⟩ := State.rowMajor_nextPixel (t := s.withJob s.nextPixel) hat rfl
  obtain ⟨-, hroom⟩ := (State.dstHolds_iff _ _ _).1 hat.holds
  refine .of_stores h (convertPixel_stores h.wf hop h.srcInSpace) ?_ ?_ (.of_convert hop ⟨hbpp, hrow, hcap, ?_⟩)
  · rwa [State.written_pixels hop]
  · rw [State.written_withJob_pixels hop, State.written_pixels hop, State.rasterIndex]
    exact congrArg (2 * ·) hmajor
  · change (s.withJob s.nextPixel).y ≤ s.height ∧
      ((s.withJob s.nextPixel).x < s.width ∨ (s.withJob s.nextPixel).x = 0) ∧
        ((s.withJob s.nextPixel).y = s.height → (s.withJob s.nextPixel).x = 0)
    split at hplace <;> omega

/-! ### Any command -/

/-- Every move of a good running job advances it. -/
theorem RunningJob.advances : Advances s (engineMove s) := by
  cases hm : s.moreToDo with
  | false => exact .of_ended (State.fetch_done h.phase h.srcInSpace hm) (j := s.job) rfl rfl
  | true =>
    have hop := h.command
    simp only [List.mem_cons, List.not_mem_nil, or_false] at hop
    rcases hop with hop | hop | hop | hop
    · exact h.lzb_advances hop hm
    · exact h.rle8_advances hop hm
    · exact h.rle16_advances hop hm
    · exact h.convert_advances hop hm

end

end Sys2Proof.Machine
end

section
/-! The command of an accepted START (40_jobs.md R90 to R98): it completes the job, enters the loop with a good job that
has written nothing, or is refused (20_memory.md R58); it stores nothing. -/

namespace Sys2Proof.Machine

/-- What a command whose START is latched in `s` comes to. -/
inductive CommandOutcome (s : State) : Host.Outcome State Fault Refusal → Prop
  | completes (j : Job) (e : ErrCode) (p : Progress) : CommandOutcome s (.next ((s.withJob j).complete e p))
  | enters (j : Job) (checks : s.startCheckFails = false) (memory : s.coversDevice = false)
      (written : (s.withJob j).written = 0) (loop : (s.withJob j).LoopInv) :
      CommandOutcome s (.next (s.withJob j).enterLoop)
  | refused (r : Refusal) : CommandOutcome s (.refused r)

section
variable {s : State}

theorem beginJob_outcome {body : State → Host.Outcome State Fault Refusal}
    (hb : s.startCheckFails = false → CommandOutcome s (body s.initJob)) : CommandOutcome s (beginJob s body) := by
  cases hc : s.startCheckFails with
  | true =>
    rw [beginJob_fail hc]
    exact .completes s.job _ _
  | false =>
    rw [beginJob_pass hc]
    exact hb hc

theorem unlessDevice_outcome {u : State} {body : State → Host.Outcome State Fault Refusal}
    (hb : u.coversDevice = false → CommandOutcome s (body u)) : CommandOutcome s (unlessDevice u body) := by
  cases hd : u.coversDevice with
  | true =>
    rw [unlessDevice_device hd]
    exact .refused _
  | false =>
    rw [unlessDevice_memory hd]
    exact hb hd

theorem lzbHeader_outcome (hop : s.op = 1) (hc : s.startCheckFails = false) (hd : s.coversDevice = false) :
    CommandOutcome s (lzbHeader s.initJob) := by
  rcases Nat.lt_or_ge s.srcLen 8 with hl | hl
  · rw [lzbHeader_short (s := s.initJob) hl]
    exact .completes Job.initial _ _
  cases hw : s.initJob.readHeader.widths.legal with
  | false =>
    rw [lzbHeader_widths (s := s.initJob) hl hw]
    exact .completes s.initJob.readHeader.job _ _
  | true =>
    rcases Nat.lt_or_ge s.dstLen s.initJob.readHeader.osize with hcap | hcap
    · rw [lzbHeader_capacity (s := s.initJob) hl hw hcap]
      exact .completes s.initJob.readHeader.job _ _
    · rw [lzbHeader_loop (s := s.initJob) hl hw hcap]
      exact .enters s.initJob.readHeader.job hc hd s.written_readHeader
        (.of_lzb hop ⟨hw, hcap, Nat.zero_le _, Nat.le_refl 8, hl, Nat.zero_le _⟩)

/-- Entering the loop is the last thing RLE8, RLE16 and CONVERT do. -/
theorem enterLoop_outcome (hc : s.startCheckFails = false) (hl : s.initJob.LoopInv) :
    CommandOutcome s (unlessDevice s.initJob fun s => .next s.enterLoop) :=
  unlessDevice_outcome fun hd => .enters Job.initial hc hd s.written_initJob hl

end

section
variable (ie : Bool) (s : State)

theorem execCmdLzb_outcome : CommandOutcome (s.latchStart 1 ie) (execCmdLzb ie s) :=
  beginJob_outcome fun hc => unlessDevice_outcome fun hd => lzbHeader_outcome rfl hc hd

theorem execCmdRle8_outcome : CommandOutcome (s.latchStart 2 ie) (execCmdRle8 ie s) :=
  beginJob_outcome fun hc => enterLoop_outcome hc (.of_rle8 rfl ⟨Nat.zero_le _, Nat.zero_le _⟩)

theorem execCmdRle16_outcome : CommandOutcome (s.latchStart 3 ie) (execCmdRle16 ie s) := by
  refine beginJob_outcome fun hc => ?_
  split_ifs with hodd
  · exact .completes Job.initial _ _
  · exact enterLoop_outcome hc (.of_rle16 rfl ⟨Nat.mod_two_ne_one.1 hodd, Nat.zero_le _, Nat.zero_le _⟩)

theorem execCmdConvert_outcome : CommandOutcome (s.latchStart 4 ie) (execCmdConvert ie s) := by
  refine beginJob_outcome fun hc => ?_
  split_ifs with hbpp hrow hcap
  · exact .completes Job.initial _ _
  · exact .completes Job.initial _ _
  · exact .completes Job.initial _ _
  · exact enterLoop_outcome hc (.of_convert rfl
      ⟨Bool.eq_true_of_not_eq_false hbpp, Bool.eq_false_iff.2 hrow, Nat.not_lt.1 hcap, Nat.zero_le _, .inr rfl,
        fun _ => rfl⟩)

end

theorem exec_commandOutcome {i : Instr} (hi : i.isCommand = true) (s : State) :
    ∃ op ie, CommandOutcome (s.latchStart op ie) (exec i s) := by
  cases i with
  | cmdLzb ie => exact ⟨1, ie, execCmdLzb_outcome ie s⟩
  | cmdRle8 ie => exact ⟨2, ie, execCmdRle8_outcome ie s⟩
  | cmdRle16 ie => exact ⟨3, ie, execCmdRle16_outcome ie s⟩
  | cmdConvert ie => exact ⟨4, ie, execCmdConvert_outcome ie s⟩
  | _ => cases hi

theorem isCommand_of_decodeCtrl {w : Word} {i : Instr} (h : decodeCtrl w = .ok i) : i.isCommand = true := by
  unfold decodeCtrl at h
  split_ifs at h <;> cases h <;> rfl

/-- The first move of a started job runs a command, or completes it at once where its OP is reserved. -/
theorem engineMove_starting_outcome {s : State} (hp : s.phase = .starting) :
    ∃ op ie, CommandOutcome (s.latchStart op ie) (engineMove s) ∨
      engineMove s = .next (s.complete .configInvalid .checked) := by
  have hf : s.fetch = s.fetchCommand := State.fetch_starting hp
  unfold State.fetchCommand at hf
  split at hf
  · rename_i i hi
    obtain ⟨op, ie, h⟩ := exec_commandOutcome (isCommand_of_decodeCtrl hi) s
    rw [engineMove_run hf]
    exact ⟨op, ie, .inl h⟩
  · exact ⟨0, false, .inr (engineMove_ended hf)⟩

end Sys2Proof.Machine
end

section
/-! The invariant of the machine: every step from a good state goes on to a good one or is refused, and none faults
(10_state.md R26, 20_memory.md R50). -/

namespace Sys2Proof.Machine

/-! ### Safe outcomes -/

/-- The outcome is a good state or a refusal, never a fault. -/
inductive Safe : Host.Outcome State Fault Refusal → Prop
  | next {t : State} (h : t.Inv) : Safe (.next t)
  | refused (r : Refusal) : Safe (.refused r)

theorem Safe.ite {P : Prop} [Decidable P] {o o' : Host.Outcome State Fault Refusal} (h : P → Safe o)
    (h' : ¬P → Safe o') : Safe (if P then o else o') := by
  split
  · exact h ‹_›
  · exact h' ‹_›

theorem State.registerAccess_safe {s t : State} {off : BitVec 6} {size : Nat} (ht : s.inReset = false → t.Inv) :
    Safe (s.registerAccess off size t) :=
  .ite (fun _ => .refused _) fun hr => .ite (fun _ => .next (ht (Bool.eq_false_iff.2 hr))) fun _ => .refused _

theorem State.memoryAccess_safe {s : State} {a : Nat} {o : Host.Outcome State Fault Refusal} (ho : Safe o) :
    Safe (s.memoryAccess a o) :=
  .ite (fun _ => .refused _) fun _ => .ite (fun _ => .refused _) fun _ => ho

/-! ### What makes a state good -/

/-- An idle block over canonical memory, with ERR only beside DONE and a code. -/
theorem State.Inv.of_idle {s : State} (hwf : s.mem.wf = true) (hp : s.phase = .idle)
    (herr : s.win.err = true → s.win.done = true ∧ s.win.errCode ≠ .noError) : s.Inv :=
  ⟨hwf, fun hb => absurd hp (State.busy_iff.1 hb), herr, fun _ => hp, fun hs => Phase.noConfusion (hp.symm.trans hs),
    fun hr => Phase.noConfusion (hp.symm.trans hr)⟩

theorem State.Inv.complete {s : State} (hwf : s.mem.wf = true) (e : ErrCode) (p : Progress) : (s.complete e p).Inv :=
  .of_idle hwf rfl fun h => ⟨rfl, of_decide_eq_true h⟩

theorem State.busy_starting {s : State} (h : s.phase = .starting) : s.busy = true := State.busy_iff.2 (by simp [h])

theorem State.busy_running {s : State} (h : s.phase = .running) : s.busy = true := State.busy_iff.2 (by simp [h])

/-- The start checks read registers alone. -/
theorem State.startCheckFails_congr {s t : State} (hwin : t.win = s.win) : t.startCheckFails = s.startCheckFails := by
  cases s
  cases t
  cases hwin
  rfl

theorem State.coversDevice_congr {s t : State} (hwin : t.win = s.win) (hplatform : t.platform = s.platform) :
    t.coversDevice = s.coversDevice := by
  cases s
  cases t
  cases hwin
  cases hplatform
  rfl

/-- The destination bytes not yet written stay the old ones where they and `before` are left alone. -/
theorem State.unwrittenFrom_of_same {s t : State} {n m : Nat} (h : s.unwrittenFrom n = true) (hnm : n ≤ m)
    (hwin : t.win = s.win) (hbefore : t.before = s.before)
    (hdst : ∀ i, i < s.dstLen → m ≤ i → t.dst i = s.dst i) : t.unwrittenFrom m = true := by
  rw [State.unwrittenFrom_iff] at h ⊢
  intro i hi hm
  rw [State.dstLen, hwin] at hi
  rw [hbefore, State.dstAddr, hwin, hdst i hi hm]
  exact h i hi (hnm.trans hm)

section
variable {s t : State} (h : s.Inv)
include h

/-- A job that goes on is past its START with DONE, ERR and ERRCODE clear, outside reset. -/
theorem State.Inv.of_loop (hb : s.busy = true) (hp : t.phase = .running) (hwf : t.mem.wf = true)
    (hstatus : t.win.done = false ∧ t.win.err = false ∧ t.win.errCode = .noError) (hreset : t.inReset = s.inReset)
    (hjob : t.JobInv) : t.Inv := by
  obtain ⟨-, -, -, hidle, -⟩ := h
  have ⟨_, herr, _⟩ := hstatus
  refine ⟨hwf, fun _ => hstatus, fun he => ?_, fun hr => ?_, fun hs => ?_, fun _ => hjob⟩
  · cases herr.symm.trans he
  · exact absurd (hidle (hreset.symm.trans hr)) (State.busy_iff.1 hb)
  · cases hp.symm.trans hs

/-! ### The engine's moves -/

theorem JobAdvances.inv (hp : s.phase = .running) (ha : JobAdvances s t) : t.Inv := by
  have hbusy := State.busy_running hp
  have ⟨hwf, hstatus, _, _, _, hrun⟩ := h
  obtain ⟨hchecks, hmemory, hunwritten, -⟩ := hrun hp
  cases ha with
  | completes j e _ eq =>
    subst eq
    exact .complete (s := s.withJob j) hwf _ _
  | stores n f stored room written loop =>
    obtain ⟨hwin, hphase, hplatform, hreset, -, -, -, hbefore⟩ := stored.block
    refine h.of_loop hbusy (hphase.trans hp) stored.wf (by rw [hwin]; exact hstatus hbusy) hreset
      ⟨(State.startCheckFails_congr hwin).trans hchecks, (State.coversDevice_congr hwin hplatform).trans hmemory, ?_,
        loop⟩
    refine State.unwrittenFrom_of_same hunwritten (by omega) hwin hbefore fun i hi hm => ?_
    rw [State.dst, State.dstAddr, hwin]
    exact stored.outside _ (by simp only [State.dstAddr]; omega)

theorem CommandOutcome.safe {op : BitVec 3} {ie : Bool} {o : Host.Outcome State Fault Refusal}
    (hp : s.phase = .starting) (ho : CommandOutcome (s.latchStart op ie) o) : Safe o := by
  have ⟨hwf, _, _, _, hstart, _⟩ := h
  cases ho with
  | completes j e p => exact .next (.complete (s := (s.latchStart op ie).withJob j) hwf e p)
  | refused r => exact .refused r
  | enters j checks memory written loop =>
    refine .next (h.of_loop (State.busy_starting hp) rfl hwf ⟨rfl, rfl, rfl⟩ rfl ⟨checks, memory, ?_, loop⟩)
    exact (congrArg _ written).trans (hstart hp)

theorem engineMove_safe : Safe (engineMove s) := by
  cases hp : s.phase with
  | idle =>
    rw [engineMove_wait (State.fetch_idle hp)]
    exact .next h
  | starting =>
    have ⟨hwf, _⟩ := h
    obtain ⟨op, ie, ho | ho⟩ := engineMove_starting_outcome hp
    · exact ho.safe h hp
    · rw [ho]
      exact .next (.complete hwf _ _)
  | running =>
    obtain ⟨t, ho, ha⟩ := (RunningJob.of_inv h hp).advances
    rw [ho]
    exact .next (ha.inv h hp)

/-! ### Register accesses -/

/-- A parameter write leaves STATUS alone. -/
theorem State.Inv.writeParam {w : Window} (hd : w.done = s.win.done) (he : w.err = s.win.err)
    (hc : w.errCode = s.win.errCode) : (s.writeParam w).Inv := by
  cases hb : s.busy with
  | true =>
    rw [State.writeParam_busy hb]
    exact h
  | false =>
    obtain ⟨hwf, -, herr, -⟩ := h
    rw [State.writeParam_idle hb]
    refine .of_idle hwf (State.not_busy_iff.1 hb) ?_
    rwa [State.withWin_win, hd, he, hc]

/-- A CTRL write sets IE, or starts a job whose destination is as it is at START. -/
theorem State.Inv.writeCtrl (hr : s.inReset = false) (v : Word) : (s.writeCtrl v).Inv := by
  have ⟨hwf, _, herr, hidle, _⟩ := h
  cases hb : s.busy with
  | true =>
    rw [State.writeCtrl_busy hb]
    exact h
  | false =>
    have hp := State.not_busy_iff.1 hb
    cases hv : v.getLsbD 0 with
    | false =>
      rw [State.writeCtrl_noStart hb hv]
      exact .of_idle hwf hp herr
    | true =>
      rw [State.writeCtrl_start hb hv]
      refine ⟨hwf, fun _ => ⟨rfl, rfl, rfl⟩, nofun, fun hr' => Bool.noConfusion (hr.symm.trans hr'), fun _ => ?_, nofun⟩
      exact (State.unwrittenFrom_iff _ _).2 fun _ _ _ => rfl

theorem State.Inv.writeStatus (v : Word) : (s.writeStatus v).Inv := by
  cases hv : v.getLsbD 1 with
  | false =>
    rw [State.writeStatus_ignored hv]
    exact h
  | true =>
    rw [State.writeStatus_acknowledge hv]
    obtain ⟨hwf, hbusy, -, hidle, hstart, hrun⟩ := h
    refine ⟨hwf, fun hb => ?_, nofun, hidle, hstart, hrun⟩
    obtain ⟨-, -, hcode⟩ := hbusy hb
    exact ⟨rfl, rfl, hcode⟩

theorem State.Inv.writeRegister (hr : s.inReset = false) (off : BitVec 6) (v : Word) : (s.writeRegister off v).Inv := by
  unfold State.writeRegister
  split_ifs
  · exact h.writeCtrl hr v
  · exact h.writeStatus v
  · exact h.writeParam rfl rfl rfl
  · exact h.writeParam rfl rfl rfl
  · exact h.writeParam rfl rfl rfl
  · exact h.writeParam rfl rfl rfl
  · exact h.writeParam rfl rfl rfl
  · exact h.writeParam rfl rfl rfl
  · exact h

theorem State.Inv.readRegister (off : BitVec 6) : (s.readRegister off).Inv := by
  unfold State.readRegister
  split <;> exact h

/-! ### Memory accesses -/

/-- Memory may change outside a BUSY job's destination. -/
theorem State.Inv.withMem {m : Memory} (hm : m.wf = true)
    (hdst : s.busy = true → ∀ i, i < s.dstLen → (s.withMem m).dst i = s.dst i) : (s.withMem m).Inv := by
  obtain ⟨-, hbusy, herr, hidle, hstart, hrun⟩ := h
  refine ⟨hm, hbusy, herr, hidle, fun hp => ?_, fun hp => ?_⟩
  · exact State.unwrittenFrom_of_same (hstart hp) (Nat.le_refl 0) rfl rfl fun i hi _ =>
      hdst (State.busy_starting hp) i hi
  · obtain ⟨hchecks, hmemory, hunwritten, hloop⟩ := hrun hp
    exact ⟨hchecks, hmemory, State.unwrittenFrom_of_same hunwritten (Nat.le_refl _) rfl rfl fun i hi _ =>
      hdst (State.busy_running hp) i hi, hloop⟩

theorem busMemWrite_safe (a : Word) (b : Byte) : Safe (busMemWrite a b s) := by
  have ⟨hwf, _⟩ := h
  refine State.memoryAccess_safe (.ite (fun _ => .refused _) fun hfree => .next (h.withMem ?_ fun hb i hi => ?_))
  · exact Memory.wf_write hwf b a.isLt
  · have hne : a.toNat ≠ s.dstAddr + i := fun ha => by
      have hin : s.inDst a.toNat = true := by simp [State.inDst, inRange, ha, hi]
      exact hfree (by simp [hb, hin])
    exact (Memory.read_write hwf _ _ b).trans (if_neg hne)

theorem busMemRead_safe (a : Word) : Safe (busMemRead a s) :=
  State.memoryAccess_safe (.ite (fun _ => .next (t := (s.reply _).withDraws _) h) fun _ => .next (t := s.reply _) h)

end

/-! ### Reset -/

section
variable {s : State}

/-- Without a job that passes its checks there are no destination bytes to draw. -/
theorem State.abandonJob_kept (h : s.busy = false ∨ s.startCheckFails = true) : s.abandonJob = s :=
  if_neg (by rcases h with h | h <;> simp [h])

theorem State.abandonJob_drawn (hb : s.busy = true) (hc : s.startCheckFails = false) : s.abandonJob =
    (s.withMem (s.mem.fill s.dstAddr (fun i => s.drawByte s.jobEnd (s.dstAddr + i) (s.draws + i)) s.dstLen)).withDraws
      (s.draws + s.dstLen) := if_pos (by simp [hb, hc])

/-- A reset abandons no job, or draws the destination of one that passed its checks. -/
theorem State.abandonJob_cases (s : State) :
    (s.busy = false ∨ s.startCheckFails = true) ∨ s.busy = true ∧ s.startCheckFails = false := by
  cases hc : s.startCheckFails with
  | true => exact .inl (.inr rfl)
  | false =>
    cases hb : s.busy with
    | true => exact .inr ⟨rfl, rfl⟩
    | false => exact .inl (.inl rfl)

theorem State.dstFits_of_checks (hc : s.startCheckFails = false) : s.dstAddr + s.dstLen ≤ spaceSize := by
  obtain ⟨-, -, hdst, -⟩ := State.startCheckFails_eq_false hc
  exact of_decide_eq_true hdst

theorem State.wf_abandonJob (hwf : s.mem.wf = true) : s.abandonJob.mem.wf = true := by
  rcases s.abandonJob_cases with h | ⟨hb, hc⟩
  · rwa [State.abandonJob_kept h]
  · rw [State.abandonJob_drawn hb hc]
    exact Memory.wf_fill hwf _ _ _ (State.dstFits_of_checks hc)

theorem busResetAssert_safe (hwf : s.mem.wf = true) : Safe (busResetAssert s) :=
  .next (.of_idle (State.wf_abandonJob hwf) rfl nofun)

theorem busResetRelease_safe (h : s.Inv) : Safe (busResetRelease s) := by
  have ⟨hwf, _⟩ := h
  unfold busResetRelease
  split
  · exact .next (.of_idle hwf rfl nofun)
  · exact .next h

/-! ### Any step -/

theorem step_safe (h : s.Inv) : Safe (step s) := by
  have ⟨hwf, _⟩ := h
  have hrest (rest : List BusEvent) : (s.withInbox rest).Inv := h
  cases hi : s.inbox with
  | nil => exact step_engine hi ▸ engineMove_safe h
  | cons ev rest =>
    cases ev with
    | regWrite off size v =>
      exact step_regWrite hi ▸ State.registerAccess_safe fun hr => (hrest rest).writeRegister hr off v
    | regRead off size => exact step_regRead hi ▸ State.registerAccess_safe fun _ => (hrest rest).readRegister off
    | memWrite a b => exact step_memWrite hi ▸ busMemWrite_safe (hrest rest) a b
    | memRead a => exact step_memRead hi ▸ busMemRead_safe (hrest rest) a
    | resetAssert => exact step_resetAssert hi ▸ busResetAssert_safe hwf
    | resetRelease => exact step_resetRelease hi ▸ busResetRelease_safe (hrest rest)
    | engineTurn => exact step_engineTurn hi ▸ engineMove_safe (hrest rest)
    | waitDone =>
      exact step_waitDone hi ▸ .ite (fun _ => .refused _) fun _ =>
        .ite (fun _ => .next (hrest rest)) fun _ => engineMove_safe h
    | waitIrq => exact step_waitIrq hi ▸ .ite (fun _ => .next (hrest rest)) fun _ => engineMove_safe h

end

/-! ### The obligations -/

/-- Settles O42: the block is idle, its memory empty. -/
theorem resetMeetsTheInvariant : Obligations.ResetMeetsTheInvariant := State.Inv.of_idle rfl rfl nofun

theorem step_inv {s t : State} (h : s.Inv) (hs : step s = .next t) : t.Inv := by
  have hsafe := step_safe h
  rw [hs] at hsafe
  cases hsafe
  assumption

/-- Settles O43: a step from a good state is safe (`step_safe`). -/
theorem stepKeepsTheInvariant : Obligations.StepKeepsTheInvariant := fun _ _ => step_inv

/-- Settles O44: a safe outcome is no fault. -/
theorem goodStatesNeverFault : Obligations.GoodStatesNeverFault := by
  intro s f h hs
  have hsafe := step_safe h
  rw [hs] at hsafe
  cases hsafe

/-- Settles O46: the two ways a move of a good running job goes (`JobAdvances`). -/
theorem engineWritesOnlyTheBytesItReports : Obligations.EngineWritesOnlyTheBytesItReports := by
  intro s t h hp hi hs
  have hrun := RunningJob.of_inv h hp
  obtain ⟨u, hu, ha⟩ := hrun.advances
  cases hu.symm.trans ((step_engine hi).symm.trans hs)
  cases ha with
  | stores n f stored room written loop =>
    obtain ⟨-, hphase, -⟩ := stored.block
    refine ⟨by omega, by omega, ?_, fun hidle => ?_⟩
    · rw [written, Nat.add_sub_cancel_left]
      exact stored.outside
    · cases hp.symm.trans (hphase.symm.trans hidle)
  | completes j e written eq =>
    subst eq
    have hw : ((s.withJob j).complete e .headerRead).written = s.written := written
    have hle := hrun.written_le
    rw [hw]
    refine ⟨Nat.le_refl _, hle, fun _ _ => rfl, fun _ => ⟨rfl, ?_, rfl⟩⟩
    exact (congrArg (fun n => (BitVec.ofNat 32 n).toNat) written).trans
      ((BitVec.toNat_ofNat _ _).trans (Nat.mod_eq_of_lt (hle.trans_lt s.win.dstLen.isLt)))

end Sys2Proof.Machine
end

section
/-! The completion of a BUSY job as the draws see it (20_memory.md R64, 70_reset_and_hazards.md R221): the run that ends
the job ends where `jobEnd` says, and beyond the DST_POS it reports the destination is as it was at START. -/

namespace Sys2Proof.Machine

/-! ### The job's own end -/

theorem run_succ {k : Nat} {s t : State} (h : Host.Core.run core (k + 1) s = .next t) :
    ∃ u, step s = .next u ∧ Host.Core.run core k u = .next t := by
  simp only [Host.Core.run] at h
  split at h
  · exact ⟨_, ‹_›, h⟩
  · cases h
  · cases h

/-- The work a good running job has left fits the bound on its moves (40_jobs.md R99). -/
theorem State.Inv.workLeft_lt {s : State} (h : s.Inv) (hp : s.phase = .running) : s.workLeft + 2 ≤ s.moveBound := by
  have hrun := RunningJob.of_inv h hp
  have hop := hrun.command
  obtain ⟨hlzb, -⟩ := hrun.loop
  have hbound : s.moveBound = 8 * s.srcLen + s.width * s.height + 2 := rfl
  simp only [List.mem_cons, List.not_mem_nil, or_false] at hop
  rcases hop with hop | hop | hop | hop
  · obtain ⟨-, -, -, hheader, hcursor, hcnt⟩ := hlzb hop
    have hheader : 8 ≤ s.inPos := hheader
    rw [State.workLeft_lzb hop, State.length_streamBits]
    omega
  · rw [State.workLeft_rle (.inl hop)]
    omega
  · rw [State.workLeft_rle (.inr hop)]
    omega
  · rw [State.workLeft_convert hop, Nat.mul_comm s.height]
    omega

section
variable {s t : State} (h : s.Inv) (hi : s.inbox = [])
include h hi

/-- A good running job completes within the bound on its moves. -/
theorem State.Inv.run_running (hp : s.phase = .running) :
    ∃ k u, k + 1 ≤ s.moveBound ∧ Host.Core.run core k s = .next u ∧ u.phase = .idle := by
  obtain ⟨k, u, hk, hrun, hidle, -⟩ := (GoodJob.of_inv h hp hi).completes
  exact ⟨k, u, by have := h.workLeft_lt hp; omega, hrun, hidle⟩

/-- So does a started one whose first move goes on: it completes at once, or enters the loop with the same
parameters. -/
theorem State.Inv.run_starting (hp : s.phase = .starting) (hs : step s = .next t) :
    ∃ k u, k ≤ s.moveBound ∧ Host.Core.run core k s = .next u ∧ u.phase = .idle := by
  have hmove := (step_engine hi).symm.trans hs
  cases engineMove_starting hp hmove with
  | completes u e p _ eq => exact ⟨1, t, Nat.le_add_left 1 _, run_next hs, eq ▸ rfl⟩
  | goesOn _ hp' =>
    obtain ⟨-, -, hinbox, -⟩ := engineMove_sameWorld hmove
    obtain ⟨k, u, hk, hrun, hidle⟩ := (step_inv h hs).run_running (hinbox.trans hi) hp'
    obtain ⟨-, -, hsrcLen, -, -, -, hheight, hwidth, -⟩ :=
      engineMove_sameParameters (State.busy_starting hp) (State.busy_running hp') hmove
    have hbound : t.moveBound = s.moveBound := by
      simp only [State.moveBound, State.srcLen, State.width, State.height, hsrcLen, hheight, hwidth]
    exact ⟨k + 1, u, hbound ▸ hk, (run_next hs).trans hrun, hidle⟩

/-- What a good running job has written is part of what it reports in the end. -/
theorem State.Inv.written_le_dstPos (hp : s.phase = .running) {k : Nat} (hr : Host.Core.run core k s = .next t)
    (ht : t.phase = .idle) : s.written ≤ t.win.dstPos.toNat := by
  induction k generalizing s with
  | zero =>
    cases hr
    cases hp.symm.trans ht
  | succ k ih =>
    obtain ⟨u, hs, hr⟩ := run_succ hr
    have hmove := (step_engine hi).symm.trans hs
    obtain ⟨-, -, hinbox, -⟩ := engineMove_sameWorld hmove
    obtain ⟨hle, -, -, hidle⟩ := engineWritesOnlyTheBytesItReports s u h hp hi hs
    cases engineMove_running hp hmove with
    | goesOn _ hp' => exact hle.trans (ih (step_inv h hs) (hinbox.trans hi) hp' hr)
    | completes v e p _ eq =>
      have hu : u.phase = .idle := eq ▸ rfl
      cases (run_idle hu (hinbox.trans hi) k).symm.trans hr
      obtain ⟨-, hpos, -⟩ := hidle hu
      exact hpos.ge

end

section
variable {s t : State} {k : Nat} (h : s.Inv) (hb : s.busy = true)
  (hr : Host.Core.run core k (s.withInbox []) = .next t) (ht : t.phase = .idle)
include h hb hr ht

/-- A BUSY job that the engine alone brings to an end ends where `jobEnd` says. -/
theorem State.Inv.jobEnd_eq : s.jobEnd = some t := by
  have hinv : (s.withInbox []).Inv := h
  have hbusy := State.busy_iff.1 hb
  obtain ⟨k', u, hk, hrun, hidle⟩ :
      ∃ k' u, k' ≤ s.moveBound ∧ Host.Core.run core k' (s.withInbox []) = .next u ∧ u.phase = .idle := by
    cases hp : s.phase with
    | idle => exact absurd hp hbusy
    | running =>
      obtain ⟨k', u, hk, hrun⟩ := hinv.run_running rfl hp
      exact ⟨k', u, Nat.le_of_succ_le hk, hrun⟩
    | starting =>
      cases k with
      | zero =>
        cases hr
        exact absurd ht hbusy
      | succ k =>
        obtain ⟨v, hs, -⟩ := run_succ hr
        exact hinv.run_starting rfl hp hs
  have hend := State.jobEnd_eq hbusy hk hrun hidle
  rw [State.jobEnd_unique hend hr ht, hend]

/-- At and beyond the DST_POS it will report, a job's destination is as it was at START. -/
theorem State.Inv.unwritten_of_run {i : Nat} (hi : i < s.dstLen) (hpos : t.win.dstPos.toNat ≤ i) :
    s.before.read (s.dstAddr + i) = s.dst i := by
  have hinv : (s.withInbox []).Inv := h
  obtain ⟨-, -, -, -, hstart, hrun⟩ := h
  cases hp : s.phase with
  | idle => exact absurd hp (State.busy_iff.1 hb)
  | starting => exact (State.unwrittenFrom_iff _ _).1 (hstart hp) i hi (Nat.zero_le i)
  | running =>
    obtain ⟨-, -, hunwritten, -⟩ := hrun hp
    have hle : s.written ≤ t.win.dstPos.toNat := hinv.written_le_dstPos rfl hp hr ht
    exact (State.unwrittenFrom_iff _ _).1 hunwritten i hi (hle.trans hpos)

end

/-! ### The draws -/

/-- `v` is the old value of destination byte `i` of the job of `s`, or the one the job, which completes in `t`, writes
there; where it does not write, the byte as it is. -/
abbrev OldOrWritten (s t : State) (i : Nat) (v : Byte) : Prop :=
  (v = s.before.read (s.dstAddr + i) ∨ v = t.mem.read (s.dstAddr + i)) ∧
    (t.win.dstPos.toNat ≤ i → v = s.dst i ∧ v = s.before.read (s.dstAddr + i))

theorem State.Inv.drawByte_oldOrWritten {s t : State} {k i : Nat} (h : s.Inv) (hb : s.busy = true)
    (hr : Host.Core.run core k (s.withInbox []) = .next t) (ht : t.phase = .idle) (hi : i < s.dstLen) (n : Nat) :
    OldOrWritten s t i (s.drawByte s.jobEnd (s.dstAddr + i) n) := by
  rw [h.jobEnd_eq hb hr ht]
  have hkept (hpos : t.win.dstPos.toNat ≤ i) : s.drawByte (some t) (s.dstAddr + i) n = s.dst i :=
    State.drawByte_unwritten (Nat.add_le_add_left hpos _)
  have hold (hpos : t.win.dstPos.toNat ≤ i) : s.drawByte (some t) (s.dstAddr + i) n = s.before.read (s.dstAddr + i) :=
    (hkept hpos).trans (h.unwritten_of_run hb hr ht hi hpos).symm
  refine ⟨?_, fun hpos => ⟨hkept hpos, hold hpos⟩⟩
  obtain hnew | hbefore | ⟨hpos, -⟩ := State.drawByte_cases (s := s) (t := t) (s.dstAddr + i) n
  · exact .inr hnew
  · exact .inl hbefore
  · exact .inl (hold (Nat.le_of_add_le_add_left hpos))

/-! ### Overlapping ranges -/

theorem State.rangesFail_of_shared {s : State} {a : Nat} (hsrc : s.inSrc a = true) (hdst : s.inDst a = true) :
    ¬s.RangesPass := by
  simp only [State.inSrc, State.inDst, inRange, Bool.and_eq_true, decide_eq_true_eq] at hsrc hdst
  rintro ⟨-, -, hapart⟩
  omega

/-- A command whose range checks fail completes with no byte written. -/
theorem engineMove_rangesFail {s : State} (hp : s.phase = .starting) (h : ¬s.RangesPass) :
    ∃ t, engineMove s = .next t ∧ t.phase = .idle ∧ t.win.dstPos = 0 := by
  obtain ⟨hreject, -⟩ := startChecksRejectBadJobs
  have hf : s.fetch = s.fetchCommand := State.fetch_starting hp
  unfold State.fetchCommand at hf
  rw [decodeCtrl_startWord] at hf
  split_ifs at hf
  · exact ⟨_, (engineMove_run hf).trans (hreject s.win.ie s _ 1 h (by simp)), rfl, rfl⟩
  · exact ⟨_, (engineMove_run hf).trans (hreject s.win.ie s _ 2 h (by simp)), rfl, rfl⟩
  · exact ⟨_, (engineMove_run hf).trans (hreject s.win.ie s _ 3 h (by simp)), rfl, rfl⟩
  · exact ⟨_, (engineMove_run hf).trans (hreject s.win.ie s _ 4 h (by simp)), rfl, rfl⟩
  · exact ⟨_, engineMove_ended hf, rfl, rfl⟩

/-- A byte of both ranges reads as it is: the job that has them does not pass its start checks. -/
theorem State.Inv.drawByte_shared {s : State} {a : Nat} (h : s.Inv) (hb : s.busy = true) (hsrc : s.inSrc a = true)
    (hdst : s.inDst a = true) (n : Nat) : s.drawByte s.jobEnd a n = s.mem.read a := by
  have hfail := State.rangesFail_of_shared hsrc hdst
  have hbusy := State.busy_iff.1 hb
  cases hp : s.phase with
  | idle => exact absurd hp hbusy
  | running =>
    have hop := (RunningJob.of_inv h hp).command
    obtain ⟨-, -, -, -, -, hrun⟩ := h
    obtain ⟨hchecks, -⟩ := hrun hp
    cases hchecks.symm.trans ((State.startCheckFails_iff (by simpa using hop)).2 hfail)
  | starting =>
    obtain ⟨t, hmove, hidle, hpos⟩ := engineMove_rangesFail (s := s.withInbox []) hp hfail
    have hend : s.jobEnd = some t :=
      State.jobEnd_eq hbusy (Nat.le_add_left 1 _) (run_next ((step_engine rfl).trans hmove)) hidle
    simp only [State.inDst, inRange, Bool.and_eq_true, decide_eq_true_eq] at hdst
    obtain ⟨hle, -⟩ := hdst
    rw [hend]
    exact State.drawByte_unwritten (by rw [hpos]; exact hle)

/-! ### Accesses while BUSY -/

theorem step_memWrite_buffer {s : State} {a : Word} {b : Byte} {rest : List BusEvent} (hb : s.busy = true)
    (hw : s.inWindow a.toNat = false) (hd : s.inDevice a.toNat = false) (hi : s.inbox = .memWrite a b :: rest)
    (hbuf : s.inSrc a.toNat = true ∨ s.inDst a.toNat = true) : step s = .refused .writeDuringJob := by
  refine (step_memWrite hi).trans ((State.memoryAccess_ordinary (s := s.withInbox rest) hw hd).trans (if_pos ?_))
  exact (Bool.and_eq_true _ _).mpr ⟨hb, (Bool.or_eq_true _ _).mpr hbuf⟩

theorem step_memRead_drawn {s : State} {a : Word} {rest : List BusEvent} (hb : s.busy = true)
    (hw : s.inWindow a.toNat = false) (hd : s.inDevice a.toNat = false) (hi : s.inbox = .memRead a :: rest)
    (hdst : s.inDst a.toNat = true) : step s = .next { s with
      inbox := rest, replies := .byte (s.drawByte s.jobEnd a.toNat s.draws) :: s.replies, draws := s.draws + 1 } :=
  (step_memRead hi).trans ((State.memoryAccess_ordinary (s := s.withInbox rest) hw hd).trans
    (if_pos ((Bool.and_eq_true _ _).mpr ⟨hb, hdst⟩)))

/-- Settles O34: a write is refused (`step_memWrite_buffer`), a read outside the destination answers the byte
(`step_memRead_value`), a read inside it a draw (`step_memRead_drawn`), which is the byte itself where the ranges
overlap (`State.Inv.drawByte_shared`) and the old or the written one (`State.Inv.drawByte_oldOrWritten`). -/
theorem buffersAreTheEnginesWhileBusy : Obligations.BuffersAreTheEnginesWhileBusy := by
  refine fun s a b rest hb hw hd => ⟨step_memWrite_buffer hb hw hd, fun hi hdst => ?_, fun hi hdst => ?_⟩
  · exact step_memRead_value hi hw hd fun _ => hdst
  · refine ⟨_, step_memRead_drawn hb hw hd hi hdst, fun hinv hsrc => hinv.drawByte_shared hb hsrc hdst _,
      fun hinv k t hr ht => ?_⟩
    simp only [State.inDst, inRange, Bool.and_eq_true, decide_eq_true_eq] at hdst
    obtain ⟨hle, hlt⟩ := hdst
    obtain ⟨i, hai⟩ := Nat.exists_eq_add_of_le hle
    rw [hai] at hlt ⊢
    obtain ⟨hvalue, hkept⟩ := hinv.drawByte_oldOrWritten hb hr ht (Nat.lt_of_add_lt_add_left hlt) s.draws
    exact ⟨hvalue, fun hpos => hkept (Nat.le_of_add_le_add_left hpos)⟩

/-! ### Reset -/

theorem State.abandonJob_frame (s : State) : s.abandonJob.platform = s.platform ∧ s.abandonJob.inbox = s.inbox := by
  unfold State.abandonJob
  split <;> exact ⟨rfl, rfl⟩

section
variable {s : State} (hwf : s.mem.wf = true)
include hwf

/-- Abandoning a job draws its destination bytes alone. -/
theorem State.abandonJob_outside : SameMemoryOutside s s.abandonJob s.dstAddr s.dstLen := by
  rcases s.abandonJob_cases with h | ⟨hb, hc⟩
  · rw [State.abandonJob_kept h]
    exact fun _ _ => rfl
  · rw [State.abandonJob_drawn hb hc]
    exact fun b hout => (Memory.read_fill hwf _ _ b _ (State.dstFits_of_checks hc)).trans (if_neg hout)

/-- The source of an abandoned job is apart from its destination. -/
theorem State.abandonJob_src {i : Nat} (hi : i < s.srcLen) : s.abandonJob.mem.read (s.srcAddr + i) = s.src i := by
  rcases s.abandonJob_cases with h | ⟨-, hc⟩
  · rw [State.abandonJob_kept h, State.src]
  · obtain ⟨-, -, -, hapart⟩ := State.startCheckFails_eq_false hc
    simp only [rangesMeet, Bool.and_eq_false_iff, decide_eq_false_iff_not] at hapart
    exact State.abandonJob_outside hwf _ (by omega)

end

/-- Each destination byte of an abandoned job is left old or as the job would have written it; a job that fails its
start checks writes none. -/
theorem State.Inv.abandonJob_oldOrWritten {s t : State} {k i : Nat} (h : s.Inv) (hb : s.busy = true)
    (hr : Host.Core.run core k (s.withInbox []) = .next t) (ht : t.phase = .idle) (hi : i < s.dstLen) :
    OldOrWritten s t i (s.abandonJob.mem.read (s.dstAddr + i)) := by
  have ⟨hwf, _, _, _, hstart, hrun⟩ := h
  cases hc : s.startCheckFails with
  | false =>
    have hread : s.abandonJob.mem.read (s.dstAddr + i) = s.drawByte s.jobEnd (s.dstAddr + i) (s.draws + i) := by
      rw [State.abandonJob_drawn hb hc]
      refine (Memory.read_fill hwf _ _ (s.dstAddr + i) _ (State.dstFits_of_checks hc)).trans ?_
      rw [if_pos (by omega), Nat.add_sub_cancel_left]
    rw [hread]
    exact h.drawByte_oldOrWritten hb hr ht hi _
  | true =>
    rw [State.abandonJob_kept (.inr hc)]
    have hold : s.before.read (s.dstAddr + i) = s.dst i := by
      cases hp : s.phase with
      | idle => exact absurd hp (State.busy_iff.1 hb)
      | starting => exact (State.unwrittenFrom_iff _ _).1 (hstart hp) i hi (Nat.zero_le i)
      | running =>
        obtain ⟨hchecks, -⟩ := hrun hp
        cases hchecks.symm.trans hc
    exact ⟨.inl hold.symm, fun _ => ⟨rfl, hold.symm⟩⟩

/-- The registers of an idle block at their reset values all read 0. -/
theorem State.register_reset {s : State} (hw : s.win = Window.reset) (hp : s.phase = .idle) (off : BitVec 6) :
    s.register off = 0 := by
  have hctrl : s.ctrlWord = 0 := by
    rw [State.ctrlWord, hw]
    decide
  have hstatus : s.statusWord = 0 := by
    rw [State.statusWord, State.not_busy_iff.2 hp, hw]
    decide
  have hgeom0 : s.geom0Word = 0 := by
    rw [State.geom0Word, hw]
    decide
  have hgeom1 : s.geom1Word = 0 := by
    rw [State.geom1Word, hw]
    decide
  simp only [State.register, hctrl, hstatus, hgeom0, hgeom1, hw, Window.reset, ite_self]

/-- Settles O36: an assertion abandons the job (`State.abandonJob_outside`, `State.abandonJob_src`,
`State.Inv.abandonJob_oldOrWritten`) and resets the block, a release resets it again (`State.register_reset`). -/
theorem resetAbandonsTheJob : Obligations.ResetAbandonsTheJob := by
  refine ⟨fun s rest hwf hi => ?_, fun s rest hr hi => ?_⟩
  · obtain ⟨hplatform, hinbox⟩ := (s.withInbox rest).abandonJob_frame
    have hmem (hb : s.busy = false) : (s.withInbox rest).abandonJob.mem = s.mem :=
      congrArg (·.mem) (State.abandonJob_kept (s := s.withInbox rest) (Or.inl hb))
    exact ⟨_, step_resetAssert hi, rfl, rfl, rfl, rfl, hinbox, hplatform,
      State.wf_abandonJob (s := s.withInbox rest) hwf, hmem, State.abandonJob_outside (s := s.withInbox rest) hwf,
      fun i => State.abandonJob_src (s := s.withInbox rest) hwf,
      fun hinv hb k u hr hu i => State.Inv.abandonJob_oldOrWritten (s := s.withInbox rest) hinv hb hr hu⟩
  · have hstep : step s = .next ((s.withInbox rest).blockReset.withInReset false) :=
      (step_resetRelease hi).trans (congrArg Host.Outcome.next (if_pos hr))
    exact ⟨_, hstep, rfl, rfl, rfl, rfl, rfl, rfl, rfl, State.register_reset rfl rfl⟩

end Sys2Proof.Machine
end

section
/-! Encoding and decoding are inverse (30_encoding.md R70 to R80): the decoder reads an encoded instruction back
whatever follows it, and a stream text that decodes starts with the encoding of its token. -/

namespace Sys2Proof

/-! ### A field as its bits -/

/-- A field's bits, read back into a register of `n` bits that it fits. -/
theorem ofNat_ofBits_bitsOf {n k : Nat} {v : BitVec n} (h : v.toNat < 2 ^ k) :
    BitVec.ofNat n (ofBits (bitsOf k v.toNat)) = v := by
  rw [ofBits_bitsOf, Nat.mod_eq_of_lt h, BitVec.ofNat_toNat, BitVec.setWidth_eq]

/-- The number of a field of `k` bits read from a stream, in a register of at least that many. -/
theorem toNat_ofNat_ofBits {n k : Nat} {bits : List Bool} (hl : bits.length = k) (hk : k ≤ n) :
    (BitVec.ofNat n (ofBits bits)).toNat = ofBits bits := by
  have hlt : ofBits bits < 2 ^ k := hl ▸ ofBits_lt bits
  rw [BitVec.toNat_ofNat, Nat.mod_eq_of_lt (hlt.trans_le (Nat.pow_le_pow_right Nat.two_pos hk))]

/-- A field read from a stream fits its width, and its bits are those of the stream. -/
theorem field_of_bits {n k : Nat} {bits : List Bool} (hl : bits.length = k) (hk : k ≤ n) :
    (BitVec.ofNat n (ofBits bits)).toNat < 2 ^ k ∧ bitsOf k (BitVec.ofNat n (ofBits bits)).toNat = bits := by
  rw [toNat_ofNat_ofBits hl hk]
  subst hl
  exact ⟨ofBits_lt bits, bitsOf_ofBits bits⟩

/-! ### The LZB decoder's equations -/

section
variable {w : Widths} (hw : w.legal = true) {t : List Bool}
include hw

theorem decodeLzb_nil : decodeLzb w [] = .error (.streamEnd 0) := if_neg (ne_false_of_eq_true hw)

theorem decodeLzb_lit (ht : 8 ≤ t.length) :
    decodeLzb w (true :: t) = .ok (.lit (BitVec.ofNat 8 (ofBits (t.take 8))), 9) :=
  (if_neg (ne_false_of_eq_true hw)).trans (if_neg (Nat.not_lt.2 ht))

theorem decodeLzb_litCut (ht : t.length < 8) : decodeLzb w (true :: t) = .error (.streamEnd 1) :=
  (if_neg (ne_false_of_eq_true hw)).trans (if_pos ht)

theorem decodeLzb_offsetCut (ht : t.length < w.obits) : decodeLzb w (false :: t) = .error (.streamEnd 1) :=
  (if_neg (ne_false_of_eq_true hw)).trans (if_pos ht)

theorem decodeLzb_lengthCut (ho : w.obits ≤ t.length) (ht : t.length < w.obits + w.mbits) :
    decodeLzb w (false :: t) = .error (.streamEnd (1 + w.obits)) :=
  (if_neg (ne_false_of_eq_true hw)).trans ((if_neg (Nat.not_lt.2 ho)).trans (if_pos ht))

theorem decodeLzb_ref (ht : w.obits + w.mbits ≤ t.length) : decodeLzb w (false :: t) =
    .ok (.ref (BitVec.ofNat 32 (ofBits (t.take w.obits)))
      (BitVec.ofNat 32 (ofBits ((t.drop w.obits).take w.mbits))), 1 + w.obits + w.mbits) :=
  (if_neg (ne_false_of_eq_true hw)).trans
    ((if_neg (Nat.not_lt.2 ((Nat.le_add_right _ _).trans ht))).trans (if_neg (Nat.not_lt.2 ht)))

end

theorem decodeLzb_illegal {w : Widths} (hw : w.legal = false) (bits : List Bool) :
    decodeLzb w bits = .error .illegalWidths := if_pos hw

/-- What a stream that decodes is: a literal's nine bits, or a back-reference's. -/
theorem decodeLzb_ok {w : Widths} {bits : List Bool} {i : Instr} {n : Nat} (h : decodeLzb w bits = .ok (i, n)) :
    w.legal = true ∧
      ((∃ t, bits = true :: t ∧ 8 ≤ t.length ∧ i = .lit (BitVec.ofNat 8 (ofBits (t.take 8))) ∧ n = 9) ∨
        ∃ t, bits = false :: t ∧ w.obits + w.mbits ≤ t.length ∧
          i = .ref (BitVec.ofNat 32 (ofBits (t.take w.obits)))
            (BitVec.ofNat 32 (ofBits ((t.drop w.obits).take w.mbits))) ∧ n = 1 + w.obits + w.mbits) := by
  cases hw : w.legal with
  | false => cases (decodeLzb_illegal hw bits).symm.trans h
  | true =>
    refine ⟨rfl, ?_⟩
    match bits with
    | [] => cases (decodeLzb_nil hw).symm.trans h
    | true :: t =>
      rcases Nat.lt_or_ge t.length 8 with ht | ht
      · cases (decodeLzb_litCut hw ht).symm.trans h
      · cases (decodeLzb_lit hw ht).symm.trans h
        exact .inl ⟨t, rfl, ht, rfl, rfl⟩
    | false :: t =>
      rcases Nat.lt_or_ge t.length (w.obits + w.mbits) with ht | ht
      · rcases Nat.lt_or_ge t.length w.obits with ho | ho
        · cases (decodeLzb_offsetCut hw ho).symm.trans h
        · cases (decodeLzb_lengthCut hw ho ht).symm.trans h
      · cases (decodeLzb_ref hw ht).symm.trans h
        exact .inr ⟨t, rfl, ht, rfl, rfl⟩

/-! ### Decoding an encoding -/

theorem decodeLzb_encodedLit {w : Widths} (hw : w.legal = true) (l : Byte) (bits : List Bool) :
    decodeLzb w (true :: (bitsOf 8 l.toNat ++ bits)) = .ok (.lit l, 9) := by
  rw [decodeLzb_lit hw (by simp), List.take_left' (length_bitsOf 8 _), ofNat_ofBits_bitsOf l.isLt]

theorem decodeLzb_encodedRef {w : Widths} (hw : w.legal = true) {o m : Word} (ho : o.toNat < 2 ^ w.obits)
    (hm : m.toNat < 2 ^ w.mbits) (bits : List Bool) :
    decodeLzb w (false :: (bitsOf w.obits o.toNat ++ bitsOf w.mbits m.toNat ++ bits)) =
      .ok (.ref o m, 1 + w.obits + w.mbits) := by
  rw [decodeLzb_ref hw (by simp), List.append_assoc, List.take_left' (length_bitsOf _ _),
    List.drop_left' (length_bitsOf _ _), List.take_left' (length_bitsOf _ _), ofNat_ofBits_bitsOf ho,
    ofNat_ofBits_bitsOf hm]

theorem decodeRle8_runKey (c : BitVec 6) (d : Byte) (rest : List Byte) :
    decodeRle8 (((3 : BitVec 2) ++ c) :: d :: rest) = .ok (.run c d, 2) := by
  rw [decodeRle8_cons, BitVec.extractLsb'_append_eq_left, BitVec.extractLsb'_append_eq_right]
  rfl

/-- Settles O1: one round trip per encoding space: the start words (`decodeCtrl_startWord`), the depths
(`decodeGeom1_word`), the LZB fields (`decodeLzb_encodedLit`, `decodeLzb_encodedRef`) and the RLE keys. -/
theorem decodeOfEncodeGivesTheInstruction : Obligations.DecodeOfEncodeGivesTheInstruction := by
  intro w i bits bytes hi
  cases i with
  | cmdLzb ie => exact congrArg oneWord (decodeCtrl_startWord 1 ie)
  | cmdRle8 ie => exact congrArg oneWord (decodeCtrl_startWord 2 ie)
  | cmdRle16 ie => exact congrArg oneWord (decodeCtrl_startWord 3 ie)
  | cmdConvert ie => exact congrArg oneWord (decodeCtrl_startWord 4 ie)
  | lit l => exact decodeLzb_encodedLit hi l bits
  | ref o m =>
    simp only [Instr.wellFormed, Bool.and_eq_true, decide_eq_true_eq] at hi
    obtain ⟨⟨hw, ho⟩, hm⟩ := hi
    exact decodeLzb_encodedRef hw ho hm bits
  | run c d => exact decodeRle8_runKey c d bytes
  | klit00 l => exact decodeRle8_klit00 l bytes
  | klit01 l => exact decodeRle8_klit01 l bytes
  | klit10 l => exact decodeRle8_klit10 l bytes
  | unit k b0 b1 => exact decodeRle16_three k b0 b1 bytes
  | convBpp1 => exact congrArg oneWord (decodeGeom1_word 1 0)
  | convBpp2 => exact congrArg oneWord (decodeGeom1_word 2 0)
  | convBpp4 => exact congrArg oneWord (decodeGeom1_word 4 0)
  | convBpp8 => exact congrArg oneWord (decodeGeom1_word 8 0)
  | convBpp16 => exact congrArg oneWord (decodeGeom1_word 16 0)

/-! ### Encoding what was decoded -/

/-- Token `i` of size `n` is well formed, and its encoding is the first `n` units of a text of `len`, taken by
`text`. -/
abbrev EncodesHead (w : Widths) (i : Instr) (n len : Nat) (text : Nat → Code) : Prop :=
  i.wellFormed w = true ∧ n = i.size w ∧ n ≤ len ∧ encode w i = text n

theorem decodeLzb_encodesHead {w : Widths} {bits : List Bool} {i : Instr} {n : Nat}
    (h : decodeLzb w bits = .ok (i, n)) : EncodesHead w i n bits.length fun n => .lzb (bits.take n) := by
  obtain ⟨hw, ⟨t, rfl, ht, rfl, rfl⟩ | ⟨t, rfl, ht, rfl, rfl⟩⟩ := decodeLzb_ok h
  · obtain ⟨-, hfield⟩ := field_of_bits (n := 8) (List.length_take_of_le ht) (Nat.le_refl 8)
    refine ⟨hw, rfl, Nat.succ_le_succ ht, ?_⟩
    rw [encode, hfield]
    rfl
  · obtain ⟨⟨-, ho⟩, -, hm⟩ := (Machine.Widths.legal_iff w).1 hw
    have hlo : (t.take w.obits).length = w.obits := List.length_take_of_le (by omega)
    have hlm : ((t.drop w.obits).take w.mbits).length = w.mbits :=
      List.length_take_of_le (by rw [List.length_drop]; omega)
    obtain ⟨hoffset, hobits⟩ := field_of_bits hlo ho
    obtain ⟨hlength, hmbits⟩ := field_of_bits hlm hm
    refine ⟨?_, rfl, by rw [List.length_cons]; omega, ?_⟩
    · simp only [Instr.wellFormed, hw, hoffset, hlength, decide_true, Bool.and_true]
    · rw [encode, hobits, hmbits, ← List.take_add, Nat.add_assoc, Nat.add_comm 1]
      rfl

/-- A key byte is its top two bits before its low six. -/
theorem key_eq_topBits_append (k : Byte) : k.extractLsb' 6 2 ++ k.extractLsb' 0 6 = k := by
  rw [BitVec.extractLsb'_append_extractLsb'_eq_extractLsb' (by rfl)]
  exact BitVec.extractLsb'_eq_self

theorem decodeRle8_encodesHead {w : Widths} {bytes : List Byte} {i : Instr} {n : Nat}
    (h : decodeRle8 bytes = .ok (i, n)) : EncodesHead w i n bytes.length fun n => .rle8 (bytes.take n) := by
  cases bytes with
  | nil => cases h
  | cons k t =>
    have hk {q : BitVec 2} (hq : k.extractLsb' 6 2 = q) : q ++ k.extractLsb' 0 6 = k := hq ▸ key_eq_topBits_append k
    rw [decodeRle8_cons] at h
    split_ifs at h with h0 h1 h2
    · cases h
      exact ⟨rfl, rfl, Nat.succ_pos _, congrArg (Code.rle8 [·]) (hk h0)⟩
    · cases h
      exact ⟨rfl, rfl, Nat.succ_pos _, congrArg (Code.rle8 [·]) (hk h1)⟩
    · cases h
      exact ⟨rfl, rfl, Nat.succ_pos _, congrArg (Code.rle8 [·]) (hk h2)⟩
    · cases t with
      | nil => cases h
      | cons d rest =>
        cases h
        have h3 : k.extractLsb' 6 2 = 3 := by
          generalize k.extractLsb' 6 2 = q at h0 h1 h2
          revert q
          decide
        exact ⟨rfl, rfl, Nat.le_add_left 2 _, congrArg (Code.rle8 [·, d]) (hk h3)⟩

theorem decodeRle16_encodesHead {w : Widths} {bytes : List Byte} {i : Instr} {n : Nat}
    (h : decodeRle16 bytes = .ok (i, n)) : EncodesHead w i n bytes.length fun n => .rle16 (bytes.take n) := by
  unfold decodeRle16 at h
  split at h <;> cases h
  exact ⟨rfl, rfl, Nat.le_add_left 3 _, rfl⟩

/-- Settles O2: one lemma per stream space. -/
theorem streamTokensDetermineTheirText : Obligations.StreamTokensDetermineTheirText :=
  ⟨fun _ _ _ _ => decodeLzb_encodesHead, fun _ _ _ _ => decodeRle8_encodesHead,
    fun _ _ _ _ => decodeRle16_encodesHead⟩

/-! ### Keys and words -/

/-- A literal key in the quarter of the byte range that `q` names decodes to the literal of its low six bits. -/
theorem decodeRle8_literalKey {q : BitVec 2} {literal : BitVec 6 → Instr}
    (hq : ∀ l rest, decodeRle8 ((q ++ l) :: rest) = .ok (literal l, 1)) {k : Byte} (h : q.toNat * 0x40 ≤ k.toNat)
    (h' : k.toNat < q.toNat * 0x40 + 0x40) (rest : List Byte) :
    decodeRle8 (k :: rest) = .ok (literal (BitVec.ofNat 6 (k.toNat - q.toNat * 0x40)), 1) := by
  rw [← hq _ rest, ← key_eq_append q h h']

/-- Settles O5: a key is its top two bits before its low six (`key_eq_append`), and each value of the top two has its
token. -/
theorem rleTokensFollowTheirKey : Obligations.RleTokensFollowTheirKey := by
  refine ⟨fun k d rest => ⟨fun h => decodeRle8_run h d rest, fun h => ?_, fun h h' => ?_, fun h h' => ?_⟩,
    decodeRle16_three⟩
  · exact decodeRle8_literalKey decodeRle8_klit00 (Nat.zero_le _) h rest
  · exact decodeRle8_literalKey decodeRle8_klit01 h h' rest
  · exact decodeRle8_literalKey decodeRle8_klit10 h h' rest

/-- Settles O3: eight words, evaluated. -/
theorem specWordsDecode : Obligations.SpecWordsDecode := by
  unfold Obligations.SpecWordsDecode
  decide

end Sys2Proof
end

section
/-! The fetch of an LZB token is the decoder on the job's remaining bits (41_lzb.md R110, R113 to R115): both ask for
the same fields in the same order. -/

namespace Sys2Proof.Machine

/-- A request for more bits than the stream has: no whole code word is left. -/
theorem State.takeBits_cut {n : Nat} {s : State} (hn : n ≤ 32) (hlen : s.streamBits.length < n) :
    s.takeBits n = none ∧ s.srcLen < s.inPos + 4 := by
  have h := State.takeBits_short hn hlen
  obtain ⟨-, hl⟩ := State.takeBits_eq_none_iff.1 h
  exact ⟨h, hl⟩

/-- What the decoder answers for the bits of `s` and what the fetch finds: the same token, with the stream moved past
its bits, or the end of the stream, with the reader at the end of the source. -/
inductive FetchAgrees (s : State) : Except Reject (Instr × Nat) → Fetched → Prop
  | token {i : Instr} {n : Nat} {s' : State} (stream : s'.streamBits = s.streamBits.drop n)
      (moved : ReaderMoved s s') : FetchAgrees s (.ok (i, n)) (.run i s')
  | cut {n : Nat} {s' : State} (atEnd : s.srcLen < s'.inPos + 4) (moved : ReaderMoved s s') :
      FetchAgrees s (.error (.streamEnd n)) (.ended .truncatedStream .headerRead s')

section
variable {s s1 : State} {t : List Bool} (hw : s.widths.legal = true)
include hw

/-- After a control bit 1 both read the 8 bits of a literal. -/
theorem FetchAgrees.literal (hs : s.streamBits = true :: t) (h1 : s.takeBits 1 = some (1, s1))
    (d1 : Delivered s 1 1 s1) : FetchAgrees s (decodeLzb s.widths (true :: t)) s.fetchLzb := by
  obtain ⟨-, ht, ⟨p, b, c, rfl⟩, hcnt, hcursor⟩ := d1
  rw [hs, List.drop_one, List.tail_cons] at ht
  rcases Nat.lt_or_ge t.length 8 with hl | hl
  · obtain ⟨h2, hend⟩ := State.takeBits_cut (n := 8) (by decide) (ht ▸ hl)
    rw [decodeLzb_litCut hw hl, State.fetchLzb_litCut hw h1 h2]
    exact .cut hend ⟨p, b, c, rfl⟩
  · obtain ⟨l, s2, h2, rfl, hstream, hmoved, -⟩ :=
      State.takeBits_delivers (n := 8) (by decide) hcnt hcursor (ht ▸ hl)
    rw [decodeLzb_lit hw hl, State.fetchLzb_lit hw h1 h2, ht]
    refine .token ?_ (.trans ⟨p, b, c, rfl⟩ hmoved)
    rw [hstream, ht, hs]
    rfl

/-- After a control bit 0 both read the offset, then the length. -/
theorem FetchAgrees.reference (hs : s.streamBits = false :: t) (h1 : s.takeBits 1 = some (0, s1))
    (d1 : Delivered s 1 0 s1) : FetchAgrees s (decodeLzb s.widths (false :: t)) s.fetchLzb := by
  obtain ⟨⟨-, ho⟩, -, hm⟩ := (Widths.legal_iff _).1 hw
  obtain ⟨-, ht, ⟨p, b, c, rfl⟩, hcnt, hcursor⟩ := d1
  rw [hs, List.drop_one, List.tail_cons] at ht
  rcases Nat.lt_or_ge t.length s.widths.obits with hlo | hlo
  · obtain ⟨h2, hend⟩ := State.takeBits_cut ho (ht ▸ hlo)
    rw [decodeLzb_offsetCut hw hlo, State.fetchLzb_offsetCut hw h1 h2]
    exact .cut hend ⟨p, b, c, rfl⟩
  obtain ⟨o, s2, h2, rfl, ht2, ⟨p', b', c', rfl⟩, hcnt2, hcursor2⟩ :=
    State.takeBits_delivers ho hcnt hcursor (ht ▸ hlo)
  rw [ht] at ht2
  have hlen : ((s.withReader p b c).withReader p' b' c').streamBits.length = t.length - s.widths.obits := by
    rw [ht2, List.length_drop]
  rcases Nat.lt_or_ge t.length (s.widths.obits + s.widths.mbits) with hlm | hlm
  · obtain ⟨h3, hend⟩ := State.takeBits_cut hm (hlen.trans_lt (by omega))
    rw [decodeLzb_lengthCut hw hlo hlm, State.fetchLzb_lengthCut hw h1 h2 h3]
    exact .cut hend ⟨p', b', c', rfl⟩
  · obtain ⟨m, s3, h3, rfl, hstream, hmoved, -⟩ :=
      State.takeBits_delivers hm hcnt2 hcursor2 (by omega)
    rw [decodeLzb_ref hw hlm, State.fetchLzb_ref hw h1 h2 h3, ht, ht2]
    refine .token ?_ (.trans ⟨p', b', c', rfl⟩ hmoved)
    rw [hstream, ht2, List.drop_drop, hs, Nat.add_assoc, Nat.add_comm 1]
    rfl

theorem State.fetchLzb_agrees (hc : s.job.bitcnt.toNat ≤ 32) (hi : s.inPos ≤ s.srcLen) :
    FetchAgrees s (decodeLzb s.widths s.streamBits) s.fetchLzb := by
  cases hs : s.streamBits with
  | nil =>
    obtain ⟨h1, hend⟩ := State.takeBits_cut (s := s) (n := 1) (by decide) (by simp [hs])
    rw [decodeLzb_nil hw, State.fetchLzb_controlCut hw h1]
    exact .cut hend ⟨s.job.inPos, s.job.bitbuf, s.job.bitcnt, rfl⟩
  | cons control t =>
    obtain ⟨v, s1, h1, d1⟩ := State.takeBits_delivers (n := 1) (by decide) hc hi (by simp [hs])
    have hv : v = control.toNat := by
      rw [d1.value, hs, List.take_one, List.head?_cons, Option.toList_some, ofBits_cons]
      simp
    subst hv
    cases control with
    | true => exact .literal hw hs h1 d1
    | false => exact .reference hw hs h1 d1

end

/-- Settles O38: the fetch agrees with the decoder (`State.fetchLzb_agrees`), so a whole token is the step, and a cut
one ends the job. -/
theorem stepRunsTheDecodedLzbToken : Obligations.StepRunsTheDecodedLzbToken := by
  intro s h hs hpos hc hi
  change (∀ i n, decodeLzb s.widths s.streamBits = _ → _) ∧ ∀ n, decodeLzb s.widths s.streamBits = _ → _
  cases hw : s.widths.legal with
  | false =>
    rw [decodeLzb_illegal hw]
    exact ⟨nofun, nofun⟩
  | true =>
    have hat : s.AtLzbToken := ⟨h, hs, hpos, hw, hc⟩
    have hagrees := State.fetchLzb_agrees hw hc hi
    generalize hd : decodeLzb s.widths s.streamBits = r at hagrees ⊢
    generalize hf : s.fetchLzb = f at hagrees
    cases hagrees with
    | @token i n s' stream moved =>
      refine ⟨fun i' n' hr => ?_, nofun⟩
      cases hr
      obtain ⟨p, b, c, rfl⟩ := moved
      exact ⟨_, step_lzbToken hat hf, stream, rfl, ⟨rfl, rfl, rfl, rfl, rfl, rfl, rfl, rfl⟩, rfl⟩
    | @cut n s' atEnd moved =>
      refine ⟨nofun, fun _ _ => ?_⟩
      obtain ⟨p, b, c, rfl⟩ := moved
      obtain ⟨-, hinbox, hop⟩ := h
      have hstep := (step_engine hinbox).trans (engineMove_ended ((State.fetch_lzbToken hat).trans hf))
      rw [State.complete_headerRead (s := s.withReader p b c) hop] at hstep
      exact ⟨_, hstep, rfl, rfl, rfl, rfl, rfl, rfl, rfl, atEnd⟩

end Sys2Proof.Machine
end

section
/-! The step of a started job, of an RLE job and of a CONVERT job (40_jobs.md R90, R94; 42_rle.md R140, R145;
43_convert.md R165): the instruction its text decodes to, an exhausted source, and the end of the loop. -/

namespace Sys2Proof.Machine

/-! ### The decoded instruction -/

theorem oneWord_ok {r : Except Reject Instr} {i : Instr} {n : Nat} (h : oneWord r = .ok (i, n)) : r = .ok i := by
  unfold oneWord at h
  split at h <;> cases h
  rfl

/-- The bytes a fetch sees are the first of the source's remaining ones. -/
theorem State.nextBytes_take (s : State) (n : Nat) : s.nextBytes n = (s.nextBytes s.srcLen).take n := by
  rw [State.nextBytes, State.nextBytes, ← List.map_take, List.take_range, Nat.min_eq_right (Nat.sub_le _ _)]

/-- Settles O37: each fetch is the decoder of its space, on the start word, on the first source bytes
(`State.nextBytes_take`) or on GEOM1. -/
theorem stepRunsTheDecodedInstruction : Obligations.StepRunsTheDecodedInstruction := by
  refine fun s i n => ⟨fun hp hinbox hd => ?_, fun h hs hpos hd => ?_, fun h hs hpos hd => ?_,
    fun h hs hy hx hd => ?_⟩
  · have hf : s.fetch = .run i s := by
      rw [State.fetch_starting hp, State.fetchCommand, oneWord_ok hd]
    exact (step_engine hinbox).trans (engineMove_run hf)
  · refine step_fetchedToken h (State.fetch_rle8 h hs hpos) ?_
    rwa [s.nextBytes_take, decodeRle8_take]
  · refine step_fetchedToken h (State.fetch_rle16 h hs hpos) ?_
    rwa [s.nextBytes_take, decodeRle16_take]
  · have hf : s.fetch = .run i s := by
      rw [State.fetch_convert h hs hx hy, State.fetchPixel, oneWord_ok hd]
    obtain ⟨-, hinbox, -⟩ := h
    exact (step_engine hinbox).trans (engineMove_run hf)

/-! ### An exhausted source -/

theorem State.nextBytes_exhausted {s : State} (h : s.inPos = s.srcLen) (n : Nat) : s.nextBytes n = [] :=
  State.nextBytes_eq (k := 0) (by omega)

/-- Settles O39: with no source byte left the fetch finds the end of the stream with nothing taken
(`State.nextBytes_exhausted`), which ends the job (`step_fetchedCut`). -/
theorem exhaustedRleSourceIsOutOfBounds : Obligations.ExhaustedRleSourceIsOutOfBounds := by
  intro s hs hin
  have hcursor : BitVec.ofNat 32 (s.inPos + 0) = s.win.srcLen := by rw [Nat.add_zero, hin]; simp
  refine ⟨fun h hpos => ?_, fun h hpos => ?_⟩
  · obtain ⟨t, hstep, hidle, hmem, hworld, hwin⟩ := step_fetchedCut h (.inl rfl) (State.fetch_rle8 h hs hpos)
      (State.nextBytes_exhausted hin 2 ▸ decodeRle8_nil)
    obtain ⟨-, -, hop⟩ := h
    rw [hcursor, State.written_bytes (.inr hop)] at hwin
    exact ⟨t, hstep, hidle, hmem, hworld, by simpa using hwin⟩
  · obtain ⟨t, hstep, hidle, hmem, hworld, hwin⟩ := step_fetchedCut (n := 0) h (.inr rfl) (State.fetch_rle16 h hs hpos)
      (State.nextBytes_exhausted hin 3 ▸ rfl)
    obtain ⟨-, -, hop⟩ := h
    rw [hcursor, State.written_units hop] at hwin
    exact ⟨t, hstep, hidle, hmem, hworld, hwin⟩

/-! ### The end of the loop -/

/-- A loop whose test fails completes with code NONE. -/
theorem step_done {s : State} {op : Nat} (h : s.AtLoop op) (hs : s.srcInSpace = true) (hm : s.moreToDo = false) :
    step s = .next (s.complete .noError .headerRead) := by
  obtain ⟨hp, hinbox, -⟩ := h
  exact (step_engine hinbox).trans (engineMove_ended (State.fetch_done hp hs hm))

/-- Settles O26: the loop test of each command fails (`step_done`), and the completion reports what R94 says of it. -/
theorem finishedLoopsReportTheirJob : Obligations.FinishedLoopsReportTheirJob := by
  refine fun s hs => ⟨fun h hpos => ?_, fun h hpos => ?_, fun h hpos => ?_, fun h hpos => ?_⟩ <;>
    have ⟨_, _, hop⟩ := h
  · rw [step_done h hs (by simpa [State.moreToDo, hop] using hpos), State.complete_headerRead hop]
  · rw [step_done h hs (by simpa [State.moreToDo, hop] using hpos), State.complete_rle (.inl hop),
      State.written_bytes (.inr hop), BitVec.ofNat_toNat, BitVec.setWidth_eq]
  · rw [step_done h hs (by simpa [State.moreToDo, hop] using hpos), State.complete_rle (.inr hop),
      State.written_units hop]
  · have hm : s.moreToDo = false := by
      have hfull : s.y < s.height → s.width ≤ s.x := by omega
      simpa [State.moreToDo, hop] using hfull
    rw [step_done h hs hm, State.complete_convert hop, State.written_pixels hop, State.rasterIndex]

/-- Settles O40: the fetch of an idle block waits. -/
theorem idleBlockWaits : Obligations.IdleBlockWaits := fun _ hp hi =>
  (step_engine hi).trans (engineMove_wait (State.fetch_idle hp))

end Sys2Proof.Machine
end

section
/-! The commands where their range checks pass (40_jobs.md R90 to R98): into the loop, or refused over a device
(20_memory.md R58); and that none takes anything from the internal state of the job before (10_state.md R35). -/

namespace Sys2Proof.Machine

theorem State.rowAligned_of {s : State} (h : s.bpp < 8 → s.stride * s.bpp % 8 = 0) : s.rowUnaligned = false :=
  Bool.eq_false_iff.2 fun hr => by
    obtain ⟨hlt, hne⟩ := s.rowUnaligned_iff.1 hr
    exact hne (h hlt)

/-- Settles O20: with their checks passed the three commands enter their loop (`execCmdRle8_loop`, `execCmdRle16_loop`,
`execCmdConvert_loop`). -/
theorem checkedCommandsEnterTheirLoop : Obligations.CheckedCommandsEnterTheirLoop := by
  refine fun ie s h hd => ⟨execCmdRle8_loop h hd, fun heven => ?_, fun hbpp hrow hcap => ?_⟩
  · exact execCmdRle16_loop ie h hd (by omega)
  · exact execCmdConvert_loop ie h hd ((bppLegal_iff _).2 hbpp) (State.rowAligned_of hrow) hcap

section
variable {s : State} (ie : Bool) (h : s.RangesPass) (hd : s.coversDevice = true)
include h hd

theorem execCmdLzb_device : execCmdLzb ie s = .refused .deviceRange :=
  (beginJob_rangesPass (by decide) h).trans (unlessDevice_device hd)

theorem execCmdRle8_device : execCmdRle8 ie s = .refused .deviceRange :=
  (beginJob_rangesPass (by decide) h).trans (unlessDevice_device hd)

theorem execCmdRle16_device (heven : s.dstLen % 2 ≠ 1) : execCmdRle16 ie s = .refused .deviceRange :=
  (beginJob_rangesPass (by decide) h).trans ((if_neg heven).trans (unlessDevice_device hd))

theorem execCmdConvert_device (hbpp : bppLegal s.bpp = true) (hrow : s.rowUnaligned = false)
    (hcap : s.width * s.height * 2 ≤ s.dstLen) : execCmdConvert ie s = .refused .deviceRange :=
  (beginJob_rangesPass (by decide) h).trans <| (if_neg (ne_false_of_eq_true hbpp)).trans <|
    (if_neg (ne_true_of_eq_false hrow)).trans <| (if_neg (Nat.not_lt.2 hcap)).trans (unlessDevice_device hd)

end

/-- Settles O24: with every check before it passed, `unlessDevice` refuses each command. -/
theorem jobsOverDevicesAreRefused : Obligations.JobsOverDevicesAreRefused := by
  refine fun ie s h hd => ⟨execCmdLzb_device ie h hd, execCmdRle8_device ie h hd, fun heven => ?_,
    fun hbpp hrow hcap => ?_⟩
  · exact execCmdRle16_device ie h hd (by omega)
  · exact execCmdConvert_device ie h hd ((bppLegal_iff _).2 hbpp) (State.rowAligned_of hrow) hcap

/-- A command begins its job with the internal state initialised, so what this was before shows only where the range
checks fail. -/
theorem beginJob_withJob {op : BitVec 3} {ie : Bool} {s : State} {body : State → Host.Outcome State Fault Refusal}
    (hop : op ∈ [(1 : BitVec 3), 2, 3, 4]) (h : s.RangesPass) (j : Job) :
    beginJob ((s.withJob j).latchStart op ie) body = beginJob (s.latchStart op ie) body :=
  (beginJob_rangesPass (s := s.withJob j) hop h).trans (beginJob_rangesPass hop h).symm

/-- Settles O25: with passing range checks by `beginJob_withJob`; with failing ones each command completes with the
internal state as it was (`startChecksRejectBadJobs`). -/
theorem noJobStateIsCarriedOver : Obligations.NoJobStateIsCarriedOver := by
  refine fun ie i s j hi => ⟨fun h => ?_, fun h => ?_⟩
  · simp only [List.mem_cons, List.not_mem_nil, or_false] at hi
    rcases hi with rfl | rfl | rfl | rfl
    · exact (beginJob_withJob (by decide) h j : execCmdLzb ie (s.withJob j) = execCmdLzb ie s)
    · exact (beginJob_withJob (by decide) h j : execCmdRle8 ie (s.withJob j) = execCmdRle8 ie s)
    · exact (beginJob_withJob (by decide) h j : execCmdRle16 ie (s.withJob j) = execCmdRle16 ie s)
    · exact (beginJob_withJob (by decide) h j : execCmdConvert ie (s.withJob j) = execCmdConvert ie s)
  · obtain ⟨hreject, -⟩ := startChecksRejectBadJobs
    obtain ⟨op, hop⟩ : ∃ op, (i, op) ∈ [(Instr.cmdLzb ie, (1 : BitVec 3)), (Instr.cmdRle8 ie, 2),
        (Instr.cmdRle16 ie, 3), (Instr.cmdConvert ie, 4)] := by
      simp only [List.mem_cons, List.not_mem_nil, or_false] at hi
      rcases hi with rfl | rfl | rfl | rfl <;> simp
    exact ⟨_, hreject ie s i op h hop, hreject ie (s.withJob j) i op h hop⟩

end Sys2Proof.Machine
end

section
/-! What every instruction leaves alone, and where a token or a pixel stops (20_memory.md R50). -/

namespace Sys2Proof.Machine

/-- What a token or a pixel comes to: bytes stored inside the destination, an error, or a fault. -/
inductive TokenOutcome (s : State) : Host.Outcome State Fault Refusal → Prop
  | stores {t : State} {i n : Nat} {f : Nat → Byte} (holds : s.dstHolds i n = true) (stored : Stored s t i n f) :
      TokenOutcome s (.next t)
  | raises (e : ErrCode) : TokenOutcome s (.next (s.raise e))
  | strays : TokenOutcome s (.fault .strayAccess)

section
variable {s : State}

theorem TokenOutcome.of_store {o : Host.Outcome State Fault Refusal} {i n : Nat} {f : Nat → Byte} {j : Job}
    (hnext : s.dstHolds i n = true → ∃ t, o = .next t ∧ Stored s t i n f ∧ t.job = j)
    (hfault : s.dstHolds i n = false → o = .fault .strayAccess) : TokenOutcome s o := by
  cases hd : s.dstHolds i n with
  | true =>
    obtain ⟨t, rfl, stored, -⟩ := hnext hd
    exact .stores hd stored
  | false => exact hfault hd ▸ .strays

variable (hwf : s.mem.wf = true)
include hwf

theorem execRef_tokenOutcome (o m : Word) : TokenOutcome s (execRef o m s) := by
  by_cases hv : o = 0 ∨ s.pos < o.toNat
  · exact execRef_invalid hv ▸ .raises _
  · obtain ⟨h0, ho⟩ := refReaches_of_valid hv
    exact .of_store (execRef_next hwf h0 ho) (execRef_fault h0 ho)

theorem convertPixel_tokenOutcome (bpp : Nat) (v : Pixel) : TokenOutcome s (s.convertPixel bpp v) := by
  cases hs : s.srcInSpace with
  | false => exact State.convertPixel_fault (.inl hs) ▸ .strays
  | true => exact .of_store (State.convertPixel_next hwf hs) fun hd => State.convertPixel_fault (.inr hd)

theorem exec_tokenOutcome {i : Instr} (hi : i.isCommand = false) : TokenOutcome s (exec i s) := by
  cases i with
  | cmdLzb | cmdRle8 | cmdRle16 | cmdConvert => cases hi
  | lit l => exact .of_store (execLit_next hwf) execLit_fault
  | ref o m => exact execRef_tokenOutcome hwf o m
  | run c d => exact .of_store (execRun_next hwf) execRun_fault
  | klit00 | klit01 | klit10 => exact .of_store (State.putKey_next hwf) State.putKey_fault
  | unit k b0 b1 => exact .of_store (execUnit_next hwf) execUnit_fault
  | convBpp1 | convBpp2 | convBpp4 | convBpp8 | convBpp16 => exact convertPixel_tokenOutcome hwf _ _

end

/-- Settles O48: a command stores nothing (`exec_commandOutcome`), a token or a pixel stores inside the destination
(`exec_tokenOutcome`); the outside world is left alone by `exec_sameWorld`. -/
theorem meaningsTouchOnlyTheDestination : Obligations.MeaningsTouchOnlyTheDestination := by
  intro i s t hwf h
  have hworld := exec_sameWorld h
  cases hi : i.isCommand with
  | true =>
    obtain ⟨op, ie, ho⟩ := exec_commandOutcome hi s
    rw [h] at ho
    cases ho with
    | completes | enters => exact ⟨fun _ _ => rfl, hwf, hworld, rfl, rfl, rfl, rfl, rfl, rfl, rfl, rfl⟩
  | false =>
    have ho := exec_tokenOutcome hwf hi
    rw [h] at ho
    cases ho with
    | raises e => exact ⟨fun _ _ => rfl, hwf, hworld, rfl, rfl, rfl, rfl, rfl, rfl, rfl, rfl⟩
    | stores holds stored =>
      obtain ⟨-, hroom⟩ := (State.dstHolds_iff _ _ _).1 holds
      obtain ⟨hwin, -⟩ := stored.block
      refine ⟨fun b hb => stored.outside b (by omega), stored.wf, hworld, ?_⟩
      simp [hwin]

/-- Settles O13: the fault of each operation that stores. -/
theorem storesOutsideTheDestinationFault : Obligations.StoresOutsideTheDestinationFault := by
  refine ⟨fun l s => execLit_fault, fun l i s hi hd => ?_, fun c d s => execRun_fault, fun k b0 b1 s => execUnit_fault,
    fun o m s => execRef_fault, fun i s hi h => ?_⟩
  · simp only [List.mem_cons, List.not_mem_nil, or_false] at hi
    rcases hi with rfl | rfl | rfl <;> exact State.putKey_fault hd
  · simp only [List.mem_cons, List.not_mem_nil, or_false] at hi
    rcases hi with rfl | rfl | rfl | rfl | rfl <;> exact State.convertPixel_fault h

end Sys2Proof.Machine
end

section
/-! Register reads, parameter writes and ordinary memory as the host sees them (10_state.md R28 to R31, R38;
20_memory.md R58; 60_exceptions.md R190). -/

namespace Sys2Proof.Machine

/-! ### Reads -/

/-- A read answers the register, but for a result register while BUSY. -/
theorem State.readRegister_value {s : State} {off : BitVec 6}
    (h : s.busy = false ∨ off.toNat ∉ [0x20, 0x24, 0x28, 0x2C]) :
    s.readRegister off = s.reply (.word (s.register off)) := by
  refine if_neg fun hfree => ?_
  obtain ⟨hb, hr⟩ := (Bool.and_eq_true _ _).mp hfree
  rcases h with h | h
  · cases h.symm.trans hb
  · exact h ((isResultOffset_iff off).1 hr)

theorem State.readRegister_free {s : State} {off : BitVec 6} (hb : s.busy = true)
    (hr : off.toNat ∈ [0x20, 0x24, 0x28, 0x2C]) :
    s.readRegister off = (s.reply (.word (Config.freeWord s.draws))).withDraws (s.draws + 1) :=
  if_pos ((Bool.and_eq_true _ _).mpr ⟨hb, (isResultOffset_iff off).2 hr⟩)

/-- Settles O32: an aligned read outside reset is performed (`step_regRead_word`), with the register's value
(`State.readRegister_value`) or a free one (`State.readRegister_free`). -/
theorem registerReadsHaveNoSideEffect : Obligations.RegisterReadsHaveNoSideEffect := by
  refine fun s off rest hr hi ho => ⟨fun h => ?_, fun hb hres => ?_⟩
  · exact (step_regRead_word hr hi ho).trans (congrArg _ (State.readRegister_value (s := s.withInbox rest) h))
  · exact (step_regRead_word hr hi ho).trans (congrArg _ (State.readRegister_free (s := s.withInbox rest) hb hres))

/-- Settles O28: a read of the reset state answers the register, which is 0 (`State.register_reset`). -/
theorem everyRegisterReadsZeroAfterReset : Obligations.EveryRegisterReadsZeroAfterReset := by
  intro off ho
  obtain ⟨hread, -⟩ := registerReadsHaveNoSideEffect { State.reset with inbox := [.regRead off 4] } off [] rfl rfl ho
  rw [hread (.inl rfl), State.register_reset rfl rfl]
  rfl

/-- STATUS after a completion: the code, ERR for one other than NONE, DONE, and BUSY clear. -/
theorem State.complete_statusWord (e : ErrCode) (p : Progress) (s : State) : (s.complete e p).statusWord =
    (0 : BitVec 21) ++ e.code ++ (0 : BitVec 5) ++ BitVec.ofBool (decide (e ≠ .noError)) ++ BitVec.ofBool true ++
      BitVec.ofBool false := rfl

/-- Settles O27: the six codes in STATUS (`State.complete_statusWord`), however far the job had come. -/
theorem statusShowsTheErrorCode : Obligations.StatusShowsTheErrorCode := by
  intro p s
  simp only [State.complete_statusWord]
  decide

/-! ### Parameter writes -/

/-- GEOM0's fields are the two halves of the word. -/
theorem geom0Fields_eq (v : Word) : v.extractLsb' 16 16 ++ v.extractLsb' 0 16 = v := by
  rw [BitVec.extractLsb'_append_extractLsb'_eq_extractLsb' (by rfl)]
  exact BitVec.extractLsb'_eq_self

/-- GEOM1's fields are the low 21 bits of the word (10_state.md R29). -/
theorem geom1Fields_eq_masked (v : Word) :
    ((0 : BitVec 11) ++ v.extractLsb' 16 5 ++ v.extractLsb' 0 16 : Word) = v &&& 0x001FFFFF := by
  refine BitVec.eq_of_getLsbD_eq fun i hi => ?_
  rw [BitVec.getLsbD_append, BitVec.getLsbD_append]
  interval_cases i <;> simp

/-- After the write the register at `off` reads `v`, every other one as before. -/
abbrev RegisterSet (s t : State) (off : BitVec 6) (v : Word) : Prop :=
  t.register off = v ∧ ∀ off', off' ≠ off → t.register off' = s.register off'

section
variable (s : State) (v : Word)

theorem registerSet_srcAddr : RegisterSet s (s.withWin { s.win with srcAddr := v }) 0x08 v := by
  refine ⟨rfl, fun off' h => ?_⟩
  simp only [State.register, if_neg h]
  rfl

theorem registerSet_srcLen : RegisterSet s (s.withWin { s.win with srcLen := v }) 0x0C v := by
  refine ⟨rfl, fun off' h => ?_⟩
  simp only [State.register, if_neg h]
  rfl

theorem registerSet_dstAddr : RegisterSet s (s.withWin { s.win with dstAddr := v }) 0x10 v := by
  refine ⟨rfl, fun off' h => ?_⟩
  simp only [State.register, if_neg h]
  rfl

theorem registerSet_dstLen : RegisterSet s (s.withWin { s.win with dstLen := v }) 0x14 v := by
  refine ⟨rfl, fun off' h => ?_⟩
  simp only [State.register, if_neg h]
  rfl

theorem registerSet_geom0 : RegisterSet s
    (s.withWin { s.win with stride := v.extractLsb' 0 16, height := v.extractLsb' 16 16 }) 0x18 v := by
  refine ⟨geom0Fields_eq v, fun off' h => ?_⟩
  simp only [State.register, if_neg h]
  rfl

theorem registerSet_geom1 : RegisterSet s
    (s.withWin { s.win with width := v.extractLsb' 0 16, bpp := v.extractLsb' 16 5 }) 0x1C (v &&& 0x001FFFFF) := by
  refine ⟨geom1Fields_eq_masked v, fun off' h => ?_⟩
  simp only [State.register, if_neg h]
  rfl

end

/-- An aligned offset from 8 on is one of the six parameters, or its register ignores writes. -/
theorem parameterOffset_cases {off : BitVec 6} (ho : off.toNat % 4 = 0) (h8 : 8 ≤ off.toNat) :
    off ∈ [(0x08 : BitVec 6), 0x0C, 0x10, 0x14, 0x18, 0x1C] ∨ 0x1C < off.toNat := by
  revert off
  decide

/-- What a parameter register reads after a write of `v` while idle: its writable bits. -/
theorem State.writeRegister_parameter {s : State} (hp : s.phase = .idle) {off : BitVec 6} (v : Word)
    (ho : off.toNat % 4 = 0) (h8 : 8 ≤ off.toNat) :
    ∃ w, s.writeRegister off v = s.withWin w ∧ RegisterSet s (s.withWin w) off
      (if off.toNat < 0x1C then v else if off.toNat = 0x1C then v &&& 0x001FFFFF else s.register off) := by
  have hb := State.not_busy_iff.2 hp
  rcases parameterOffset_cases ho h8 with hmem | hlt
  · simp only [List.mem_cons, List.not_mem_nil, or_false] at hmem
    rcases hmem with rfl | rfl | rfl | rfl | rfl | rfl
    · exact ⟨_, State.writeParam_idle hb, registerSet_srcAddr s v⟩
    · exact ⟨_, State.writeParam_idle hb, registerSet_srcLen s v⟩
    · exact ⟨_, State.writeParam_idle hb, registerSet_dstAddr s v⟩
    · exact ⟨_, State.writeParam_idle hb, registerSet_dstLen s v⟩
    · exact ⟨_, State.writeParam_idle hb, registerSet_geom0 s v⟩
    · exact ⟨_, State.writeParam_idle hb, registerSet_geom1 s v⟩
  · rw [if_neg (by omega), if_neg (by omega)]
    exact ⟨s.win, State.writeRegister_ignored hlt, rfl, fun _ _ => rfl⟩

/-- Settles O29: the write is performed (`step_regWrite_word`) and sets the register's writable bits alone
(`State.writeRegister_parameter`). -/
theorem parametersReadBackWhenIdle : Obligations.ParametersReadBackWhenIdle := by
  intro s off v rest hp hr hi ho h8
  obtain ⟨w, hwrite, hset, hkept⟩ := State.writeRegister_parameter (s := s.withInbox rest) hp v ho h8
  exact ⟨_, (step_regWrite_word hr hi ho).trans (congrArg _ hwrite), hset, hkept, hp, rfl, rfl, rfl, hr, rfl, rfl, rfl,
    rfl⟩

/-! ### Ordinary memory -/

/-- Settles O35: outside a running job's ranges a write is performed (`step_memWrite_free`), and so is the read after
it (`step_memRead_value`), which answers the byte written. -/
theorem hostMemoryIsOrdinary : Obligations.HostMemoryIsOrdinary := by
  intro s a b rest hwf hw hd hfree hi
  have hread (c : Nat) := Memory.read_write hwf a.toNat c b
  refine ⟨_, step_memWrite_free hi hw hd hfree, fun c hc => ?_, Memory.wf_write hwf b a.isLt, rfl, rfl, rfl, rfl, ?_⟩
  · exact (hread c).trans (if_neg (by omega))
  · refine (step_memRead_value (s := (s.withInbox (.memRead a :: rest)).withMem (s.mem.write a.toNat b)) rfl hw hd
      fun hb => ?_).trans ?_
    · obtain ⟨-, hdst⟩ := hfree hb
      exact hdst
    · rw [State.withMem_mem, hread, if_pos rfl]
      rfl

end Sys2Proof.Machine
end
